-- ==== Sys2Proof/Word.lean ====
section
/-! DEFINITION. The word types of the block and the type of its byte memories (spec/00 R10, spec/20 R80, R81). -/

namespace Sys2Proof

/-- Every cell of every address space is one byte (20 R80). -/
abbrev Byte := BitVec 8

/-- A CPU address, and the mapper's index (20 R80). -/
abbrev CpuAddr := BitVec 16

/-- An address of the PPU's own 14-bit space (20 R80). -/
abbrev PpuAddr := BitVec 14

/-- The VRAM address latches v and t (10 R22). -/
abbrev VramAddr := BitVec 15

/-- A byte array as plain data: (index, byte) pairs, indices strictly rising, no entry equal to what an unlisted
index reads as. The operations are in Machine/Memory.lean. -/
abbrev Memory := List Host.Cell

end Sys2Proof
end

