-- ==== Sys2Proof/Machine/Memory.lean ====
section
/-! DEFINITION. The operations of a byte memory (spec/20 R80, R81) held as a sorted list of the bytes that differ from
what an unlisted address reads as. -/

namespace Sys2Proof

/-- What an unlisted address reads as: zero, the spec's default for OAM_INIT, PAL_INIT, NT_INIT and SRAM_INIT (00 R6);
an image that differs lists its bytes (log 7). -/
def Memory.unlisted : Byte := 0

/-- The byte at an index. -/
def Memory.read : Memory → Nat → Byte
  | [], _ => Memory.unlisted
  | (k, b) :: rest, a => if k = a then b else Memory.read rest a

/-- Put a listed byte into its place in the rising order. -/
def Memory.insert (a : Nat) (b : Byte) : Memory → Memory
  | [] => [(a, b)]
  | (k, c) :: rest => if a < k then (a, b) :: (k, c) :: rest else if a = k then (a, b) :: rest else (k, c) :: Memory.insert a b rest

/-- Take an index off the list. -/
def Memory.erase (a : Nat) : Memory → Memory
  | [] => []
  | (k, c) :: rest => if a = k then rest else (k, c) :: Memory.erase a rest

/-- Store a byte, keeping the canonical form. -/
def Memory.write (m : Memory) (a : Nat) (b : Byte) : Memory :=
  if b = Memory.unlisted then Memory.erase a m else Memory.insert a b m

/-- Every index is above `lo` and the indices rise. -/
def Memory.rising (lo : Nat) : Memory → Bool
  | [] => true
  | (k, _) :: rest => lo ≤ k && Memory.rising (k + 1) rest

/-- The canonical form: indices strictly rising, no entry equal to what an unlisted address reads as. -/
def Memory.wf (m : Memory) : Bool := Memory.rising 0 m && m.all fun c => c.2 != Memory.unlisted

/-- Every listed index is an index of an array of `n` bytes. -/
def Memory.below (n : Nat) (m : Memory) : Bool := m.all fun c => c.1 < n

/-- The array of `n` bytes a memory stands for. -/
def Memory.toBytes (n : Nat) (m : Memory) : List Byte := (List.range n).map m.read

/-- The memory that stands for an array, its first byte at index `base`. -/
def Memory.ofBytesFrom (base : Nat) : List Byte → Memory
  | [] => []
  | b :: rest => if b = Memory.unlisted then Memory.ofBytesFrom (base + 1) rest else (base, b) :: Memory.ofBytesFrom (base + 1) rest

/-- The memory that stands for an array. -/
def Memory.ofBytes (bs : List Byte) : Memory := Memory.ofBytesFrom 0 bs

end Sys2Proof
end

