-- ==== Sys2Proof/Config.lean ====
section
/-! DEFINITION. What is fixed for the life of a block: the parameters of spec/00 R6, the constants the spec fixes among
them, the spec's defaults, and the one free value of the model (the answers of the external Bus). -/

namespace Sys2Proof

/-- The parameter MAPPER (00 R3, R6). -/
inductive Variant where
  | axrom | vrc2a | vrc2b
  deriving DecidableEq, Repr

/-- The two revisions of VRC2 (45). -/
inductive Revision where
  | a | b
  deriving DecidableEq, Repr

/-- The parameter VRC2_ADDR_MODE (00 R6, 30 R144): the source's open question, kept open. -/
inductive Vrc2AddrMode where
  | fixedF003 | heuristicF00F
  deriving DecidableEq, Repr

/-- The parameters of 00 R6 that differ from block to block. MAPPER is the constructor of `Machine.MapperRegs`
(log 3); IRQ_WRAP and IRQ_PRESCALE are the constants below. -/
structure Params where
  /-- PRG, program ROM bytes (10 R48). -/
  prg : Memory
  /-- PRG_LEN. -/
  prgLen : Nat
  /-- CHR, character ROM bytes or the initial contents of character RAM (10 R48). -/
  chr : Memory
  /-- CHR_LEN. -/
  chrLen : Nat
  /-- CHR_IS_RAM. -/
  chrIsRam : Bool
  /-- SRAM_LEN. -/
  sramLen : Nat
  /-- NMI_DELAY, 1 to 255 (OPEN, D7). -/
  nmiDelay : Nat
  /-- DMA_WRITE_UPDATES_LATCH (OPEN, D5). -/
  dmaWriteUpdatesLatch : Bool
  /-- VRC2_ADDR_MODE (OPEN, D25). -/
  vrc2AddrMode : Vrc2AddrMode
  /-- OAM_INIT, PAL_INIT, NT_INIT, SRAM_INIT (OPEN, D29). -/
  oamInit : Memory
  palInit : Memory
  ntInit : Memory
  sramInit : Memory
  deriving DecidableEq, Repr

/-- IRQ_WRAP: the boundary from which the IRQ counter wraps (00 R6, D28; log 14). -/
def Config.irqWrap : Byte := 0xFF

/-- IRQ_PRESCALE: processor cycles per counter increment in scanline-count mode (00 R6; log 14). -/
def Config.irqPrescale : Nat := 341

/-- The variant of the block State.reset stands for. DESIGN CHOICE, unsafe (log 4): the spec fixes no variant. -/
def Config.variant : Variant := .vrc2b

/-- The parameters of the block State.reset stands for: the spec's defaults of 00 R6 where it has one, and a blank
cartridge that is well formed for every variant (10 R49). DESIGN CHOICE, unsafe (log 4) for the cartridge. -/
def Config.params : Params where
  prg := []
  prgLen := 0x8000
  chr := []
  chrLen := 0x2000
  chrIsRam := true
  sramLen := 0x2000
  nmiDelay := 15
  dmaWriteUpdatesLatch := false
  vrc2AddrMode := .fixedF003
  oamInit := []
  palInit := []
  ntInit := []
  sramInit := []

/-- The oracle `CpuBusRead` (00 R9) where the driver delivered no answer with the stimulus: a FREE VALUE, one for
every read (the first argument counts them) and address. DESIGN CHOICE, safe (log 8). -/
opaque Config.cpuBusRead : Nat → CpuAddr → Byte

end Sys2Proof
end

