-- ==== Sys2Proof/Syntax.lean ====
section
/-! DEFINITION. The stimuli: one constructor of `Instr` for every mnemonic of spec/opcode_table.json, the stimulus as it
is delivered (a 28-bit word and the bytes beside it), and what decoding depends on beside the word. -/

namespace Sys2Proof

/-- One stimulus as the driver delivers it: the word of 30 R120 and the bytes carried beside it, which are the byte
sequence of a `RESTORE` (30 R123) or the Bus's answers to the reads of an OAM DMA, in order (00 R9; log 8). -/
structure Stimulus where
  word : BitVec 28
  bytes : List Byte
  deriving DecidableEq, Repr

/-- What the decoder reads beside the word: MAPPER, VRC2_ADDR_MODE and the write toggle `w` (30 R152, R154). -/
structure DecodeCtx where
  variant : Variant
  addrMode : Vrc2AddrMode
  w : Bool
  deriving DecidableEq, Repr

/-- The decoded stimuli. `d` is the byte written. -/
inductive Instr where
  -- PPU registers, 40 R160 to R177
  | ppuctrlW (d : Byte)
  | ppuctrlR
  | ppumaskW (d : Byte)
  | ppumaskR
  | ppustatusR
  | ppustatusW (d : Byte)
  | oamaddrW (d : Byte)
  | oamaddrR
  | oamdataR
  | oamdataW (d : Byte)
  | ppuscrollW1 (d : Byte)
  | ppuscrollW2 (d : Byte)
  | ppuscrollR
  | ppuaddrW1 (d : Byte)
  | ppuaddrW2 (d : Byte)
  | ppuaddrR
  | ppudataR
  | ppudataW (d : Byte)
  -- OAM DMA, 40 R180: the page, the parity of the processor cycle, the Bus's answers as delivered
  | oamdmaW (page : Byte) (odd : Bool) (bus : List Byte)
  -- the rest of the CPU window, 40 R182, R183
  | notClaimed
  -- mapper registers, 44 R293, 45 R315 to R324
  | axRegW (d : Byte)
  | v2Prg0W (d : Byte)
  | v2MirrorW (d : Byte)
  | v2Prg1W (d : Byte)
  | v2IrqLatchLoW (d : Byte)
  | v2IrqLatchHiW (d : Byte)
  | v2IrqCtrlW (d : Byte)
  | v2IrqAckW
  | v2ChrW (group : BitVec 4) (sub : BitVec 2) (d : Byte)
  | mapR (addr : CpuAddr)
  | mapW (addr : CpuAddr) (d : Byte)
  -- clock, 41 R200, 45 R330
  | ppuStep
  | mapperTick
  -- system, 70 R390, 46 R352, R353
  | reset
  | save
  | restore (bytes : List Byte)
  deriving DecidableEq, Repr

end Sys2Proof
end

