-- ==== Sys2Proof/WellFormed.lean ====
section
/-! DEFINITION. Which instructions a stimulus can spell: the operand ranges (`Instr.wf`), and the contexts in which a
row of the table applies (`Instr.applies`, spec/30 R152, R154). -/

namespace Sys2Proof

/-- The operand ranges. A character register write has its group in 0xB to 0xE (30 R143, 45 R318); `MAP_R` is at 0x4020
and above, `MAP_W` from 0x4020 to 0x7FFF, since every write above selects a mapper register (40 R183, 30 R125); an OAM
DMA has at most 256 answers (40 R180). -/
def Instr.wf : Instr → Bool
  | .v2ChrW group _ _ => 0xB ≤ group.toNat && group.toNat ≤ 0xE
  | .mapR addr => 0x4020 ≤ addr.toNat
  | .mapW addr _ => 0x4020 ≤ addr.toNat && addr.toNat < 0x8000
  | .oamdmaW _ _ bus => bus.length ≤ 256
  | .ppuctrlW _ | .ppuctrlR | .ppumaskW _ | .ppumaskR | .ppustatusR | .ppustatusW _ | .oamaddrW _ | .oamaddrR
  | .oamdataR | .oamdataW _ | .ppuscrollW1 _ | .ppuscrollW2 _ | .ppuscrollR | .ppuaddrW1 _ | .ppuaddrW2 _ | .ppuaddrR
  | .ppudataR | .ppudataW _ | .notClaimed | .axRegW _ | .v2Prg0W _ | .v2MirrorW _ | .v2Prg1W _ | .v2IrqLatchLoW _
  | .v2IrqLatchHiW _ | .v2IrqCtrlW _ | .v2IrqAckW | .ppuStep | .mapperTick | .reset | .save | .restore _ => true

/-- The context a row asks for: the variant its `format` names and the value of `w` its `when` names (30 R152, R154).
Rows that name neither apply in every context. -/
def Instr.applies (c : DecodeCtx) : Instr → Bool
  | .axRegW _ => c.variant == .axrom
  | .v2Prg0W _ | .v2MirrorW _ | .v2Prg1W _ | .v2IrqLatchLoW _ | .v2IrqLatchHiW _ | .v2IrqCtrlW _ | .v2IrqAckW
  | .v2ChrW _ _ _ => c.variant != .axrom
  | .ppuscrollW1 _ | .ppuaddrW1 _ => !c.w
  | .ppuscrollW2 _ | .ppuaddrW2 _ => c.w
  | .ppuctrlW _ | .ppuctrlR | .ppumaskW _ | .ppumaskR | .ppustatusR | .ppustatusW _ | .oamaddrW _ | .oamaddrR
  | .oamdataR | .oamdataW _ | .ppuscrollR | .ppuaddrR | .ppudataR | .ppudataW _ | .oamdmaW _ _ _ | .notClaimed
  | .mapR _ | .mapW _ _ | .ppuStep | .mapperTick | .reset | .save | .restore _ => true

end Sys2Proof
end

