-- ==== Sys2Proof/Decode.lean ====
section
/-! DEFINITION. The decoder of the stimulus word (spec/30 R120 to R125, R143, R144, R152, R154), total and rejecting by
name, and after it the encoder. -/

namespace Sys2Proof

/-- Why a word spells no stimulus (30 R124). -/
inductive InvalidWord where
  /-- kind = 3. -/
  | reservedKind
  /-- CLK with a non-zero bit in S[25:1]. -/
  | clkBits
  /-- SYS with a non-zero bit in S[25:2]. -/
  | sysBits
  /-- SYS with S[1:0] = 3. -/
  | sysCode
  deriving DecidableEq, Repr

/-- The fields of a BUS word (30 R121). -/
structure BusFields where
  odd : Bool
  rw : Bool
  addr : CpuAddr
  data : Byte
  deriving DecidableEq, Repr

/-- `S[27:26]` (30 R120). -/
def wordKind (S : BitVec 28) : BitVec 2 := S.extractLsb' 26 2

/-- `S[25:0]`: what stands below the kind. -/
def wordBody (S : BitVec 28) : BitVec 26 := S.extractLsb' 0 26

/-- The fields of a BUS word's body (30 R120, R121). -/
def busFields (body : BitVec 26) : BusFields where
  odd := body.getLsbD 25
  rw := body.getLsbD 24
  addr := body.extractLsb' 8 16
  data := body.extractLsb' 0 8

/-- The raw sub-register of a VRC2 write address (30 R144): `addr[1:0]`, or the larger of the two pairs. -/
def vrc2Raw (mode : Vrc2AddrMode) (addr : CpuAddr) : BitVec 2 :=
  match mode with
  | .fixedF003 => addr.extractLsb' 0 2
  | .heuristicF00F =>
    if (addr.extractLsb' 0 2).toNat < (addr.extractLsb' 2 2).toNat then addr.extractLsb' 2 2 else addr.extractLsb' 0 2

/-- The two bits swapped: `raw[0] ++ raw[1]` (30 R144). -/
def swap2 (raw : BitVec 2) : BitVec 2 := raw.extractLsb' 0 1 ++ raw.extractLsb' 1 1

/-- `Sub(addr)` (30 R144): revision A swaps the two bits of `raw`. -/
def vrc2Sub (mode : Vrc2AddrMode) (rev : Revision) (addr : CpuAddr) : BitVec 2 :=
  match rev with
  | .a => swap2 (vrc2Raw mode addr)
  | .b => vrc2Raw mode addr

/-- A read of the register `addr[2:0]` (20 R83, 40 R160). -/
def decodeRegRead (reg : BitVec 3) : Instr :=
  match reg.toNat with
  | 0 => .ppuctrlR
  | 1 => .ppumaskR
  | 2 => .ppustatusR
  | 3 => .oamaddrR
  | 4 => .oamdataR
  | 5 => .ppuscrollR
  | 6 => .ppuaddrR
  | _ => .ppudataR

/-- A write of the register `addr[2:0]`; `w` selects the first or second meaning of Scroll and Address (30 R152). -/
def decodeRegWrite (w : Bool) (reg : BitVec 3) (d : Byte) : Instr :=
  match reg.toNat with
  | 0 => .ppuctrlW d
  | 1 => .ppumaskW d
  | 2 => .ppustatusW d
  | 3 => .oamaddrW d
  | 4 => .oamdataW d
  | 5 => if w then .ppuscrollW2 d else .ppuscrollW1 d
  | 6 => if w then .ppuaddrW2 d else .ppuaddrW1 d
  | _ => .ppudataW d

/-- A write at or above 0x8000 on VRC2: the register of `group = addr[15:12]` and `sub` (30 R143). -/
def decodeVrc2Write (group : BitVec 4) (sub : BitVec 2) (d : Byte) : Instr :=
  if group = 0x8 then .v2Prg0W d
  else if group = 0x9 then .v2MirrorW d
  else if group = 0xA then .v2Prg1W d
  else if group = 0xF then
    match sub.toNat with
    | 0 => .v2IrqLatchLoW d
    | 1 => .v2IrqLatchHiW d
    | 2 => .v2IrqCtrlW d
    | _ => .v2IrqAckW
  else .v2ChrW group sub d

/-- A write at or above 0x8000: a mapper register (30 R125 order 7, R142, R143). -/
def decodeMapperWrite (c : DecodeCtx) (addr : CpuAddr) (d : Byte) : Instr :=
  match c.variant with
  | .axrom => .axRegW d
  | .vrc2a => decodeVrc2Write (addr.extractLsb' 12 4) (vrc2Sub c.addrMode .a addr) d
  | .vrc2b => decodeVrc2Write (addr.extractLsb' 12 4) (vrc2Sub c.addrMode .b addr) d

/-- A BUS stimulus, in the order of the table of 30 R125. -/
def decodeBus (c : DecodeCtx) (b : BusFields) (bytes : List Byte) : Instr :=
  if b.addr.extractLsb' 13 3 = 1 then
    if b.rw then decodeRegWrite c.w (b.addr.extractLsb' 0 3) b.data else decodeRegRead (b.addr.extractLsb' 0 3)
  else if b.rw && b.addr == 0x4014 then .oamdmaW b.data b.odd (bytes.take 256)
  else if b.addr.extractLsb' 5 11 = 0x200 then .notClaimed
  else if b.addr.extractLsb' 13 3 = 0 then .notClaimed
  else if b.rw then
    if b.addr.getLsbD 15 then decodeMapperWrite c b.addr b.data else .mapW b.addr b.data
  else .mapR b.addr

/-- A CLK stimulus (30 R122). -/
def decodeClk (body : BitVec 26) : Except InvalidWord Instr :=
  if body.extractLsb' 1 25 ≠ 0 then .error .clkBits
  else if body.getLsbD 0 then .ok .mapperTick
  else .ok .ppuStep

/-- A SYS stimulus (30 R123). -/
def decodeSys (body : BitVec 26) (bytes : List Byte) : Except InvalidWord Instr :=
  if body.extractLsb' 2 24 ≠ 0 then .error .sysBits
  else
    match (body.extractLsb' 0 2).toNat with
    | 0 => .ok .reset
    | 1 => .ok .save
    | 2 => .ok (.restore bytes)
    | _ => .error .sysCode

/-- The decoder. Bytes beside a word that carries none are ignored (log 19). -/
def decode (c : DecodeCtx) (st : Stimulus) : Except InvalidWord Instr :=
  match (wordKind st.word).toNat with
  | 0 => .ok (decodeBus c (busFields (wordBody st.word)) st.bytes)
  | 1 => decodeClk (wordBody st.word)
  | 2 => decodeSys (wordBody st.word) st.bytes
  | _ => .error .reservedKind

/-! ### The encoder -/

/-- A BUS word from its fields (30 R120, R121). -/
def busWord (b : BusFields) : BitVec 28 :=
  ((BitVec.ofBool b.odd).setWidth 28 <<< 25) ||| ((BitVec.ofBool b.rw).setWidth 28 <<< 24) |||
    (b.addr.setWidth 28 <<< 8) ||| b.data.setWidth 28

/-- `CPU_READ(addr)`, the don't-care bits zero (30 R121). -/
def readWord (addr : CpuAddr) : BitVec 28 := busWord { odd := false, rw := false, addr := addr, data := 0 }

/-- `CPU_WRITE(addr, d, odd = 0)` (30 R121). -/
def writeWord (addr : CpuAddr) (d : Byte) : BitVec 28 := busWord { odd := false, rw := true, addr := addr, data := d }

/-- A VRC2 register's address from its group and sub-register: the low two bits are `sub`, swapped for revision A, and
`addr[3:2]` is 0, so that both modes of 30 R144 read the same. -/
def vrc2Addr (c : DecodeCtx) (group : BitVec 4) (sub : BitVec 2) : CpuAddr :=
  (group.setWidth 16 <<< 12) ||| (match c.variant with | .vrc2a => swap2 sub | _ => sub).setWidth 16

/-- The word of an instruction. -/
def encodeWord (c : DecodeCtx) : Instr → BitVec 28
  | .ppuctrlW d => writeWord 0x2000 d
  | .ppuctrlR => readWord 0x2000
  | .ppumaskW d => writeWord 0x2001 d
  | .ppumaskR => readWord 0x2001
  | .ppustatusR => readWord 0x2002
  | .ppustatusW d => writeWord 0x2002 d
  | .oamaddrW d => writeWord 0x2003 d
  | .oamaddrR => readWord 0x2003
  | .oamdataR => readWord 0x2004
  | .oamdataW d => writeWord 0x2004 d
  | .ppuscrollW1 d => writeWord 0x2005 d
  | .ppuscrollW2 d => writeWord 0x2005 d
  | .ppuscrollR => readWord 0x2005
  | .ppuaddrW1 d => writeWord 0x2006 d
  | .ppuaddrW2 d => writeWord 0x2006 d
  | .ppuaddrR => readWord 0x2006
  | .ppudataR => readWord 0x2007
  | .ppudataW d => writeWord 0x2007 d
  | .oamdmaW page odd _ => busWord { odd := odd, rw := true, addr := 0x4014, data := page }
  | .notClaimed => readWord 0x4000
  | .axRegW d => writeWord 0x8000 d
  | .v2Prg0W d => writeWord (vrc2Addr c 0x8 0) d
  | .v2MirrorW d => writeWord (vrc2Addr c 0x9 0) d
  | .v2Prg1W d => writeWord (vrc2Addr c 0xA 0) d
  | .v2IrqLatchLoW d => writeWord (vrc2Addr c 0xF 0) d
  | .v2IrqLatchHiW d => writeWord (vrc2Addr c 0xF 1) d
  | .v2IrqCtrlW d => writeWord (vrc2Addr c 0xF 2) d
  | .v2IrqAckW => writeWord (vrc2Addr c 0xF 3) 0
  | .v2ChrW group sub d => writeWord (vrc2Addr c group sub) d
  | .mapR addr => readWord addr
  | .mapW addr d => writeWord addr d
  | .ppuStep => 0x4000000
  | .mapperTick => 0x4000001
  | .reset => 0x8000000
  | .save => 0x8000001
  | .restore _ => 0x8000002

/-- The bytes an instruction carries beside its word. -/
def encodeBytes : Instr → List Byte
  | .oamdmaW _ _ bus => bus
  | .restore bytes => bytes
  | .ppuctrlW _ | .ppuctrlR | .ppumaskW _ | .ppumaskR | .ppustatusR | .ppustatusW _ | .oamaddrW _ | .oamaddrR
  | .oamdataR | .oamdataW _ | .ppuscrollW1 _ | .ppuscrollW2 _ | .ppuscrollR | .ppuaddrW1 _ | .ppuaddrW2 _ | .ppuaddrR
  | .ppudataR | .ppudataW _ | .notClaimed | .axRegW _ | .v2Prg0W _ | .v2MirrorW _ | .v2Prg1W _ | .v2IrqLatchLoW _
  | .v2IrqLatchHiW _ | .v2IrqCtrlW _ | .v2IrqAckW | .v2ChrW _ _ _ | .mapR _ | .mapW _ _ | .ppuStep | .mapperTick
  | .reset | .save => []

/-- The stimulus that spells an instruction in the context `c`. -/
def encode (c : DecodeCtx) (i : Instr) : Stimulus where
  word := encodeWord c i
  bytes := encodeBytes i

/-! ### The table of the spec, and the host's entry to the decoder -/

/-- A row of spec/opcode_table.json as the decoder's table reads it (30 R154): the mnemonic, the variants and the value
of `w` it applies to, and its match and mask. -/
structure TableRow where
  mnemonic : String
  variants : List Variant
  whenW : List Bool
  value : BitVec 28
  mask : BitVec 28
  deriving DecidableEq, Repr

/-- The 39 rows of spec/opcode_table.json in their order, written from the file (for VRC2_ADDR_MODE = fixed_F003). -/
def opcodeTable : List TableRow :=
  let all := [Variant.axrom, .vrc2a, .vrc2b]
  let v2 := [Variant.vrc2a, .vrc2b]
  let any := [false, true]
  [⟨"PPUCTRL_W", all, any, 0x1200000, 0xDE00700⟩, ⟨"PPUCTRL_R", all, any, 0x0200000, 0xDE00700⟩,
   ⟨"PPUMASK_W", all, any, 0x1200100, 0xDE00700⟩, ⟨"PPUMASK_R", all, any, 0x0200100, 0xDE00700⟩,
   ⟨"PPUSTATUS_R", all, any, 0x0200200, 0xDE00700⟩, ⟨"PPUSTATUS_W", all, any, 0x1200200, 0xDE00700⟩,
   ⟨"OAMADDR_W", all, any, 0x1200300, 0xDE00700⟩, ⟨"OAMADDR_R", all, any, 0x0200300, 0xDE00700⟩,
   ⟨"OAMDATA_R", all, any, 0x0200400, 0xDE00700⟩, ⟨"OAMDATA_W", all, any, 0x1200400, 0xDE00700⟩] ++
  [⟨"PPUSCROLL_W1", all, [false], 0x1200500, 0xDE00700⟩, ⟨"PPUSCROLL_W2", all, [true], 0x1200500, 0xDE00700⟩,
   ⟨"PPUSCROLL_R", all, any, 0x0200500, 0xDE00700⟩,
   ⟨"PPUADDR_W1", all, [false], 0x1200600, 0xDE00700⟩, ⟨"PPUADDR_W2", all, [true], 0x1200600, 0xDE00700⟩,
   ⟨"PPUADDR_R", all, any, 0x0200600, 0xDE00700⟩,
   ⟨"PPUDATA_R", all, any, 0x0200700, 0xDE00700⟩, ⟨"PPUDATA_W", all, any, 0x1200700, 0xDE00700⟩,
   ⟨"OAMDMA_W", all, any, 0x1401400, 0xDFFFF00⟩,
   ⟨"NOT_CLAIMED", all, any, 0x0400000, 0xCFFE000⟩, ⟨"NOT_CLAIMED", all, any, 0x0000000, 0xCE00000⟩] ++
  [⟨"AX_REG_W", [.axrom], any, 0x1800000, 0xD800000⟩,
   ⟨"V2_PRG0_W", v2, any, 0x1800000, 0xDF00000⟩, ⟨"V2_MIRROR_W", v2, any, 0x1900000, 0xDF00000⟩,
   ⟨"V2_PRG1_W", v2, any, 0x1A00000, 0xDF00000⟩, ⟨"V2_IRQ_LATCH_LO_W", v2, any, 0x1F00000, 0xDF00300⟩,
   ⟨"V2_IRQ_LATCH_HI_W", [.vrc2b], any, 0x1F00100, 0xDF00300⟩,
   ⟨"V2_IRQ_LATCH_HI_W", [.vrc2a], any, 0x1F00200, 0xDF00300⟩,
   ⟨"V2_IRQ_CTRL_W", [.vrc2b], any, 0x1F00200, 0xDF00300⟩, ⟨"V2_IRQ_CTRL_W", [.vrc2a], any, 0x1F00100, 0xDF00300⟩,
   ⟨"V2_IRQ_ACK_W", v2, any, 0x1F00300, 0xDF00300⟩, ⟨"V2_CHR_W", v2, any, 0x1800000, 0xD800000⟩] ++
  [⟨"MAP_R", all, any, 0x0000000, 0xD000000⟩, ⟨"MAP_W", all, any, 0x1000000, 0xD000000⟩,
   ⟨"PPU_STEP", all, any, 0x4000000, 0xFFFFFFF⟩, ⟨"MAPPER_TICK", all, any, 0x4000001, 0xFFFFFFF⟩,
   ⟨"RESET", all, any, 0x8000000, 0xFFFFFFF⟩, ⟨"SAVE", all, any, 0x8000001, 0xFFFFFFF⟩,
   ⟨"RESTORE", all, any, 0x8000002, 0xFFFFFFF⟩]

/-- The mnemonic of the first row that applies and matches (30 R125, R154). -/
def tableLookup (c : DecodeCtx) (S : BitVec 28) : Option String :=
  (opcodeTable.find? fun r => c.variant ∈ r.variants && c.w ∈ r.whenW && (S &&& r.mask == r.value)).map (·.mnemonic)

/-- The mnemonic of an instruction in spec/opcode_table.json. -/
def Instr.mnemonic : Instr → String
  | .ppuctrlW _ => "PPUCTRL_W"
  | .ppuctrlR => "PPUCTRL_R"
  | .ppumaskW _ => "PPUMASK_W"
  | .ppumaskR => "PPUMASK_R"
  | .ppustatusR => "PPUSTATUS_R"
  | .ppustatusW _ => "PPUSTATUS_W"
  | .oamaddrW _ => "OAMADDR_W"
  | .oamaddrR => "OAMADDR_R"
  | .oamdataR => "OAMDATA_R"
  | .oamdataW _ => "OAMDATA_W"
  | .ppuscrollW1 _ => "PPUSCROLL_W1"
  | .ppuscrollW2 _ => "PPUSCROLL_W2"
  | .ppuscrollR => "PPUSCROLL_R"
  | .ppuaddrW1 _ => "PPUADDR_W1"
  | .ppuaddrW2 _ => "PPUADDR_W2"
  | .ppuaddrR => "PPUADDR_R"
  | .ppudataR => "PPUDATA_R"
  | .ppudataW _ => "PPUDATA_W"
  | .oamdmaW _ _ _ => "OAMDMA_W"
  | .notClaimed => "NOT_CLAIMED"
  | .axRegW _ => "AX_REG_W"
  | .v2Prg0W _ => "V2_PRG0_W"
  | .v2MirrorW _ => "V2_MIRROR_W"
  | .v2Prg1W _ => "V2_PRG1_W"
  | .v2IrqLatchLoW _ => "V2_IRQ_LATCH_LO_W"
  | .v2IrqLatchHiW _ => "V2_IRQ_LATCH_HI_W"
  | .v2IrqCtrlW _ => "V2_IRQ_CTRL_W"
  | .v2IrqAckW => "V2_IRQ_ACK_W"
  | .v2ChrW _ _ _ => "V2_CHR_W"
  | .mapR _ => "MAP_R"
  | .mapW _ _ => "MAP_W"
  | .ppuStep => "PPU_STEP"
  | .mapperTick => "MAPPER_TICK"
  | .reset => "RESET"
  | .save => "SAVE"
  | .restore _ => "RESTORE"

/-- The context of State.reset: its variant, its address mode, `w = 0` (log 4, log 21). -/
def resetCtx : DecodeCtx := { variant := Config.variant, addrMode := Config.params.vrc2AddrMode, w := false }

/-- The 28-bit word of an instruction whose bits are `n`, bit 0 the least significant; the word is one unit, so there is
no byte order to choose. A number with a bit above bit 27 is no stimulus word: it is given to the decoder as a word of
the reserved kind. -/
def tableWord (nbits n : Nat) : BitVec 28 :=
  if n % 2 ^ nbits < 2 ^ 28 then BitVec.ofNat 28 (n % 2 ^ nbits) else 0xC000000

/-- The instruction the decoder reads from a word of the table, in the context of State.reset, with no bytes beside it. -/
def decodeTableWord (nbits w : Nat) : Option Instr :=
  match decode resetCtx { word := tableWord nbits w, bytes := [] } with
  | .ok i => some i
  | .error _ => none

end Sys2Proof
end

