-- ==== Sys2Proof/Machine/State.lean ====
section
/-! DEFINITION. The state of the block (spec/10 R20 to R51) in the components of spec/00 R2, the parameters beside it, the
interface of spec/00 R7 and R8 as plain data, the reasons a step stops, and the state after reset. -/

namespace Sys2Proof.Machine

/-- Mirror modes, in the order of 30 R147 (10 R43). -/
inductive MirrorMode where
  | horizontal | vertical | single0 | single1 | fourScreen
  deriving DecidableEq, Repr

/-- The decoded Control fields (10 R27 to R30). -/
structure Control where
  ntSelect : BitVec 2
  incMode : Bool
  sprTable : Bool
  bgTable : Bool
  sprSize : Bool
  masterSlave : Bool
  nmiOutput : Bool
  deriving DecidableEq, Repr

/-- The decoded Mask fields (10 R31). -/
structure Mask where
  grayscale : Bool
  showLeftBg : Bool
  showLeftSpr : Bool
  showBg : Bool
  showSpr : Bool
  emphR : Bool
  emphG : Bool
  emphB : Bool
  deriving DecidableEq, Repr

/-- One entry of the per-scanline sprite buffers (10 R42). -/
structure SpriteEntry where
  /-- 8 pixels of 4 bits, most significant nibble leftmost. -/
  pattern : BitVec 32
  x : Byte
  /-- The priority bit: true is behind the background (42 R253). -/
  prio : Bool
  /-- The original OAM entry number. -/
  index : BitVec 6
  deriving DecidableEq, Repr

/-- PictureProcessor: 10 R20 to R42. -/
structure Ppu where
  scanline : BitVec 9
  cycle : BitVec 9
  f : Bool
  v : VramAddr
  t : VramAddr
  x : BitVec 3
  w : Bool
  latch : Byte
  readBuffer : Byte
  ctrl : Control
  mask : Mask
  nmiOccurred : Bool
  spr0Hit : Bool
  sprOverflow : Bool
  nmiPrevious : Bool
  nmiDelay : BitVec 8
  oamAddr : Byte
  oam : Memory
  pal : Memory
  nt : Memory
  ntByte : Byte
  atBits : BitVec 4
  patLo : Byte
  patHi : Byte
  tileData : BitVec 64
  sprCount : BitVec 4
  sprites : Vector SpriteEntry 8
  deriving DecidableEq, Repr

/-- The registers of VRC2a and VRC2b (10 R45, R46). -/
structure Vrc2Regs where
  prgBank0 : BitVec 5
  prgBank1 : BitVec 5
  chrReg : Vector Byte 8
  irqReload : Byte
  irqCounter : Byte
  irqPrescaler : BitVec 9
  irqDiv3 : BitVec 2
  irqEnable : Bool
  irqEnableOnAck : Bool
  irqCycleMode : Bool
  irqTriggered : Bool
  deriving DecidableEq, Repr

/-- The registers of the block's mapper variant: exactly those of the variant the block is built with (10, its opening;
R43 to R47). The constructor is the parameter MAPPER (log 3). -/
inductive MapperRegs where
  | axrom (prgBank : BitVec 3)
  | vrc2 (rev : Revision) (regs : Vrc2Regs)
  deriving DecidableEq, Repr

/-- Mapper: 10 R43 to R47. -/
structure Mapper where
  mirror : MirrorMode
  regs : MapperRegs
  deriving DecidableEq, Repr

/-- Cartridge, its mutable part: 10 R48. `chrRam` is empty when CHR_IS_RAM is false. -/
structure Cart where
  sram : Memory
  chrRam : Memory
  deriving DecidableEq, Repr

/-- The hooks `NotSupported` can name (60 R373). -/
inductive Hook where
  | stall | restore
  deriving DecidableEq, Repr

/-- The conditions of 60 R370. A complete model never raises `notSupported` (60 R373), and `toleratedWrite` is reported
by the `Log` event and by nothing else (60 R372), so only the first and the last are ever found in a state. -/
inductive Condition where
  | contractViolation (name : String) (addr : Nat)
  | toleratedWrite (name : String) (addr : CpuAddr) (data : Byte)
  | notSupported (hook : Hook)
  | malformedSnapshot
  deriving DecidableEq, Repr

/-- The output events (00 R8). -/
inductive Event where
  | pixelWrite (x y : Byte) (idx : BitVec 5) (colour : BitVec 6)
  | framePresent
  | nmiRaise
  | irqTrigger
  | irqCancel
  | bankSwitch (lo hi : CpuAddr)
  | stallRequest (n : Nat)
  | log (name : String) (addr : CpuAddr) (data : Byte)
  | snapshot (bytes : List Byte)
  deriving DecidableEq, Repr

/-- The interface of `step : State × Stimulus × Oracle → State × List Output × Option Byte × Option Condition` (00 R7)
as plain data. These are the model's own fields (logs 1, 2, 8); no rule of the block reads them. -/
structure Io where
  /-- The stimuli still to be delivered, oldest first. -/
  stimuli : List Stimulus
  /-- The output list `emit` appends to (00 R8, R11). -/
  outputs : List Event
  /-- The byte the last stimulus returned, if it returned one. -/
  result : Option Byte
  /-- The condition the last stimulus raised, if it raised one. -/
  condition : Option Condition
  /-- How many reads of OAM DMA no delivered answer has met, the index of the next free value. -/
  busReads : Nat
  deriving DecidableEq, Repr

/-- The state: the three components, the fatal mark (10 R50), the parameters of the block (00 R6) and the interface. -/
structure State where
  params : Params
  ppu : Ppu
  mapper : Mapper
  cart : Cart
  fatal : Option (String × Nat)
  io : Io
  deriving DecidableEq, Repr

/-- Why the machine stops with a fault. -/
inductive Fault where
  /-- Answered by `step` for every stimulus delivered to a block whose `fatal` is set: "every later stimulus is refused
  with the same condition" (60 R371, 10 R50). As the spec says, so safe; no stimulus of the spec sets `fatal`. -/
  | contractViolation (name : String) (addr : Nat)
  deriving DecidableEq, Repr

/-- Why a stimulus has no meaning. -/
inductive Refusal where
  /-- Raised by `exec` for an instruction that has no meaning yet; safe. -/
  | notModelled (mnemonic : String)
  /-- Raised by `step` for a word the decoder rejects (30 R124, 60 R376); safe. -/
  | invalidWord (why : InvalidWord)
  /-- Raised by the meanings of the mapper registers when the block's mapper is another variant, which has no such
  register (30 R154). `step` never raises it, since the decoder reads the variant; safe (log 13). -/
  | absentRegister (mnemonic : String)
  deriving DecidableEq, Repr

/-- Control after a write of 0 (10 R27). -/
def Control.zero : Control where
  ntSelect := 0
  incMode := false
  sprTable := false
  bgTable := false
  sprSize := false
  masterSlave := false
  nmiOutput := false

/-- Mask with all fields 0 (10 R31). -/
def Mask.zero : Mask where
  grayscale := false
  showLeftBg := false
  showLeftSpr := false
  showBg := false
  showSpr := false
  emphR := false
  emphG := false
  emphB := false

/-- A sprite buffer entry with all fields 0 (10 R42). -/
def SpriteEntry.zero : SpriteEntry where
  pattern := 0
  x := 0
  prio := false
  index := 0

/-- The PictureProcessor after reset (10 R52). -/
def Ppu.reset (p : Params) : Ppu where
  scanline := 240
  cycle := 340
  f := false
  v := 0
  t := 0
  x := 0
  w := false
  latch := 0
  readBuffer := 0
  ctrl := Control.zero
  mask := Mask.zero
  nmiOccurred := false
  spr0Hit := false
  sprOverflow := false
  nmiPrevious := false
  nmiDelay := 0
  oamAddr := 0
  oam := p.oamInit
  pal := p.palInit
  nt := p.ntInit
  ntByte := 0
  atBits := 0
  patLo := 0
  patHi := 0
  tileData := 0
  sprCount := 0
  sprites := Vector.replicate 8 SpriteEntry.zero

/-- The VRC2 registers after reset (10 R52). -/
def Vrc2Regs.zero : Vrc2Regs where
  prgBank0 := 0
  prgBank1 := 0
  chrReg := Vector.replicate 8 0
  irqReload := 0
  irqCounter := 0
  irqPrescaler := 0
  irqDiv3 := 0
  irqEnable := false
  irqEnableOnAck := false
  irqCycleMode := false
  irqTriggered := false

/-- The mapper after reset: AxROM bank 0 and Single0, VRC2 all zero and Vertical (10 R43, R52). -/
def Mapper.reset : Variant → Mapper
  | .axrom => { mirror := .single0, regs := .axrom 0 }
  | .vrc2a => { mirror := .vertical, regs := .vrc2 .a Vrc2Regs.zero }
  | .vrc2b => { mirror := .vertical, regs := .vrc2 .b Vrc2Regs.zero }

/-- The interface of a block to which nothing has been delivered (logs 1, 2, 8). -/
def Io.empty : Io where
  stimuli := []
  outputs := []
  result := none
  condition := none
  busReads := 0

/-- Construction (70 R391): RESET of a state whose character RAM is a copy of CHR, whose save RAM is SRAM_INIT and whose
`fatal` is none. Whether the cartridge is well formed is asked by `State.construct?` (Machine/System.lean). -/
def State.powerOn (m : Variant) (p : Params) : State where
  params := p
  ppu := Ppu.reset p
  mapper := Mapper.reset m
  cart := { sram := p.sramInit, chrRam := if p.chrIsRam then p.chr else [] }
  fatal := none
  io := Io.empty

/-- The machine right after power-on and reset (10 R52, 70 R390, R391), for the variant and parameters of Config
(log 4). No stimulus is waiting: a program of stimuli is delivered from outside (log 1). -/
def State.reset : State := State.powerOn Config.variant Config.params

end Sys2Proof.Machine
end

