-- ==== Sys2Proof/Machine/Operands.lean ====
section
/-! DEFINITION. The layouts of the bytes written and read, and of the internal formats (spec/30 R126 to R147, spec/42
R237, spec/43 R276): what the fields of an operand are. -/

namespace Sys2Proof.Machine

/-- One bit of a byte, at position `n`. -/
def bitAt (n : Nat) (b : Bool) : Byte := (BitVec.ofBool b).setWidth 8 <<< n

/-- The Control byte (30 R126). -/
def Control.ofByte (d : Byte) : Control where
  ntSelect := d.extractLsb' 0 2
  incMode := d.getLsbD 2
  sprTable := d.getLsbD 3
  bgTable := d.getLsbD 4
  sprSize := d.getLsbD 5
  masterSlave := d.getLsbD 6
  nmiOutput := d.getLsbD 7

/-- Control packed as 30 R126, as a snapshot holds it (46 R351, field 12). -/
def Control.toByte (c : Control) : Byte :=
  bitAt 7 c.nmiOutput ||| bitAt 6 c.masterSlave ||| bitAt 5 c.sprSize ||| bitAt 4 c.bgTable ||| bitAt 3 c.sprTable |||
    bitAt 2 c.incMode ||| c.ntSelect.setWidth 8

/-- The Mask byte (30 R127). -/
def Mask.ofByte (d : Byte) : Mask where
  grayscale := d.getLsbD 0
  showLeftBg := d.getLsbD 1
  showLeftSpr := d.getLsbD 2
  showBg := d.getLsbD 3
  showSpr := d.getLsbD 4
  emphR := d.getLsbD 5
  emphG := d.getLsbD 6
  emphB := d.getLsbD 7

/-- Mask packed as 30 R127, as a snapshot holds it (46 R351, field 13). -/
def Mask.toByte (m : Mask) : Byte :=
  bitAt 7 m.emphB ||| bitAt 6 m.emphG ||| bitAt 5 m.emphR ||| bitAt 4 m.showSpr ||| bitAt 3 m.showBg |||
    bitAt 2 m.showLeftSpr ||| bitAt 1 m.showLeftBg ||| bitAt 0 m.grayscale

/-- The Status byte (30 R128): the three flags over `latch[4:0]`. -/
def statusByte (p : Ppu) : Byte :=
  bitAt 7 p.nmiOccurred ||| bitAt 6 p.spr0Hit ||| bitAt 5 p.sprOverflow ||| (p.latch.extractLsb' 0 5).setWidth 8

/-- `t` after a Control write (40 R162). -/
def tAfterControl (t : VramAddr) (d : Byte) : VramAddr :=
  (t &&& 0x73FF) ||| ((d.extractLsb' 0 2).setWidth 15 <<< 10)

/-- `t` after a first Scroll write (40 R169). -/
def tAfterScroll1 (t : VramAddr) (d : Byte) : VramAddr :=
  (t &&& 0x7FE0) ||| (d.extractLsb' 3 5).setWidth 15

/-- `t` after a second Scroll write (40 R170). -/
def tAfterScroll2 (t : VramAddr) (d : Byte) : VramAddr :=
  (t &&& 0x0C1F) ||| ((d.extractLsb' 0 3).setWidth 15 <<< 12) ||| ((d.extractLsb' 3 5).setWidth 15 <<< 5)

/-- `t` after a first Address write (40 R172). -/
def tAfterAddr1 (t : VramAddr) (d : Byte) : VramAddr :=
  (t &&& 0x00FF) ||| ((d.extractLsb' 0 6).setWidth 15 <<< 8)

/-- `t` after a second Address write (40 R173). -/
def tAfterAddr2 (t : VramAddr) (d : Byte) : VramAddr :=
  (t &&& 0x7F00) ||| d.setWidth 15

/-- The address of the nametable fetch (42 R233). -/
def ntFetchAddr (v : VramAddr) : PpuAddr := 0x2000 ||| (v.extractLsb' 0 12).setWidth 14

/-- The address of the attribute fetch (42 R234). -/
def atFetchAddr (v : VramAddr) : PpuAddr :=
  (0x23C0 ||| (v &&& 0x0C00) ||| ((v >>> 4) &&& 0x38) ||| ((v >>> 2) &&& 0x07)).setWidth 14

/-- The shift of the attribute multiplex (42 R234, 30 R139): 0, 2, 4 or 6. -/
def atShift (v : VramAddr) : Nat := (((v >>> 4) &&& 4) ||| (v &&& 2)).toNat

/-- The selected two attribute bits at bits 3:2 (42 R234). -/
def atSelect (v : VramAddr) (b : Byte) : BitVec 4 := ((b >>> atShift v) &&& 3).setWidth 4 <<< 2

/-- A row of a pattern-table tile, its low plane (30 R137): `table * 0x1000 + tile * 16 + row`. -/
def patternAddr (table : Bool) (tile : Byte) (row : Nat) : PpuAddr :=
  BitVec.ofNat 14 (table.toNat * 0x1000 + tile.toNat * 16 + row)

/-- One pixel of a pattern row: two palette bits over the high and the low plane's bit (30 R136). `attr` has the palette
at bits 3:2; bit `b` of the planes is the pixel's. -/
def pixelNibble (attr : BitVec 4) (hi lo : Byte) (b : Nat) : BitVec 4 :=
  attr ||| (BitVec.ofBool (hi.getLsbD b) ++ BitVec.ofBool (lo.getLsbD b)).setWidth 4

/-- The 8 pixels of a pattern row, pixel 0 (leftmost) in bits 31:28 (42 R237, 43 R276): pixel k reads bit `7 - k` of the
planes, or bit k with horizontal flip. -/
def pixelRow (attr : BitVec 4) (hi lo : Byte) (flip : Bool) : BitVec 32 :=
  let p := fun k : Nat => (pixelNibble attr hi lo (if flip then k else 7 - k)).setWidth 32 <<< (4 * (7 - k))
  p 0 ||| p 1 ||| p 2 ||| p 3 ||| p 4 ||| p 5 ||| p 6 ||| p 7

/-- A pixel is opaque when its value mod 4 is not 0 (30 R136). -/
def opaquePixel (p : BitVec 4) : Bool := p.extractLsb' 0 2 != 0

/-- The low nibble of a byte register replaced (45 R318, R321). -/
def setLowNibble (r d : Byte) : Byte := (r &&& 0xF0) ||| (d &&& 0x0F)

/-- The high nibble of a byte register replaced (45 R318, R322). -/
def setHighNibble (r d : Byte) : Byte := (r &&& 0x0F) ||| ((d &&& 0x0F) <<< 4)

/-- The number of a mirror mode in a snapshot (30 R147). -/
def MirrorMode.toByte : MirrorMode → Byte
  | .horizontal => 0
  | .vertical => 1
  | .single0 => 2
  | .single1 => 3
  | .fourScreen => 4

/-- The mirror mode of a number (30 R147, 46 R351 field 28). -/
def MirrorMode.ofByte? (b : Byte) : Option MirrorMode :=
  match b.toNat with
  | 0 => some .horizontal
  | 1 => some .vertical
  | 2 => some .single0
  | 3 => some .single1
  | 4 => some .fourScreen
  | _ => none

/-- The name of a variant (D37). -/
def variantName : Variant → String
  | .axrom => "AxROM"
  | .vrc2a => "VRC2a"
  | .vrc2b => "VRC2b"

/-- The variant a set of mapper registers belongs to (log 3). -/
def MapperRegs.variant : MapperRegs → Variant
  | .axrom _ => .axrom
  | .vrc2 .a _ => .vrc2a
  | .vrc2 .b _ => .vrc2b

/-- The parameter MAPPER of a block (log 3). -/
def State.variant (s : State) : Variant := s.mapper.regs.variant

/-- What the decoder reads of a state (30 R152). -/
def State.decodeCtx (s : State) : DecodeCtx where
  variant := s.variant
  addrMode := s.params.vrc2AddrMode
  w := s.ppu.w

end Sys2Proof.Machine
end

