-- ==== Sys2Proof/Machine/Ops.lean ====
section
/-! DEFINITION. The operations shared by the meanings: emitting events, returning a byte, raising a condition (spec/00 R11,
spec/60 R370 to R375), and the address spaces (spec/20 R86 to R100, spec/44 R291 to R295, spec/45 R311 to R318). -/

namespace Sys2Proof.Machine

open Host (Outcome)

/-! ### Outputs, results, conditions -/

/-- `emit E`: append an event to the output list (00 R11). -/
def State.emit (s : State) (e : Event) : State := { s with io := { s.io with outputs := s.io.outputs ++ [e] } }

/-- `if c then emit E`. -/
def State.emitIf (s : State) (c : Bool) (e : Event) : State := if c then s.emit e else s

/-- `return b`: the byte a `CPU_READ` returns (00 R11). -/
def State.returns (s : State) (b : Byte) : State := { s with io := { s.io with result := some b } }

/-- A read that returns no value (20 R82). -/
def State.returnsNone (s : State) : State := { s with io := { s.io with result := none } }

/-- `raise C`: the condition is the stimulus's (00 R11, 60 R370). This is the block's whole "exception entry": it saves
nothing, changes no mode and moves no control (60 R366, R370), and there is no return (60 R367). -/
def State.raise (s : State) (c : Condition) : State := { s with io := { s.io with condition := some c } }

/-- `ContractViolation(name, addr)`: `fatal` is set and the rest of the stimulus is not performed (60 R371). -/
def State.contractViolation (s : State) (addr : Nat) : State :=
  { (s.raise (.contractViolation (variantName s.variant) addr)) with fatal := some (variantName s.variant, addr) }

/-- The PictureProcessor replaced. -/
def State.setPpu (s : State) (p : Ppu) : State := { s with ppu := p }

/-- The mapper's registers replaced. -/
def State.setRegs (s : State) (r : MapperRegs) : State := { s with mapper := { s.mapper with regs := r } }

/-- The mirror mode replaced. -/
def State.setMirror (s : State) (m : MirrorMode) : State := { s with mapper := { s.mapper with mirror := m } }

/-- The save RAM replaced. -/
def State.setSram (s : State) (m : Memory) : State := { s with cart := { s.cart with sram := m } }

/-- The character RAM replaced. -/
def State.setChrRam (s : State) (m : Memory) : State := { s with cart := { s.cart with chrRam := m } }

/-- The action of a guarded line of the spec's pseudocode. -/
def whenDo (c : Bool) (f : State → State) (s : State) : State := if c then f s else s

/-! ### Bank arithmetic and the cartridge -/

/-- "bank index is always reduced modulo the cartridge's total bank count" (20 R99): the index of byte `offset` of bank
`r` of size `size` in an array of `len` bytes. -/
def bankIndex (len size r offset : Nat) : Nat := (r % (len / size)) * size + offset

/-- `PrgRead`'s index: one 32 KB window on AxROM (44 R294), four 8 KB windows on VRC2, the last two fixed (45 R313). -/
def prgIndex (s : State) (i : CpuAddr) : Nat :=
  match s.mapper.regs with
  | .axrom bank => bankIndex s.params.prgLen 0x8000 bank.toNat (i.toNat - 0x8000)
  | .vrc2 _ r =>
    let banks := s.params.prgLen / 0x2000
    let bank := match (i.extractLsb' 13 2).toNat with
      | 0 => r.prgBank0.toNat
      | 1 => r.prgBank1.toNat
      | 2 => banks - 2
      | _ => banks - 1
    bankIndex s.params.prgLen 0x2000 bank (i.extractLsb' 0 13).toNat

/-- `PrgRead(i)` (44 R294, 45 R313). -/
def prgRead (s : State) (i : CpuAddr) : Byte := Memory.read s.params.prg (prgIndex s i)

/-- The 1 KB character bank a register selects: revision A shifts it right by 1 (30 R145). -/
def chrBank (rev : Revision) (reg : Byte) : Nat :=
  match rev with
  | .a => (reg >>> 1).toNat
  | .b => reg.toNat

/-- The index of character data: unbanked on AxROM (44 R295), eight 1 KB regions on VRC2 (45 R314). -/
def chrIndex (s : State) (i : CpuAddr) : Nat :=
  match s.mapper.regs with
  | .axrom _ => i.toNat
  | .vrc2 rev r =>
    bankIndex s.params.chrLen 0x400 (chrBank rev (r.chrReg.get (i.extractLsb' 10 3).toFin)) (i.extractLsb' 0 10).toNat

/-- `Chr`: character RAM when CHR_IS_RAM, else the ROM (44 R295, 45 R314). -/
def chrData (s : State) : Memory := if s.params.chrIsRam then s.cart.chrRam else s.params.chr

/-- `ChrRead(i)` (44 R295, 45 R314). -/
def chrRead (s : State) (i : CpuAddr) : Byte := Memory.read (chrData s) (chrIndex s i)

/-- `ChrWrite(i, b)`: stored only in character RAM, else tolerated (44 R295, 45 R314, 60 R372). -/
def chrWrite (s : State) (i : CpuAddr) (b : Byte) : State :=
  if s.params.chrIsRam then s.setChrRam (Memory.write s.cart.chrRam (chrIndex s i) b)
  else s.emit (.log (variantName s.variant) i b)

/-- The index of the RAM window (20 R98). -/
def sramIndex (s : State) (i : CpuAddr) : Nat := (i.toNat - 0x6000) % s.params.sramLen

/-! ### Mapper register writes -/

/-- AxROM's one register (44 R293). -/
def axRegWrite (s : State) (bank : BitVec 3) (d : Byte) : State :=
  ((s.emitIf (d.extractLsb' 0 3 != bank) (.bankSwitch 0x8000 0xFFFF)).setRegs (.axrom (d.extractLsb' 0 3))).setMirror
    (if d.getLsbD 4 then .single1 else .single0)

/-- VRC2 program bank 0 (45 R315). -/
def v2Prg0Write (s : State) (rev : Revision) (r : Vrc2Regs) (d : Byte) : State :=
  (s.emitIf (d.extractLsb' 0 5 != r.prgBank0) (.bankSwitch 0x8000 0x9FFF)).setRegs
    (.vrc2 rev { r with prgBank0 := d.extractLsb' 0 5 })

/-- VRC2 mirroring (45 R316). -/
def v2MirrorWrite (s : State) (d : Byte) : State := s.setMirror (if d.getLsbD 0 then .horizontal else .vertical)

/-- VRC2 program bank 1 (45 R317). -/
def v2Prg1Write (s : State) (rev : Revision) (r : Vrc2Regs) (d : Byte) : State :=
  (s.emitIf (d.extractLsb' 0 5 != r.prgBank1) (.bankSwitch 0xA000 0xBFFF)).setRegs
    (.vrc2 rev { r with prgBank1 := d.extractLsb' 0 5 })

/-- The number k of the character register a group and sub-register select: `(group - 0xB) * 2 + sub[1]` (45 R318). -/
def chrRegNumber (group : BitVec 4) (sub : BitVec 2) : BitVec 3 := (group - 0xB).extractLsb' 0 2 ++ sub.extractLsb' 1 1

/-- A VRC2 character register's nibble: `sub[0]` selects the half (45 R318). -/
def v2ChrWrite (s : State) (rev : Revision) (r : Vrc2Regs) (group : BitVec 4) (sub : BitVec 2) (d : Byte) : State :=
  let k := (chrRegNumber group sub).toFin
  let new := if sub.getLsbD 0 then setHighNibble (r.chrReg.get k) d else setLowNibble (r.chrReg.get k) d
  s.setRegs (.vrc2 rev { r with chrReg := r.chrReg.set k new })

/-- The reload value's low nibble (45 R321). -/
def v2IrqLatchLoWrite (s : State) (rev : Revision) (r : Vrc2Regs) (d : Byte) : State :=
  s.setRegs (.vrc2 rev { r with irqReload := setLowNibble r.irqReload d })

/-- The reload value's high nibble (45 R322). -/
def v2IrqLatchHiWrite (s : State) (rev : Revision) (r : Vrc2Regs) (d : Byte) : State :=
  s.setRegs (.vrc2 rev { r with irqReload := setHighNibble r.irqReload d })

/-- IRQ control (45 R323, 30 R146): both dividers restart, and enabling reloads the counter. -/
def v2IrqCtrlWrite (s : State) (rev : Revision) (r : Vrc2Regs) (d : Byte) : State :=
  s.setRegs (.vrc2 rev { r with
    irqEnableOnAck := d.getLsbD 0
    irqEnable := d.getLsbD 1
    irqCycleMode := d.getLsbD 2
    irqDiv3 := 0
    irqPrescaler := 0
    irqCounter := if d.getLsbD 1 then r.irqReload else r.irqCounter })

/-- IRQ acknowledge (45 R324). -/
def v2IrqAckWrite (s : State) (rev : Revision) (r : Vrc2Regs) : State :=
  (s.emitIf r.irqTriggered .irqCancel).setRegs
    (.vrc2 rev { r with irqTriggered := false, irqEnable := r.irqEnableOnAck })

/-- A write at or above 0x8000 on VRC2 (45 R312). -/
def v2RegWrite (s : State) (rev : Revision) (r : Vrc2Regs) (i : CpuAddr) (d : Byte) : State :=
  let sub := vrc2Sub s.params.vrc2AddrMode rev i
  match (i.extractLsb' 12 4).toNat with
  | 0x8 => v2Prg0Write s rev r d
  | 0x9 => v2MirrorWrite s d
  | 0xA => v2Prg1Write s rev r d
  | 0xF =>
    match sub.toNat with
    | 0 => v2IrqLatchLoWrite s rev r d
    | 1 => v2IrqLatchHiWrite s rev r d
    | 2 => v2IrqCtrlWrite s rev r d
    | _ => v2IrqAckWrite s rev r
  | _ => v2ChrWrite s rev r (i.extractLsb' 12 4) sub d

/-- A write at or above 0x8000, on whichever variant the block has (44 R292, 45 R312). -/
def mapperRegWrite (s : State) (i : CpuAddr) (d : Byte) : State :=
  match s.mapper.regs with
  | .axrom bank => axRegWrite s bank d
  | .vrc2 rev r => v2RegWrite s rev r i d

/-! ### The mapper index space -/

/-- The ranges of 20 R94 cover an index. With 16 bits they cover all (20 R100). -/
def mapperCovers (i : Nat) : Bool :=
  i < 0x2000 || (0x2000 ≤ i && i < 0x6000) || (0x6000 ≤ i && i < 0x8000) || (0x8000 ≤ i && i ≤ 0xFFFF)

/-- `MapperRead(i)` (20 R94 to R98, 44 R291, 45 R311): it changes no state and emits nothing. -/
def mapperRead (s : State) (i : CpuAddr) : Byte :=
  if i.toNat < 0x2000 then chrRead s i
  else if i.toNat < 0x6000 then i.extractLsb' 8 8
  else if i.toNat < 0x8000 then Memory.read s.cart.sram (sramIndex s i)
  else prgRead s i

/-- `MapperWrite(i, b)` (20 R94 to R98, 44 R292, 45 R312). -/
def mapperWrite (s : State) (i : CpuAddr) (b : Byte) : State :=
  if i.toNat < 0x2000 then chrWrite s i b
  else if i.toNat < 0x6000 then s.emit (.log (variantName s.variant) i b)
  else if i.toNat < 0x8000 then s.setSram (Memory.write s.cart.sram (sramIndex s i) b)
  else mapperRegWrite s i b

/-! ### The PPU address space -/

/-- The physical bank of a logical nametable (20 R89). -/
def mirrorBank (m : MirrorMode) (table : Nat) : Nat :=
  match m with
  | .horizontal => table / 2
  | .vertical => table % 2
  | .single0 => 0
  | .single1 => 1
  | .fourScreen => table

/-- `NtIndex(a)` (20 R90). -/
def ntIndex (m : MirrorMode) (a : PpuAddr) : Nat :=
  let r := (a.toNat - 0x2000) % 0x1000
  (mirrorBank m (r / 0x400) * 0x400 + r % 0x400) % 2048

/-- `PalIndex(i)` (20 R91). -/
def palIndex (i : BitVec 5) : Nat := if 16 ≤ i.toNat ∧ i.toNat % 4 = 0 then i.toNat - 16 else i.toNat

/-- `PalRead(i)` (20 R92). -/
def palRead (p : Ppu) (i : BitVec 5) : Byte := Memory.read p.pal (palIndex i)

/-- `PpuRead(a)` (20 R86): it changes no state. -/
def ppuRead (s : State) (a : PpuAddr) : Byte :=
  if a.toNat < 0x2000 then mapperRead s (a.setWidth 16)
  else if a.toNat < 0x3F00 then Memory.read s.ppu.nt (ntIndex s.mapper.mirror a)
  else palRead s.ppu (a.extractLsb' 0 5)

/-- `PpuWrite(a, b)` (20 R87, R93). -/
def ppuWrite (s : State) (a : PpuAddr) (b : Byte) : State :=
  if a.toNat < 0x2000 then mapperWrite s (a.setWidth 16) b
  else if a.toNat < 0x3F00 then s.setPpu { s.ppu with nt := Memory.write s.ppu.nt (ntIndex s.mapper.mirror a) b }
  else s.setPpu { s.ppu with pal := Memory.write s.ppu.pal (palIndex (a.extractLsb' 0 5)) b }

/-- `IncV()` (40 R175). -/
def Ppu.incV (p : Ppu) : Ppu := { p with v := p.v + if p.ctrl.incMode then 32 else 1 }

/-- The address the Data register reaches: `v[13:0]` (20 R109). -/
def Ppu.dataAddr (p : Ppu) : PpuAddr := p.v.setWidth 14

/-- A register of VRC2 reached by an instruction: a block of another variant has no such register (30 R154; log 13). -/
def onVrc2 (mnemonic : String) (s : State) (f : Revision → Vrc2Regs → State) : Outcome State Fault Refusal :=
  match s.mapper.regs with
  | .vrc2 rev r => .next (f rev r)
  | .axrom _ => .refused (.absentRegister mnemonic)

end Sys2Proof.Machine
end

