-- ==== Sys2Proof/Machine/MapperIo.lean ====
section
/-! DEFINITION. The rest of the CPU window, the mapper's registers and the mapper's tick (spec/40 R182, R183, spec/44,
spec/45). -/

namespace Sys2Proof.Machine

open Host (Outcome)

/-- NOT_CLAIMED (40 R182): nothing changes, a read returns none. -/
def execNotClaimed (s : State) : Outcome State Fault Refusal := .next s.returnsNone

/-- MAP_R (40 R183): `MapperRead`, with the fail-fast check of 20 R100. -/
def execMapR (addr : CpuAddr) (s : State) : Outcome State Fault Refusal :=
  if mapperCovers addr.toNat then .next (s.returns (mapperRead s addr)) else .next (s.contractViolation addr.toNat)

/-- MAP_W (40 R183): `MapperWrite`, with the fail-fast check of 20 R100. -/
def execMapW (addr : CpuAddr) (d : Byte) (s : State) : Outcome State Fault Refusal :=
  if mapperCovers addr.toNat then .next (mapperWrite s addr d) else .next (s.contractViolation addr.toNat)

/-- AX_REG_W (44 R293). -/
def execAxRegW (d : Byte) (s : State) : Outcome State Fault Refusal :=
  match s.mapper.regs with
  | .axrom bank => .next (axRegWrite s bank d)
  | .vrc2 _ _ => .refused (.absentRegister "AX_REG_W")

/-- V2_PRG0_W (45 R315). -/
def execV2Prg0W (d : Byte) (s : State) : Outcome State Fault Refusal :=
  onVrc2 "V2_PRG0_W" s fun rev r => v2Prg0Write s rev r d

/-- V2_MIRROR_W (45 R316). -/
def execV2MirrorW (d : Byte) (s : State) : Outcome State Fault Refusal :=
  onVrc2 "V2_MIRROR_W" s fun _ _ => v2MirrorWrite s d

/-- V2_PRG1_W (45 R317). -/
def execV2Prg1W (d : Byte) (s : State) : Outcome State Fault Refusal :=
  onVrc2 "V2_PRG1_W" s fun rev r => v2Prg1Write s rev r d

/-- V2_CHR_W (45 R318). -/
def execV2ChrW (group : BitVec 4) (sub : BitVec 2) (d : Byte) (s : State) : Outcome State Fault Refusal :=
  onVrc2 "V2_CHR_W" s fun rev r => v2ChrWrite s rev r group sub d

/-- V2_IRQ_LATCH_LO_W (45 R321). -/
def execV2IrqLatchLoW (d : Byte) (s : State) : Outcome State Fault Refusal :=
  onVrc2 "V2_IRQ_LATCH_LO_W" s fun rev r => v2IrqLatchLoWrite s rev r d

/-- V2_IRQ_LATCH_HI_W (45 R322). -/
def execV2IrqLatchHiW (d : Byte) (s : State) : Outcome State Fault Refusal :=
  onVrc2 "V2_IRQ_LATCH_HI_W" s fun rev r => v2IrqLatchHiWrite s rev r d

/-- V2_IRQ_CTRL_W (45 R323). -/
def execV2IrqCtrlW (d : Byte) (s : State) : Outcome State Fault Refusal :=
  onVrc2 "V2_IRQ_CTRL_W" s fun rev r => v2IrqCtrlWrite s rev r d

/-- V2_IRQ_ACK_W (45 R324). -/
def execV2IrqAckW (s : State) : Outcome State Fault Refusal :=
  onVrc2 "V2_IRQ_ACK_W" s fun rev r => v2IrqAckWrite s rev r

/-! ### The mapper's tick -/

/-- The registers after `ClockCounter()`, and whether it emits `IrqTrigger` (45 R331). -/
def clockCounter (r : Vrc2Regs) : Vrc2Regs × Bool :=
  if r.irqCounter = Config.irqWrap then ({ r with irqCounter := r.irqReload, irqTriggered := true }, !r.irqTriggered)
  else ({ r with irqCounter := r.irqCounter + 1 }, false)

/-- `CpuCycleTick()` (45 R331). -/
def cpuCycleTick (r : Vrc2Regs) : Vrc2Regs × Bool :=
  if !r.irqEnable then (r, false)
  else if r.irqCycleMode then clockCounter r
  else if (r.irqPrescaler + 1).toNat = Config.irqPrescale then clockCounter { r with irqPrescaler := 0 }
  else ({ r with irqPrescaler := r.irqPrescaler + 1 }, false)

/-- The tick of a counter-bearing mapper (45 R330). -/
def irqTick (r : Vrc2Regs) : Vrc2Regs × Bool :=
  if r.irqDiv3 + 1 = 3 then cpuCycleTick { r with irqDiv3 := 0 } else ({ r with irqDiv3 := r.irqDiv3 + 1 }, false)

/-- `MAPPER_TICK` on the state: nothing on AxROM (44 R297), the IRQ counter on VRC2 (45 R330). -/
def mapperTick (s : State) : State :=
  match s.mapper.regs with
  | .axrom _ => s
  | .vrc2 rev r => (s.setRegs (.vrc2 rev (irqTick r).1)).emitIf (irqTick r).2 .irqTrigger

/-- MAPPER_TICK (44 R297, 45 R330). -/
def execMapperTick (s : State) : Outcome State Fault Refusal := .next (mapperTick s)

end Sys2Proof.Machine
end

