-- ==== Sys2Proof/Machine/Flags.lean ====
section
/-! DEFINITION. The Status flags and the NMI edge detector (spec/10 R32 to R35, spec/41 R201, R210, R211, R215). -/

namespace Sys2Proof.Machine

/-- The NMI line, `nmi_output and nmi_occurred` (10 R35, 41 R215); not stored. -/
def Ppu.nmiLine (p : Ppu) : Bool := p.ctrl.nmiOutput && p.nmiOccurred

/-- `NmiChange()` (41 R215), for a block whose NMI_DELAY is `delay`. -/
def Ppu.nmiChange (delay : Nat) (p : Ppu) : Ppu :=
  { p with
    nmiDelay := if p.nmiLine && !p.nmiPrevious then BitVec.ofNat 8 delay else p.nmiDelay
    nmiPrevious := p.nmiLine }

/-- `NmiCountdown()` (41 R201): the hook is raised only if the line is still high when the delay ends. -/
def nmiCountdown (s : State) : State :=
  if s.ppu.nmiDelay = 0 then s
  else
    (s.setPpu { s.ppu with nmiDelay := s.ppu.nmiDelay - 1 }).emitIf
      (s.ppu.nmiDelay - 1 == 0 && s.ppu.ctrl.nmiOutput && s.ppu.nmiOccurred) .nmiRaise

/-- `SetVblank()` (41 R210). -/
def setVblank (s : State) : State :=
  (s.emit .framePresent).setPpu (Ppu.nmiChange s.params.nmiDelay { s.ppu with nmiOccurred := true })

/-- `ClearVblank()` (41 R211). -/
def clearVblank (s : State) : State :=
  s.setPpu { Ppu.nmiChange s.params.nmiDelay { s.ppu with nmiOccurred := false } with spr0Hit := false, sprOverflow := false }

end Sys2Proof.Machine
end

