-- ==== Sys2Proof/Machine/PpuRegs.lean ====
section
/-! DEFINITION. The PPU register interface and the OAM DMA trigger (spec/40). -/

namespace Sys2Proof.Machine

open Host (Outcome)

/-- A write of OAM at `oam_addr`, which then advances mod 256 (40 R168, R180). -/
def Ppu.oamPush (p : Ppu) (b : Byte) : Ppu :=
  { p with oam := Memory.write p.oam p.oamAddr.toNat b, oamAddr := p.oamAddr + 1 }

/-! ### Control, Mask, Status -/

/-- PPUCTRL_W (40 R162). -/
def execPpuctrlW (d : Byte) (s : State) : Outcome State Fault Refusal :=
  .next (s.setPpu (Ppu.nmiChange s.params.nmiDelay
    { s.ppu with latch := d, ctrl := Control.ofByte d, t := tAfterControl s.ppu.t d }))

/-- PPUMASK_W (40 R163). -/
def execPpumaskW (d : Byte) (s : State) : Outcome State Fault Refusal :=
  .next (s.setPpu { s.ppu with latch := d, mask := Mask.ofByte d })

/-- PPUSTATUS_R (40 R164). -/
def execPpustatusR (s : State) : Outcome State Fault Refusal :=
  .next ((s.setPpu { Ppu.nmiChange s.params.nmiDelay { s.ppu with nmiOccurred := false } with w := false }).returns
    (statusByte s.ppu))

/-- PPUSTATUS_W (40 R171). -/
def execPpustatusW (d : Byte) (s : State) : Outcome State Fault Refusal :=
  .next (s.setPpu { s.ppu with latch := d })

/-- A read of a write-only register returns the latch and changes nothing (40 R165). -/
def readWriteOnly (s : State) : State := s.returns s.ppu.latch

/-- PPUCTRL_R (40 R165). -/
def execPpuctrlR (s : State) : Outcome State Fault Refusal := .next (readWriteOnly s)

/-- PPUMASK_R (40 R165). -/
def execPpumaskR (s : State) : Outcome State Fault Refusal := .next (readWriteOnly s)

/-- OAMADDR_R (40 R165). -/
def execOamaddrR (s : State) : Outcome State Fault Refusal := .next (readWriteOnly s)

/-- PPUSCROLL_R (40 R165). -/
def execPpuscrollR (s : State) : Outcome State Fault Refusal := .next (readWriteOnly s)

/-- PPUADDR_R (40 R165). -/
def execPpuaddrR (s : State) : Outcome State Fault Refusal := .next (readWriteOnly s)

/-! ### OAM address and data -/

/-- OAMADDR_W (40 R166). -/
def execOamaddrW (d : Byte) (s : State) : Outcome State Fault Refusal :=
  .next (s.setPpu { s.ppu with latch := d, oamAddr := d })

/-- OAMDATA_R (40 R167). -/
def execOamdataR (s : State) : Outcome State Fault Refusal :=
  .next (s.returns (Memory.read s.ppu.oam s.ppu.oamAddr.toNat))

/-- OAMDATA_W (40 R168). -/
def execOamdataW (d : Byte) (s : State) : Outcome State Fault Refusal :=
  .next (s.setPpu (Ppu.oamPush { s.ppu with latch := d } d))

/-! ### Scroll and Address -/

/-- PPUSCROLL_W1 (40 R169). The decoder gives it only when `w = 0` (log 13). -/
def execPpuscrollW1 (d : Byte) (s : State) : Outcome State Fault Refusal :=
  .next (s.setPpu { s.ppu with latch := d, t := tAfterScroll1 s.ppu.t d, x := d.extractLsb' 0 3, w := true })

/-- PPUSCROLL_W2 (40 R170). The decoder gives it only when `w = 1` (log 13). -/
def execPpuscrollW2 (d : Byte) (s : State) : Outcome State Fault Refusal :=
  .next (s.setPpu { s.ppu with latch := d, t := tAfterScroll2 s.ppu.t d, w := false })

/-- PPUADDR_W1 (40 R172). The decoder gives it only when `w = 0` (log 13). -/
def execPpuaddrW1 (d : Byte) (s : State) : Outcome State Fault Refusal :=
  .next (s.setPpu { s.ppu with latch := d, t := tAfterAddr1 s.ppu.t d, w := true })

/-- PPUADDR_W2 (40 R173). The decoder gives it only when `w = 1` (log 13). -/
def execPpuaddrW2 (d : Byte) (s : State) : Outcome State Fault Refusal :=
  .next (s.setPpu { s.ppu with latch := d, t := tAfterAddr2 s.ppu.t d, v := tAfterAddr2 s.ppu.t d, w := false })

/-! ### Data -/

/-- What a Data read returns (40 R176): the old buffer below the palette, the addressed byte in it. -/
def dataReadResult (s : State) : Byte :=
  if s.ppu.dataAddr.toNat < 0x3F00 then s.ppu.readBuffer else ppuRead s s.ppu.dataAddr

/-- What a Data read leaves in the buffer (40 R176): the addressed byte, in the palette range the nametable byte 0x1000
below. -/
def dataReadBuffer (s : State) : Byte :=
  if s.ppu.dataAddr.toNat < 0x3F00 then ppuRead s s.ppu.dataAddr else ppuRead s (s.ppu.dataAddr - 0x1000)

/-- PPUDATA_R (40 R176). -/
def execPpudataR (s : State) : Outcome State Fault Refusal :=
  .next ((s.setPpu (Ppu.incV { s.ppu with readBuffer := dataReadBuffer s })).returns (dataReadResult s))

/-- The latch loaded, the byte stored at `v[13:0]` (40 R177), before `v` advances. -/
def dataStore (s : State) (d : Byte) : State :=
  ppuWrite (s.setPpu { s.ppu with latch := d }) s.ppu.dataAddr d

/-- PPUDATA_W (40 R177). -/
def execPpudataW (d : Byte) (s : State) : Outcome State Fault Refusal :=
  .next ((dataStore s d).setPpu (dataStore s d).ppu.incV)

/-! ### OAM DMA -/

/-- `CpuBusRead((page << 8) + i)`, the i-th of a DMA's reads: the answer the driver delivered, else a free value (00 R9,
40 R180; log 8). -/
def busAnswer (s : State) (page : Byte) (bus : List Byte) (i : Nat) : Byte :=
  match bus[i]? with
  | some b => b
  | none => Config.cpuBusRead (s.io.busReads + i) ((page.setWidth 16 <<< 8) + BitVec.ofNat 16 i)

/-- The 256 copies, in order (40 R180). -/
def dmaCopy (s : State) (page : Byte) (bus : List Byte) (p : Ppu) : Ppu :=
  (List.range 256).foldl (fun q i => q.oamPush (busAnswer s page bus i)) p

/-- OAMDMA_W (40 R180, R181). -/
def execOamdmaW (page : Byte) (odd : Bool) (bus : List Byte) (s : State) : Outcome State Fault Refusal :=
  let p := if s.params.dmaWriteUpdatesLatch then { s.ppu with latch := page } else s.ppu
  let s' := (s.setPpu (dmaCopy s page bus p)).emit (.stallRequest (513 + odd.toNat))
  .next { s' with io := { s'.io with busReads := s.io.busReads + 256 } }

end Sys2Proof.Machine
end

