-- ==== Sys2Proof/Machine/Sprites.lean ====
section
/-! DEFINITION. Sprite evaluation, sprite pattern fetch and sprite pixel (spec/43). -/

namespace Sys2Proof.Machine

/-- Byte `k` of OAM entry `n` (30 R138). -/
def Ppu.oamByte (p : Ppu) (n k : Nat) : Byte := Memory.read p.oam (4 * n + k)

/-- The active height of sprites (43 R270). -/
def Ppu.spriteHeight (p : Ppu) : Nat := if p.ctrl.sprSize then 16 else 8

/-- The scanline is within the active height of an entry whose Y byte is `y` (43 R271): `0 <= l - y < h`. -/
def spriteQualifies (p : Ppu) (l : Nat) (n : Nat) : Bool :=
  (p.oamByte n 0).toNat ≤ l && l - (p.oamByte n 0).toNat < p.spriteHeight

/-- The address of the low plane of a sprite's row (43 R276, R277): vertical flip, and in 16-row mode the table from bit
0 of the tile, the forced-even tile and the split at row 8. -/
def spriteRowAddr (c : Control) (tile att : Byte) (row : Nat) : PpuAddr :=
  if c.sprSize then
    let row := if att.getLsbD 7 then 15 - row else row
    if 7 < row then patternAddr (tile.getLsbD 0) ((tile &&& 0xFE) + 1) (row - 8)
    else patternAddr (tile.getLsbD 0) (tile &&& 0xFE) row
  else patternAddr c.sprTable tile (if att.getLsbD 7 then 7 - row else row)

/-- `FetchSpritePattern(n, row)` (43 R276). -/
def fetchSpritePattern (s : State) (n row : Nat) : BitVec 32 :=
  let att := s.ppu.oamByte n 2
  let addr := spriteRowAddr s.ppu.ctrl (s.ppu.oamByte n 1) att row
  pixelRow ((att.extractLsb' 0 2).setWidth 4 <<< 2) (ppuRead s (addr + 8)) (ppuRead s addr) (att.getLsbD 6)

/-- The buffer entry of a qualifying OAM entry (43 R270). -/
def spriteEntry (s : State) (l n : Nat) : SpriteEntry where
  pattern := fetchSpritePattern s n (l - (s.ppu.oamByte n 0).toNat)
  x := s.ppu.oamByte n 3
  prio := (s.ppu.oamByte n 2).getLsbD 5
  index := BitVec.ofNat 6 n

/-- The buffers and the count of qualifying entries as `EvaluateSprites` builds them. -/
structure SpriteScan where
  sprites : Vector SpriteEntry 8
  count : Nat
  deriving DecidableEq, Repr

/-- One OAM entry of the scan (43 R270): the first 8 that qualify are kept, all are counted. -/
def scanEntry (s : State) (l : Nat) (acc : SpriteScan) (n : Nat) : SpriteScan :=
  if spriteQualifies s.ppu l n then
    { sprites := if h : acc.count < 8 then acc.sprites.set acc.count (spriteEntry s l n) h else acc.sprites
      count := acc.count + 1 }
  else acc

/-- The scan of all 64 OAM entries, in order (43 R270). -/
def spriteScan (s : State) (l : Nat) : SpriteScan :=
  (List.range 64).foldl (scanEntry s l) { sprites := s.ppu.sprites, count := 0 }

/-- `EvaluateSprites()` on scanline `l` (43 R270 to R273). -/
def evaluateSprites (l : Nat) (s : State) : State :=
  let scan := spriteScan s l
  s.setPpu { s.ppu with
    sprites := scan.sprites
    sprCount := BitVec.ofNat 4 (min scan.count 8)
    sprOverflow := s.ppu.sprOverflow || decide (8 < scan.count) }

/-- The pixel of a buffer entry at column `px`: transparent outside its 8 columns (43 R280). -/
def spriteEntryPixel (e : SpriteEntry) (px : Nat) : BitVec 4 :=
  if e.x.toNat ≤ px ∧ px - e.x.toNat ≤ 7 then e.pattern.extractLsb' (4 * (7 - (px - e.x.toNat))) 4 else 0

/-- The first entry of a list with an opaque pixel at column `px`, its position counted from `i` (43 R280). -/
def firstOpaque (px i : Nat) : List SpriteEntry → Nat × BitVec 4
  | [] => (0, 0)
  | e :: rest => if opaquePixel (spriteEntryPixel e px) then (i, spriteEntryPixel e px) else firstOpaque px (i + 1) rest

/-- `SpritePixel()` at column `px`: the buffer position and the pixel (43 R280). -/
def spritePixel (p : Ppu) (px : Nat) : Nat × BitVec 4 :=
  if p.mask.showSpr then firstOpaque px 0 (p.sprites.toList.take p.sprCount.toNat) else (0, 0)

/-- The buffer entry at a position (10 R42). -/
def Ppu.spriteAt (p : Ppu) (i : Nat) : SpriteEntry := p.sprites.toList.getD i SpriteEntry.zero

end Sys2Proof.Machine
end

