-- ==== Sys2Proof/Machine/Render.lean ====
section
/-! DEFINITION. The output pipeline: fetches, shift accumulator, attribute multiplex, compositing (spec/42). -/

namespace Sys2Proof.Machine

/-! ### The 8-cycle fetch sequence -/

/-- The shift of the accumulator (42 R232). -/
def Ppu.shiftTile (p : Ppu) : Ppu := { p with tileData := p.tileData <<< 4 }

/-- `FetchNt()` (42 R233). -/
def fetchNt (s : State) : State := s.setPpu { s.ppu with ntByte := ppuRead s (ntFetchAddr s.ppu.v) }

/-- `FetchAt()` (42 R234). -/
def fetchAt (s : State) : State :=
  s.setPpu { s.ppu with atBits := atSelect s.ppu.v (ppuRead s (atFetchAddr s.ppu.v)) }

/-- The address of the low plane of the background tile's row (42 R235). -/
def Ppu.bgRowAddr (p : Ppu) : PpuAddr := patternAddr p.ctrl.bgTable p.ntByte (p.v.extractLsb' 12 3).toNat

/-- `FetchLo()` (42 R235). -/
def fetchLo (s : State) : State := s.setPpu { s.ppu with patLo := ppuRead s s.ppu.bgRowAddr }

/-- `FetchHi()` (42 R236). -/
def fetchHi (s : State) : State := s.setPpu { s.ppu with patHi := ppuRead s (s.ppu.bgRowAddr + 8) }

/-- `StoreTile()` (42 R237): an OR into the low half. -/
def Ppu.storeTile (p : Ppu) : Ppu :=
  { p with tileData := p.tileData ||| (pixelRow p.atBits p.patHi p.patLo false).setWidth 64 }

/-- `ShiftAndFetch()` at cycle `c` (42 R231). -/
def shiftAndFetch (c : Nat) (s : State) : State :=
  let s := s.setPpu s.ppu.shiftTile
  match c % 8 with
  | 1 => fetchNt s
  | 3 => fetchAt s
  | 5 => fetchLo s
  | 7 => fetchHi s
  | 0 => s.setPpu s.ppu.storeTile
  | _ => s

/-! ### Pixels -/

/-- `BackgroundPixel()` (42 R245): fine x selects one of the 8 nibbles of the upper half. -/
def backgroundPixel (p : Ppu) : BitVec 4 :=
  if p.mask.showBg then p.tileData.extractLsb' (32 + 4 * (7 - p.x.toNat)) 4 else 0

/-- The final palette index of the two layers' pixels, given the sprite's priority bit (42 R250, R253, R254). -/
def composite (bg sp : BitVec 4) (prio : Bool) : BitVec 5 :=
  if opaquePixel sp && !(opaquePixel bg && prio) then sp.setWidth 5 ||| 0x10
  else if opaquePixel bg then bg.setWidth 5
  else 0

/-- The background pixel at column `px` after the left clip (42 R250, R251). -/
def clippedBg (p : Ppu) (px : Nat) : BitVec 4 := if px < 8 && !p.mask.showLeftBg then 0 else backgroundPixel p

/-- The sprite pixel at column `px` after the left clip (42 R250, R251). -/
def clippedSp (p : Ppu) (px : Nat) : BitVec 4 := if px < 8 && !p.mask.showLeftSpr then 0 else (spritePixel p px).2

/-- The buffer entry `SpritePixel` chose (42 R252). -/
def winningSprite (p : Ppu) (px : Nat) : SpriteEntry := p.spriteAt (spritePixel p px).1

/-- Sprite-zero hit at column `px` (42 R252): both pixels opaque after the clip, the chosen entry's original OAM index 0,
and `px < 255`. -/
def spriteZeroHit (p : Ppu) (px : Nat) : Bool :=
  opaquePixel (clippedBg p px) && opaquePixel (clippedSp p px) && (winningSprite p px).index == 0 && decide (px < 255)

/-- The palette index of column `px`. -/
def pixelIndex (p : Ppu) (px : Nat) : BitVec 5 :=
  composite (clippedBg p px) (clippedSp p px) (winningSprite p px).prio

/-- `RenderPixel()` at scanline `l` and cycle `c` (42 R250, R255). -/
def renderPixel (l c : Nat) (s : State) : State :=
  let px := c - 1
  let idx := pixelIndex s.ppu px
  (s.setPpu { s.ppu with spr0Hit := s.ppu.spr0Hit || spriteZeroHit s.ppu px }).emit
    (.pixelWrite (BitVec.ofNat 8 px) (BitVec.ofNat 8 l) idx ((palRead s.ppu idx).setWidth 6))

end Sys2Proof.Machine
end

