-- ==== Sys2Proof/Machine/Sequencer.lean ====
section
/-! DEFINITION. `PPU_STEP`: the order of its actions, the position counter, the scroll increments and copies (spec/41). -/

namespace Sys2Proof.Machine

open Host (Outcome)

/-- `rendering_enabled(s)` (10 R31). -/
def Ppu.renderingEnabled (p : Ppu) : Bool := p.mask.showBg || p.mask.showSpr

/-! ### Predicates over the position (41 R202) -/

def visibleLine (l : Nat) : Bool := l ≤ 239
def postLine (l : Nat) : Bool := l == 240
def vblankLine (l : Nat) : Bool := 241 ≤ l && l ≤ 260
def preLine (l : Nat) : Bool := l == 261
def renderLine (l : Nat) : Bool := visibleLine l || preLine l
def visibleCycle (c : Nat) : Bool := 1 ≤ c && c ≤ 256
def prefetchCycle (c : Nat) : Bool := 321 ≤ c && c ≤ 336
def fetchCycle (c : Nat) : Bool := visibleCycle c || prefetchCycle c

/-! ### The position counter -/

/-- The odd-frame skip applies (41 R204): rendering enabled, an even-numbered frame, at (261, 339). -/
def Ppu.skips (p : Ppu) : Bool := p.renderingEnabled && !p.f && p.scanline == 261 && p.cycle == 339

/-- `Advance()` (41 R203, R204). -/
def Ppu.advance (p : Ppu) : Ppu :=
  if p.skips then { p with scanline := 0, cycle := 0, f := true }
  else if p.cycle.toNat < 340 then { p with cycle := p.cycle + 1 }
  else if p.scanline.toNat < 261 then { p with cycle := 0, scanline := p.scanline + 1 }
  else { p with cycle := 0, scanline := 0, f := !p.f }

/-! ### Scroll increments and copies -/

/-- `IncX()` (41 R205). -/
def incX (v : VramAddr) : VramAddr :=
  if v.extractLsb' 0 5 = 31 then (v &&& 0x7FE0) ^^^ 0x0400 else v + 1

/-- `IncY()` (41 R206). -/
def incY (v : VramAddr) : VramAddr :=
  if v.extractLsb' 12 3 ≠ 7 then v + 0x1000
  else
    let v := v &&& 0x0FFF
    let y := v.extractLsb' 5 5
    if y = 29 then (v ^^^ 0x0800) &&& 0x7C1F
    else if y = 31 then v &&& 0x7C1F
    else (v &&& 0x7C1F) ||| ((y + 1).setWidth 15 <<< 5)

/-- `CopyX()` (41 R207). -/
def copyX (v t : VramAddr) : VramAddr := (v &&& 0x7BE0) ||| (t &&& 0x041F)

/-- `CopyY()` (41 R208). -/
def copyY (v t : VramAddr) : VramAddr := (v &&& 0x041F) ||| (t &&& 0x7BE0)

/-- `v` replaced by a scroll update. -/
def State.scroll (g : VramAddr → VramAddr → VramAddr) (s : State) : State :=
  s.setPpu { s.ppu with v := g s.ppu.v s.ppu.t }

/-- Action 3g (41 R200): evaluation at cycle 257 of a visible line, else the buffers emptied (43 R274). -/
def spriteAction (l : Nat) (s : State) : State :=
  if visibleLine l then evaluateSprites l s else s.setPpu { s.ppu with sprCount := 0 }

/-- Actions 3a to 3g at position (l, c) (41 R200). -/
def renderActions (l c : Nat) (s : State) : State :=
  let s := whenDo (visibleLine l && visibleCycle c) (renderPixel l c) s
  let s := whenDo (renderLine l && fetchCycle c) (shiftAndFetch c) s
  let s := whenDo (preLine l && 280 ≤ c && c ≤ 304) (State.scroll copyY) s
  let s := whenDo (renderLine l && fetchCycle c && c % 8 == 0) (State.scroll fun v _ => incX v) s
  let s := whenDo (renderLine l && c == 256) (State.scroll fun v _ => incY v) s
  let s := whenDo (renderLine l && c == 257) (State.scroll copyX) s
  whenDo (c == 257) (spriteAction l) s

/-- Actions 3 to 5 at position (l, c) (41 R200). -/
def positionActions (l c : Nat) (s : State) : State :=
  let s := whenDo s.ppu.renderingEnabled (renderActions l c) s
  let s := whenDo (l == 241 && c == 1) setVblank s
  whenDo (l == 261 && c == 1) clearVblank s

/-- `PPU_STEP` on the state (41 R200): countdown, advance, then the actions of the position moved to. -/
def ppuStep (s : State) : State :=
  let s := nmiCountdown s
  let s := s.setPpu s.ppu.advance
  positionActions s.ppu.scanline.toNat s.ppu.cycle.toNat s

/-- PPU_STEP (41 R200). -/
def execPpuStep (s : State) : Outcome State Fault Refusal := .next (ppuStep s)

end Sys2Proof.Machine
end

