-- ==== Sys2Proof/Machine/Snapshot.lean ====
section
/-! DEFINITION. The byte sequence of a snapshot and its reading (spec/46 R351, R353). -/

namespace Sys2Proof.Machine

/-! ### Writing -/

/-- A one-bit field is a byte 0 or 1 (46 R351). -/
def bitByte (b : Bool) : Byte := if b then 1 else 0

/-- Multi-byte fields are little-endian (46 R351): `n` bytes of a value. -/
def leBytes {w : Nat} : Nat → BitVec w → List Byte
  | 0, _ => []
  | n + 1, x => x.extractLsb' 0 8 :: leBytes n (x >>> 8)

/-- The mapper code (46 R351, field 2). -/
def variantCode : Variant → Byte
  | .axrom => 0
  | .vrc2a => 1
  | .vrc2b => 2

/-- The status flags byte (46 R351, field 14). -/
def statusFlags (p : Ppu) : Byte :=
  bitAt 7 p.nmiOccurred ||| bitAt 6 p.spr0Hit ||| bitAt 5 p.sprOverflow

/-- Fields 3 to 17. -/
def saveRegs (p : Ppu) : List Byte :=
  leBytes 2 p.scanline ++ leBytes 2 p.cycle ++ bitByte p.f :: (leBytes 2 p.v ++ leBytes 2 p.t ++
    [p.x.setWidth 8, bitByte p.w, p.latch, p.readBuffer, p.ctrl.toByte, p.mask.toByte, statusFlags p,
     bitByte p.nmiPrevious, p.nmiDelay, p.oamAddr])

/-- Fields 18 to 20. -/
def saveMems (p : Ppu) : List Byte := Memory.toBytes 256 p.oam ++ Memory.toBytes 32 p.pal ++ Memory.toBytes 2048 p.nt

/-- Fields 21 to 27. -/
def savePipe (p : Ppu) : List Byte :=
  [p.ntByte, p.atBits.setWidth 8, p.patLo, p.patHi] ++ leBytes 8 p.tileData ++ [p.sprCount.setWidth 8] ++
    (p.sprites.toList.flatMap fun e => leBytes 4 e.pattern) ++ (p.sprites.toList.map fun e => e.x) ++
    (p.sprites.toList.map fun e => bitByte e.prio) ++ (p.sprites.toList.map fun e => e.index.setWidth 8)

/-- The IRQ flags byte (46 R351, field 34b). -/
def irqFlags (r : Vrc2Regs) : Byte :=
  bitAt 3 r.irqTriggered ||| bitAt 2 r.irqCycleMode ||| bitAt 1 r.irqEnable ||| bitAt 0 r.irqEnableOnAck

/-- Fields 29a, or 29b to 34b. -/
def saveMapperRegs : MapperRegs → List Byte
  | .axrom bank => [bank.setWidth 8]
  | .vrc2 _ r =>
    [r.prgBank0.setWidth 8, r.prgBank1.setWidth 8] ++ r.chrReg.toList ++ [r.irqReload, r.irqCounter] ++
      leBytes 2 r.irqPrescaler ++ [r.irqDiv3.setWidth 8, irqFlags r]

/-- Fields 35 and 36. -/
def saveCart (p : Params) (c : Cart) : List Byte :=
  Memory.toBytes p.sramLen c.sram ++ if p.chrIsRam then Memory.toBytes p.chrLen c.chrRam else []

/-- `Save(s)` (46 R351). -/
def snapshotBytes (s : State) : List Byte :=
  [1, variantCode s.variant] ++ (saveRegs s.ppu ++ (saveMems s.ppu ++ (savePipe s.ppu ++
    (s.mapper.mirror.toByte :: (saveMapperRegs s.mapper.regs ++ saveCart s.params s.cart)))))

/-- The length of a snapshot, which depends on the parameters alone (46 R350, R351). -/
def snapshotLength (m : Variant) (p : Params) : Nat :=
  (match m with | .axrom => 2428 | _ => 2443) + p.sramLen + if p.chrIsRam then p.chrLen else 0

/-! ### Reading

Each reader takes its field off the front, answers its value and the bytes left, and answers none on an illegal value (46 R353). -/

/-- One byte. -/
def takeByte : List Byte → Option (Byte × List Byte)
  | [] => none
  | b :: rest => some (b, rest)

/-- A one-bit field: a byte 0 or 1. -/
def takeBit (bs : List Byte) : Option (Bool × List Byte) :=
  match takeByte bs with
  | some (b, rest) => if b = 0 then some (false, rest) else if b = 1 then some (true, rest) else none
  | none => none

/-- A byte holding a value of `w` bits, the other bits zero. -/
def takeNarrow (w : Nat) (bs : List Byte) : Option (BitVec w × List Byte) :=
  match takeByte bs with
  | some (b, rest) => if b.toNat < 2 ^ w then some (b.setWidth w, rest) else none
  | none => none

/-- `n` bytes. -/
def takeMany (n : Nat) (bs : List Byte) : Option (List Byte × List Byte) :=
  if n ≤ bs.length then some (bs.take n, bs.drop n) else none

/-- The number little-endian bytes stand for (46 R351). -/
def leNat : List Byte → Nat
  | [] => 0
  | b :: rest => b.toNat + 256 * leNat rest

/-- A little-endian field of `n` bytes whose value is at most `max`. -/
def takeLe (n w max : Nat) (bs : List Byte) : Option (BitVec w × List Byte) :=
  match takeMany n bs with
  | some (le, rest) => if leNat le ≤ max then some (BitVec.ofNat w (leNat le), rest) else none
  | none => none

/-- A byte array of `n` bytes. -/
def takeMemory (n : Nat) (bs : List Byte) : Option (Memory × List Byte) :=
  match takeMany n bs with
  | some (a, rest) => some (Memory.ofBytes a, rest)
  | none => none

/-- Eight of a field, one after the other. -/
def takeEight {α : Type} (one : List Byte → Option (α × List Byte)) (bs : List Byte) : Option (Vector α 8 × List Byte) := do
  let (a, bs) ← one bs
  let (b, bs) ← one bs
  let (c, bs) ← one bs
  let (d, bs) ← one bs
  let (e, bs) ← one bs
  let (f, bs) ← one bs
  let (g, bs) ← one bs
  let (h, bs) ← one bs
  some (#v[a, b, c, d, e, f, g, h], bs)

/-- Fields 3 to 17, into `p`. -/
def loadRegs (p : Ppu) (bs : List Byte) : Option (Ppu × List Byte) := do
  let (scanline, bs) ← takeLe 2 9 261 bs
  let (cycle, bs) ← takeLe 2 9 340 bs
  let (f, bs) ← takeBit bs
  let (v, bs) ← takeLe 2 15 0x7FFF bs
  let (t, bs) ← takeLe 2 15 0x7FFF bs
  let (x, bs) ← takeNarrow 3 bs
  let (w, bs) ← takeBit bs
  let (latch, bs) ← takeByte bs
  let (readBuffer, bs) ← takeByte bs
  let (ctrl, bs) ← takeByte bs
  let (mask, bs) ← takeByte bs
  let (flags, bs) ← takeByte bs
  let (nmiPrevious, bs) ← takeBit bs
  let (nmiDelay, bs) ← takeByte bs
  let (oamAddr, bs) ← takeByte bs
  if flags.extractLsb' 0 5 = 0 then
    some ({ p with
      scanline, cycle, f, v, t, x, w, latch, readBuffer, ctrl := Control.ofByte ctrl, mask := Mask.ofByte mask,
      nmiOccurred := flags.getLsbD 7, spr0Hit := flags.getLsbD 6, sprOverflow := flags.getLsbD 5,
      nmiPrevious, nmiDelay, oamAddr }, bs)
  else none

/-- Fields 18 to 20, into `p`. -/
def loadMems (p : Ppu) (bs : List Byte) : Option (Ppu × List Byte) := do
  let (oam, bs) ← takeMemory 256 bs
  let (pal, bs) ← takeMemory 32 bs
  let (nt, bs) ← takeMemory 2048 bs
  some ({ p with oam, pal, nt }, bs)

/-- Fields 21 to 27, into `p`. -/
def loadPipe (p : Ppu) (bs : List Byte) : Option (Ppu × List Byte) := do
  let (ntByte, bs) ← takeByte bs
  let (atBits, bs) ← takeNarrow 4 bs
  let (patLo, bs) ← takeByte bs
  let (patHi, bs) ← takeByte bs
  let (tileData, bs) ← takeLe 8 64 (2 ^ 64 - 1) bs
  let (sprCount, bs) ← takeNarrow 4 bs
  let (patterns, bs) ← takeEight (takeLe 4 32 (2 ^ 32 - 1)) bs
  let (xs, bs) ← takeEight takeByte bs
  let (prios, bs) ← takeEight takeBit bs
  let (indices, bs) ← takeEight (takeNarrow 6) bs
  if atBits.extractLsb' 0 2 = 0 ∧ sprCount.toNat ≤ 8 then
    some ({ p with
      ntByte, atBits, patLo, patHi, tileData, sprCount,
      sprites := Vector.ofFn fun k => { pattern := patterns.get k, x := xs.get k, prio := prios.get k, index := indices.get k } }, bs)
  else none

/-- Fields 29a, or 29b to 34b, for the variant of the block. -/
def loadMapperRegs (m : MapperRegs) (bs : List Byte) : Option (MapperRegs × List Byte) :=
  match m with
  | .axrom _ => do
    let (bank, bs) ← takeNarrow 3 bs
    some (.axrom bank, bs)
  | .vrc2 rev _ => do
    let (prgBank0, bs) ← takeNarrow 5 bs
    let (prgBank1, bs) ← takeNarrow 5 bs
    let (chrReg, bs) ← takeEight takeByte bs
    let (irqReload, bs) ← takeByte bs
    let (irqCounter, bs) ← takeByte bs
    let (irqPrescaler, bs) ← takeLe 2 9 340 bs
    let (irqDiv3, bs) ← takeNarrow 2 bs
    let (flags, bs) ← takeNarrow 4 bs
    if irqDiv3.toNat ≤ 2 then
      some (.vrc2 rev {
        prgBank0, prgBank1, chrReg, irqReload, irqCounter, irqPrescaler, irqDiv3,
        irqEnableOnAck := flags.getLsbD 0, irqEnable := flags.getLsbD 1, irqCycleMode := flags.getLsbD 2,
        irqTriggered := flags.getLsbD 3 }, bs)
    else none

/-- Fields 35 and 36, into `c`. -/
def loadCart (p : Params) (c : Cart) (bs : List Byte) : Option (Cart × List Byte) := do
  let (sram, bs) ← takeMemory p.sramLen bs
  if p.chrIsRam then do
    let (chrRam, bs) ← takeMemory p.chrLen bs
    some ({ sram, chrRam }, bs)
  else some ({ c with sram }, bs)

/-- The state a sequence restores, or none when any check of 46 R353 fails: the length, the version, the mapper code,
every field's legal values. `fatal`, the parameters and the interface are the present ones. -/
def restoredState (s : State) (bytes : List Byte) : Option State :=
  if bytes.length = snapshotLength s.variant s.params then do
    let (version, bs) ← takeByte bytes
    let (code, bs) ← takeByte bs
    let (ppu, bs) ← loadRegs s.ppu bs
    let (ppu, bs) ← loadMems ppu bs
    let (ppu, bs) ← loadPipe ppu bs
    let (mirror, bs) ← takeByte bs
    let mirror ← MirrorMode.ofByte? mirror
    let (regs, bs) ← loadMapperRegs s.mapper.regs bs
    let (cart, _) ← loadCart s.params s.cart bs
    if version = 1 ∧ code = variantCode s.variant then
      some { s with ppu, mapper := { mirror, regs }, cart }
    else none
  else none

end Sys2Proof.Machine
end

