-- ==== Sys2Proof/Machine/System.lean ====
section
/-! DEFINITION. RESET, SAVE, RESTORE (spec/70 R390, spec/46 R352, R353), and the construction of a block (spec/70 R391). -/

namespace Sys2Proof.Machine

open Host (Outcome)

/-- RESET (70 R390): every field to its value in 10 R52 but `chr_ram`, `sram` and `fatal`; no event (70 R392). -/
def execReset (s : State) : Outcome State Fault Refusal :=
  .next { s with ppu := Ppu.reset s.params, mapper := Mapper.reset s.variant }

/-- SAVE (46 R352). -/
def execSave (s : State) : Outcome State Fault Refusal := .next (s.emit (.snapshot (snapshotBytes s)))

/-- RESTORE (46 R353): all or nothing, no event; `MalformedSnapshot` is recoverable (60 R374). -/
def execRestore (bytes : List Byte) (s : State) : Outcome State Fault Refusal :=
  match restoredState s bytes with
  | some s' => .next s'
  | none => .next (s.raise .malformedSnapshot)

/-- A well-formed cartridge (10 R49). -/
def cartridgeFits (m : Variant) (p : Params) : Bool :=
  match m with
  | .axrom => 0 < p.prgLen && p.prgLen % 0x8000 == 0 && p.chrLen == 0x2000
  | _ => 0x4000 ≤ p.prgLen && p.prgLen % 0x2000 == 0 && 0 < p.chrLen && p.chrLen % 0x400 == 0

/-- The parameters a block can be built with: a well-formed cartridge (10 R49), NMI_DELAY from 1 to 255 (00 R6), a save
RAM that is not empty (log 15), and every image an array of its size in canonical form. -/
def paramsFit (m : Variant) (p : Params) : Bool :=
  cartridgeFits m p && 1 ≤ p.nmiDelay && p.nmiDelay ≤ 255 && 0 < p.sramLen &&
    Memory.wf p.prg && Memory.below p.prgLen p.prg && Memory.wf p.chr && Memory.below p.chrLen p.chr &&
    Memory.wf p.oamInit && Memory.below 256 p.oamInit && Memory.wf p.palInit && Memory.below 32 p.palInit &&
    Memory.wf p.ntInit && Memory.below 2048 p.ntInit && Memory.wf p.sramInit && Memory.below p.sramLen p.sramInit

/-- Construction (70 R391): refused when the cartridge is not well formed (10 R49, 93 U8). -/
def State.construct? (m : Variant) (p : Params) : Option State :=
  if paramsFit m p then some (State.powerOn m p) else none

end Sys2Proof.Machine
end

