-- ==== Sys2Proof/Machine/Dispatch.lean ====
section
/-! DEFINITION. One arm per constructor of `Instr`, each one call of its meaning. -/

namespace Sys2Proof.Machine

def exec (i : Instr) (s : State) : Host.Outcome State Fault Refusal :=
  match i with
  | .ppuctrlW d => Sys2Proof.Machine.execPpuctrlW d s
  | .ppuctrlR => Sys2Proof.Machine.execPpuctrlR s
  | .ppumaskW d => Sys2Proof.Machine.execPpumaskW d s
  | .ppumaskR => Sys2Proof.Machine.execPpumaskR s
  | .ppustatusR => Sys2Proof.Machine.execPpustatusR s
  | .ppustatusW d => Sys2Proof.Machine.execPpustatusW d s
  | .oamaddrW d => Sys2Proof.Machine.execOamaddrW d s
  | .oamaddrR => Sys2Proof.Machine.execOamaddrR s
  | .oamdataR => Sys2Proof.Machine.execOamdataR s
  | .oamdataW d => Sys2Proof.Machine.execOamdataW d s
  | .ppuscrollW1 d => Sys2Proof.Machine.execPpuscrollW1 d s
  | .ppuscrollW2 d => Sys2Proof.Machine.execPpuscrollW2 d s
  | .ppuscrollR => Sys2Proof.Machine.execPpuscrollR s
  | .ppuaddrW1 d => Sys2Proof.Machine.execPpuaddrW1 d s
  | .ppuaddrW2 d => Sys2Proof.Machine.execPpuaddrW2 d s
  | .ppuaddrR => Sys2Proof.Machine.execPpuaddrR s
  | .ppudataR => Sys2Proof.Machine.execPpudataR s
  | .ppudataW d => Sys2Proof.Machine.execPpudataW d s
  | .oamdmaW page odd bus => Sys2Proof.Machine.execOamdmaW page odd bus s
  | .notClaimed => Sys2Proof.Machine.execNotClaimed s
  | .axRegW d => Sys2Proof.Machine.execAxRegW d s
  | .v2Prg0W d => Sys2Proof.Machine.execV2Prg0W d s
  | .v2MirrorW d => Sys2Proof.Machine.execV2MirrorW d s
  | .v2Prg1W d => Sys2Proof.Machine.execV2Prg1W d s
  | .v2IrqLatchLoW d => Sys2Proof.Machine.execV2IrqLatchLoW d s
  | .v2IrqLatchHiW d => Sys2Proof.Machine.execV2IrqLatchHiW d s
  | .v2IrqCtrlW d => Sys2Proof.Machine.execV2IrqCtrlW d s
  | .v2IrqAckW => Sys2Proof.Machine.execV2IrqAckW s
  | .v2ChrW group sub d => Sys2Proof.Machine.execV2ChrW group sub d s
  | .mapR addr => Sys2Proof.Machine.execMapR addr s
  | .mapW addr d => Sys2Proof.Machine.execMapW addr d s
  | .ppuStep => Sys2Proof.Machine.execPpuStep s
  | .mapperTick => Sys2Proof.Machine.execMapperTick s
  | .reset => Sys2Proof.Machine.execReset s
  | .save => Sys2Proof.Machine.execSave s
  | .restore bytes => Sys2Proof.Machine.execRestore bytes s

end Sys2Proof.Machine
end

