-- ==== Sys2Proof/Machine/Fetch.lean ====
section
/-! DEFINITION. Taking the next stimulus off the queue (spec/00 R7; log 1). -/

namespace Sys2Proof.Machine

/-- The stimulus taken: the rest of the queue remains, and the returned byte and the condition are those of the new
stimulus, absent until it gives one (00 R7; log 2). -/
def State.take (s : State) (rest : List Stimulus) : State :=
  { s with io := { s.io with stimuli := rest, result := none, condition := none } }

/-- A stimulus put in front of the queue, where `step` takes its next. -/
def State.deliver (s : State) (st : Stimulus) : State := { s with io := { s.io with stimuli := st :: s.io.stimuli } }

end Sys2Proof.Machine
end

