-- ==== Sys2Proof/Machine/Step.lean ====
section
/-! DEFINITION. One step: the next stimulus of the queue, decoded in the state's context and run (spec/00 R7). -/

namespace Sys2Proof.Machine

/-- One step. With no stimulus waiting the block keeps all its state (60 R385; log 1). A fatal block refuses every
stimulus with the condition that made it fatal (10 R50, 60 R371). A reserved word is refused by the decoder (30 R124). -/
def step (s : State) : Host.Outcome State Fault Refusal :=
  match s.io.stimuli with
  | [] => .next s
  | st :: rest =>
    match s.fatal with
    | some (name, addr) => .fault (.contractViolation name addr)
    | none =>
      match decode s.decodeCtx st with
      | .error why => .refused (.invalidWord why)
      | .ok i => exec i (s.take rest)

/-- `s` with the instruction whose bits are `w` delivered as the very next stimulus, no bytes beside it (logs 1, 9). -/
def State.withFetchWord (s : State) (nbits w : Nat) : State := s.deliver { word := tableWord nbits w, bytes := [] }

end Sys2Proof.Machine
end

