-- ==== Sys2Proof/Safety.lean ====
section
/-! DEFINITION. The invariant of the block's state (the ranges of spec/10 R20 to R48 and the canonical form of its
memories), and what a safe run is. -/

namespace Sys2Proof.Machine

/-- The ranges spec/10 gives the PictureProcessor's fields: the position (R20), the attribute bits (R40), the number of
live sprite entries (R42), and the sizes of its memories (R37 to R39), each in canonical form. -/
def Ppu.inv (p : Ppu) : Bool :=
  p.scanline.toNat ≤ 261 && p.cycle.toNat ≤ 340 && p.atBits.extractLsb' 0 2 == 0 && p.sprCount.toNat ≤ 8 &&
    Memory.wf p.oam && Memory.below 256 p.oam && Memory.wf p.pal && Memory.below 32 p.pal &&
    Memory.wf p.nt && Memory.below 2048 p.nt

/-- The ranges of the VRC2 dividers (10 R46). -/
def MapperRegs.inv : MapperRegs → Bool
  | .axrom _ => true
  | .vrc2 _ r => r.irqPrescaler.toNat ≤ 340 && r.irqDiv3.toNat ≤ 2

/-- The sizes of the cartridge's memories (10 R48), each in canonical form; no character RAM when CHR_IS_RAM is false. -/
def Cart.inv (p : Params) (c : Cart) : Bool :=
  Memory.wf c.sram && Memory.below p.sramLen c.sram && Memory.wf c.chrRam &&
    Memory.below (if p.chrIsRam then p.chrLen else 0) c.chrRam

/-- The invariant: the parameters are those of a block that can be built (10 R49), and every field is in its range. -/
def State.inv (s : State) : Bool :=
  paramsFit s.variant s.params && s.ppu.inv && s.mapper.regs.inv && Cart.inv s.params s.cart

/-- A run of `k` steps that meets no fault and no refusal: the block was never fatal (60 R371) and every delivered word
was a stimulus (30 R124). -/
def SafeRun (k : Nat) (s : State) : Prop := ∃ t, Sys2Proof.core.run k s = .next t

end Sys2Proof.Machine
end

