-- ==== Sys2Proof/Certificates/Slice0/Obligations.lean ====
section
/-! DEFINITION. The statements for the provers. Each docstring names the rule or section of spec/ it formalises and, where
the clause is a decision of the spec (D<n>) or a choice of the model (log <n>), says so. "Frame" is the equation
`t = { s with … }`: every register, flag and byte of memory that it does not list reads in `t` as it read in `s`. -/

open Sys2Proof Sys2Proof.Machine

namespace Sys2Proof.Machine

/-! ### Words of the statements -/

/-- An instruction run `n` times, stopping at the first answer that is no next state. -/
def execTimes (i : Instr) : Nat → State → Host.Outcome State Fault Refusal
  | 0, s => .next s
  | n + 1, s =>
    match exec i s with
    | .next t => execTimes i n t
    | .fault r => .fault r
    | .refused r => .refused r

/-- A value is one of a byte's bits. -/
def bitOf (d : Byte) (k : Nat) : Bool := d.getLsbD k

/-- The position a step arrives at is (l, c): rendering is not skipping, and `s` stands one cycle before. -/
def State.arrivesAt (s : State) (l c : Nat) : Prop :=
  (s.ppu.scanline.toNat = l ∧ s.ppu.cycle.toNat + 1 = c ∧ c ≤ 340) ∧ s.ppu.skips = false

/-- `NmiRaise` is due at the start of the next step (41 R201). -/
def State.nmiDue (s : State) : Bool := s.ppu.nmiDelay == 1 && s.ppu.ctrl.nmiOutput && s.ppu.nmiOccurred

/-- The event of a due NMI. -/
def State.nmiEvents (s : State) : List Event := if s.nmiDue then [.nmiRaise] else []

/-- `nmi_delay` after the countdown (41 R201). -/
def State.countedDelay (s : State) : BitVec 8 := if s.ppu.nmiDelay = 0 then 0 else s.ppu.nmiDelay - 1

/-- The event of SetVblank, by the position arrived at (41 R210). -/
def frameEvents (l c : Nat) : List Event := if l = 241 ∧ c = 1 then [.framePresent] else []

/-- The vblank flag and the NMI line are kept, and the delay is counted down (10 R32, R35, 41 R201). -/
def State.nmiKept (s t : State) : Prop :=
  t.ppu.nmiOccurred = s.ppu.nmiOccurred ∧ t.ppu.nmiPrevious = s.ppu.nmiPrevious ∧ t.ppu.nmiDelay = s.countedDelay

/-- The `irq_triggered` latch; false on AxROM, which has none (10 R46, R47). -/
def State.irqAsserted (s : State) : Bool :=
  match s.mapper.regs with
  | .axrom _ => false
  | .vrc2 _ r => r.irqTriggered

/-- The position as a count of cycles from (0, 0). -/
def Ppu.dot (p : Ppu) : Nat := p.scanline.toNat * 341 + p.cycle.toNat

/-- What PPU_STEP never writes: the registers of the CPU side and the memories. -/
def Ppu.sameCpuSide (p q : Ppu) : Prop :=
  q.t = p.t ∧ q.x = p.x ∧ q.w = p.w ∧ q.latch = p.latch ∧ q.readBuffer = p.readBuffer ∧ q.ctrl = p.ctrl ∧
    q.mask = p.mask ∧ q.oamAddr = p.oamAddr ∧ q.oam = p.oam ∧ q.pal = p.pal ∧ q.nt = p.nt

/-- Only the PictureProcessor and the output list differ. -/
def State.onlyPpuAndOutputs (s t : State) : Prop :=
  t = { s with ppu := t.ppu, io := { s.io with outputs := t.io.outputs } }

/-- The fields of a VRAM address (30 R135). -/
def coarseX (v : VramAddr) : Nat := v.toNat % 32
def coarseY (v : VramAddr) : Nat := v.toNat / 32 % 32
def tableX (v : VramAddr) : Nat := v.toNat / 1024 % 2
def tableY (v : VramAddr) : Nat := v.toNat / 2048 % 2
def fineY (v : VramAddr) : Nat := v.toNat / 4096

/-- The pixel a sprite buffer entry shows at column `px` (43 R280), 0 outside its 8 columns. -/
def shownPixel (e : SpriteEntry) (px : Nat) : Nat :=
  if e.x.toNat ≤ px ∧ px < e.x.toNat + 8 then e.pattern.toNat / 16 ^ (7 - (px - e.x.toNat)) % 16 else 0

/-- The live buffer entry that shows an opaque pixel at column `px`, the first in buffer order (43 R280). -/
def shownSprite (p : Ppu) (px : Nat) : Option SpriteEntry :=
  if p.mask.showSpr then (p.sprites.toList.take p.sprCount.toNat).find? fun e => shownPixel e px % 4 != 0 else none

/-- The background pixel after the left clip (42 R245, R251). -/
def bgPixelAt (p : Ppu) (px : Nat) : Nat :=
  if p.mask.showBg ∧ (8 ≤ px ∨ p.mask.showLeftBg) then p.tileData.toNat / 16 ^ (8 + (7 - p.x.toNat)) % 16 else 0

/-- The sprite pixel after the left clip (42 R251, 43 R280). -/
def spPixelAt (p : Ppu) (px : Nat) : Nat :=
  if 8 ≤ px ∨ p.mask.showLeftSpr then
    match shownSprite p px with
    | some e => shownPixel e px
    | none => 0
  else 0

/-- The entries of OAM that qualify on scanline `l`, in OAM order (43 R271). -/
def qualifying (p : Ppu) (l : Nat) : List Nat :=
  (List.range 64).filter fun n =>
    decide ((Memory.read p.oam (4 * n)).toNat ≤ l ∧ l < (Memory.read p.oam (4 * n)).toNat + if p.ctrl.sprSize then 16 else 8)

/-- The address of the low plane of a sprite's row `row` (43 R276, R277). -/
def spriteRowAt (c : Control) (tile att row : Nat) : Nat :=
  if c.sprSize then
    let r := if att / 128 % 2 = 1 then 15 - row else row
    tile % 2 * 0x1000 + (tile - tile % 2) * 16 + if 7 < r then 16 + (r - 8) else r
  else c.sprTable.toNat * 0x1000 + tile * 16 + if att / 128 % 2 = 1 then 7 - row else row

/-- The number the `n` little-endian bytes at offset `k` stand for (46 R351). -/
def numberAt (bs : List Byte) (k : Nat) : Nat → Nat
  | 0 => 0
  | n + 1 => (bs.getD k 0).toNat + 256 * numberAt bs (k + 1) n

/-- The instructions that may emit an event of a kind (60 R365; 41 R200, 44 R293, 45 R315, R317, R324, R331, 60 R372, 40
R180, 46 R352). -/
def mayEmit (i : Instr) (e : Event) : Prop :=
  match e with
  | .pixelWrite _ _ _ _ | .framePresent | .nmiRaise => i = .ppuStep
  | .irqTrigger => i = .mapperTick
  | .irqCancel => i = .v2IrqAckW
  | .bankSwitch _ _ => ∃ d, i = .axRegW d ∨ i = .v2Prg0W d ∨ i = .v2Prg1W d
  | .stallRequest _ => ∃ page odd bus, i = .oamdmaW page odd bus
  | .log _ _ _ => (∃ d, i = .ppudataW d) ∨ ∃ addr d, i = .mapW addr d
  | .snapshot _ => i = .save

/-- Byte `a` of the nametable RAM, palette RAM, OAM, save RAM and character RAM reads alike in two states. -/
def sameMemoryAt (s t : State) (a : Nat) : Prop :=
  Memory.read t.ppu.nt a = Memory.read s.ppu.nt a ∧ Memory.read t.ppu.pal a = Memory.read s.ppu.pal a ∧
    Memory.read t.ppu.oam a = Memory.read s.ppu.oam a ∧ Memory.read t.cart.sram a = Memory.read s.cart.sram a ∧
    Memory.read t.cart.chrRam a = Memory.read s.cart.chrRam a

end Sys2Proof.Machine

/-! ## Decoding and the step -/

/-- Decode and encode agree for every well-formed stimulus in every context its row applies to, every operand at every
value. The word is the spec's own framing (30 R120 to R125, R143, R144, R154; D1, D2, D24, D25). -/
def Obligations.DecodeEncodeRoundTrip : Prop :=
  ∀ (c : DecodeCtx) (i : Instr), i.wf = true → i.applies c = true → decode c (encode c i) = .ok i

/-- Whatever the decoder gives is well formed and its row applies in the context (30 R125, R152, R154; D1, D2). -/
def Obligations.DecodedStimulusIsWellFormed : Prop :=
  ∀ (c : DecodeCtx) (st : Stimulus) (i : Instr), decode c st = .ok i → i.wf = true ∧ i.applies c = true

/-- The decoder gives the instruction of the first row of opcode_table.json that applies and matches, and refuses exactly
the words no row takes (30 R154; D1). The table is written for VRC2_ADDR_MODE = fixed_F003. -/
def Obligations.DecodeFollowsTheOpcodeTable : Prop :=
  ∀ (c : DecodeCtx) (st : Stimulus), c.addrMode = .fixedF003 →
    (match decode c st with
      | .ok i => some i.mnemonic
      | .error _ => none) = tableLookup c st.word

/-- The reserved words, and no others, are invalid (30 R124; D1). -/
def Obligations.ReservedWordsAreInvalid : Prop :=
  ∀ (c : DecodeCtx) (S : BitVec 28) (bytes : List Byte),
    (∃ why, decode c { word := S, bytes := bytes } = .error why) ↔
      (S.toNat / 2 ^ 26 = 3 ∨ (S.toNat / 2 ^ 26 = 1 ∧ S.toNat / 2 % 2 ^ 25 ≠ 0) ∨
        (S.toNat / 2 ^ 26 = 2 ∧ (S.toNat % 4 = 3 ∨ S.toNat / 4 % 2 ^ 24 ≠ 0)))

/-- Words written out from the spec's encodings (30 R120 to R125; spec/95 part 2.1) decode to their operations. -/
def Obligations.WordsOfTheSpecDecode : Prop :=
  (∀ c, decode c { word := 0x0200200, bytes := [] } = .ok .ppustatusR) ∧
  (∀ c, decode c { word := 0x1200080, bytes := [] } = .ok (.ppuctrlW 0x80)) ∧
  (∀ c, decode c { word := 0x3401402, bytes := [] } = .ok (.oamdmaW 0x02 true [])) ∧
  (∀ c, decode c { word := 0x1000055, bytes := [] } = .ok .notClaimed) ∧
  (∀ c, decode c { word := 0x16000AA, bytes := [] } = .ok (.mapW 0x6000 0xAA)) ∧
  (decode ⟨.axrom, .fixedF003, false⟩ { word := 0x1F00202, bytes := [] } = .ok (.axRegW 0x02)) ∧
  (decode ⟨.vrc2b, .fixedF003, false⟩ { word := 0x1F00202, bytes := [] } = .ok (.v2IrqCtrlW 0x02)) ∧
  (decode ⟨.vrc2a, .fixedF003, false⟩ { word := 0x1F00202, bytes := [] } = .ok (.v2IrqLatchHiW 0x02)) ∧
  (∀ c, decode c { word := 0x4000000, bytes := [] } = .ok .ppuStep) ∧
  (∀ c, decode c { word := 0x8000000, bytes := [] } = .ok .reset)

/-- A step runs the decoded instruction: the stimulus is taken off the queue, the returned byte and the condition start
absent, and `exec` runs (00 R7, D1; the queue is the model's, log 1 and log 2). -/
def Obligations.StepRunsTheDecodedStimulus : Prop :=
  ∀ (s : State) (st : Stimulus) (rest : List Stimulus) (i : Instr),
    s.io.stimuli = st :: rest → s.fatal = none → decode s.decodeCtx st = .ok i →
      step s = exec i { s with io := { s.io with stimuli := rest, result := none, condition := none } }

/-- Where a step runs nothing: no stimulus waits and the state is kept (60 R385; log 1), the block is fatal and the
stimulus is refused with the same condition (60 R371, 10 R50), or the word is reserved and the decoder refuses it (30
R124, 60 R376). No instruction sets `fatal`: the coverage of 20 R94 to R98 is total (20 R100). -/
def Obligations.StepStopsOnlyOnFatalOrReserved : Prop :=
  (∀ s : State, s.io.stimuli = [] → step s = .next s) ∧
  (∀ (s : State) (st : Stimulus) (rest : List Stimulus) (name : String) (addr : Nat),
    s.io.stimuli = st :: rest → s.fatal = some (name, addr) → step s = .fault (.contractViolation name addr)) ∧
  (∀ (s : State) (st : Stimulus) (rest : List Stimulus) (why : InvalidWord),
    s.io.stimuli = st :: rest → s.fatal = none → decode s.decodeCtx st = .error why → step s = .refused (.invalidWord why)) ∧
  (∀ (i : Instr) (s t : State), exec i s = .next t → t.fatal = s.fatal) ∧
  (∀ (s : State) (st : Stimulus) (rest : List Stimulus) (i : Instr),
    s.io.stimuli = st :: rest → s.fatal = none → decode s.decodeCtx st = .ok i → ∃ t, step s = .next t)

/-! ## Invariants and whole-machine rules -/

/-- The state after power-on and reset meets the invariant (the ranges of spec/10; the cartridge is the model's, log 4). -/
def Obligations.ResetStateMeetsTheInvariant : Prop := State.reset.inv = true

/-- Every step keeps the invariant: the ranges of the position (10 R20), the attribute latch (10 R40), the sprite count
(10 R42) and the IRQ dividers (10 R46), and the canonical form and size of every memory (10 R37 to R39, R48). -/
def Obligations.StepKeepsTheInvariant : Prop :=
  ∀ s t : State, s.inv = true → step s = .next t → t.inv = true

/-- Parameters, so the ROMs, and the mapper variant are fixed for the life of the block (00 R3, R6, 10 R48, 60 R380). -/
def Obligations.StepKeepsRomAndMapperVariant : Prop :=
  ∀ s t : State, step s = .next t → t.params = s.params ∧ t.variant = s.variant

/-- Only PPU_STEP, RESET and RESTORE write the position and the parity (10 R20, R21, 41 R203). -/
def Obligations.PositionMovesOnlyByStepResetRestore : Prop :=
  ∀ (i : Instr) (s t : State), exec i s = .next t → i ≠ .ppuStep → i ≠ .reset → (∀ bs, i ≠ .restore bs) →
    t.ppu.scanline = s.ppu.scanline ∧ t.ppu.cycle = s.ppu.cycle ∧ t.ppu.f = s.ppu.f

/-- The mirror mode is settable only by the mapper's registers, RESET and RESTORE (10 R43, 60 R380; D32). -/
def Obligations.MirrorIsSetOnlyByTheMapper : Prop :=
  ∀ (i : Instr) (s t : State), i.wf = true → exec i s = .next t → t.mapper.mirror ≠ s.mapper.mirror →
    (∃ d, i = .axRegW d) ∨ (∃ d, i = .v2MirrorW d) ∨ i = .reset ∨ ∃ bs, i = .restore bs

/-- A read changes nothing but the returned byte, except a Status read and a Data read (20 R101): those two change the
fields the rule names and nothing else of the block. -/
def Obligations.ReadsHaveNoOtherSideEffect : Prop :=
  (∀ (i : Instr) (s t : State),
    (i = .ppuctrlR ∨ i = .ppumaskR ∨ i = .oamaddrR ∨ i = .oamdataR ∨ i = .ppuscrollR ∨ i = .ppuaddrR ∨ ∃ a, i = .mapR a) →
    exec i s = .next t → t = { s with io := { s.io with result := t.io.result } }) ∧
  (∀ s t : State, exec .ppustatusR s = .next t →
    t = { s with
      ppu := { s.ppu with nmiOccurred := false, w := false, nmiPrevious := t.ppu.nmiPrevious, nmiDelay := t.ppu.nmiDelay }
      io := { s.io with result := t.io.result } }) ∧
  (∀ s t : State, exec .ppudataR s = .next t →
    t = { s with
      ppu := { s.ppu with readBuffer := t.ppu.readBuffer, v := t.ppu.v }
      io := { s.io with result := t.io.result } })

/-- Palette cells 16, 20, 24, 28 are written by nothing but RESET and RESTORE (10 R38, 70 R412). -/
def Obligations.AliasedPaletteCellsAreNeverWritten : Prop :=
  ∀ (i : Instr) (s t : State), s.inv = true → exec i s = .next t → i ≠ .reset → (∀ bs, i ≠ .restore bs) →
    ∀ k, k = 16 ∨ k = 20 ∨ k = 24 ∨ k = 28 → Memory.read t.ppu.pal k = Memory.read s.ppu.pal k

/-- IrqTrigger is emitted only by a tick that finds the latch 0 and leaves it 1, IrqCancel only by an acknowledge that
finds it 1 and leaves it 0, at most one of them; the latch changes without an event only by RESET and RESTORE, which emit
nothing. So the two alternate strictly (60 R363). -/
def Obligations.IrqTriggerAndCancelAlternate : Prop :=
  ∀ (i : Instr) (s t : State), i.wf = true → exec i s = .next t →
    ∃ es, t.io.outputs = s.io.outputs ++ es ∧
      (Event.irqTrigger ∈ es → i = .mapperTick ∧ es = [.irqTrigger] ∧ s.irqAsserted = false ∧ t.irqAsserted = true) ∧
      (Event.irqCancel ∈ es → i = .v2IrqAckW ∧ es = [.irqCancel] ∧ s.irqAsserted = true ∧ t.irqAsserted = false) ∧
      (t.irqAsserted ≠ s.irqAsserted →
        Event.irqTrigger ∈ es ∨ Event.irqCancel ∈ es ∨ i = .reset ∨ ∃ bs, i = .restore bs) ∧
      (i = .reset ∨ (∃ bs, i = .restore bs) → es = [])

/-- Which events a stimulus may emit (60 R365; D8): each kind comes only from the instructions `mayEmit` names; events are
appended in the order of the pseudocode, a PPU_STEP emitting NmiRaise, then PixelWrite, then FramePresent, each at most
once, and every other stimulus at most one event. -/
def Obligations.EventsOfOneStimulus : Prop :=
  ∀ (i : Instr) (s t : State), exec i s = .next t →
    ∃ es, t.io.outputs = s.io.outputs ++ es ∧
      (i.wf = true → ∀ e ∈ es, mayEmit i e) ∧
      (i ≠ .ppuStep → es.length ≤ 1) ∧
      (i = .ppuStep → ∃ a b c, es = a ++ b ++ c ∧ (a = [] ∨ a = [.nmiRaise]) ∧
        (b = [] ∨ ∃ x y idx col, b = [.pixelWrite x y idx col]) ∧ (c = [] ∨ c = [.framePresent]))

/-- PPU_STEP and MAPPER_TICK commute on the state; only the order of their events in the output list may differ
(41 R218). -/
def Obligations.PpuStepAndMapperTickCommute : Prop :=
  ∀ s : State, ∃ s1 s2 t u,
    exec .ppuStep s = .next s1 ∧ exec .mapperTick s1 = .next t ∧
    exec .mapperTick s = .next s2 ∧ exec .ppuStep s2 = .next u ∧
    t = { u with io := { u.io with outputs := t.io.outputs } } ∧ t.io.outputs.Perm u.io.outputs

/-! ## Reset and snapshots -/

/-- RESET writes every field to the value of the table of 10 R52 and keeps the cartridge's RAM, `fatal` and the
parameters, with no event (70 R390, R392). The values but the position are the spec's decision (D9, D23, D27, D29). -/
def Obligations.ResetWritesTheResetValues : Prop :=
  ∀ s : State, ∃ t, exec .reset s = .next t ∧ t = { s with ppu := t.ppu, mapper := t.mapper } ∧
    t.ppu.scanline.toNat = 240 ∧ t.ppu.cycle.toNat = 340 ∧ t.ppu.f = false ∧
    t.ppu.v = 0 ∧ t.ppu.t = 0 ∧ t.ppu.x = 0 ∧ t.ppu.w = false ∧ t.ppu.latch = 0 ∧ t.ppu.readBuffer = 0 ∧
    t.ppu.ctrl = Control.ofByte 0 ∧ t.ppu.mask = Mask.ofByte 0 ∧
    t.ppu.nmiOccurred = false ∧ t.ppu.spr0Hit = false ∧ t.ppu.sprOverflow = false ∧
    t.ppu.nmiPrevious = false ∧ t.ppu.nmiDelay = 0 ∧ t.ppu.oamAddr = 0 ∧
    t.ppu.oam = s.params.oamInit ∧ t.ppu.pal = s.params.palInit ∧ t.ppu.nt = s.params.ntInit ∧
    t.ppu.ntByte = 0 ∧ t.ppu.atBits = 0 ∧ t.ppu.patLo = 0 ∧ t.ppu.patHi = 0 ∧ t.ppu.tileData = 0 ∧ t.ppu.sprCount = 0 ∧
    (∀ k, k < 8 → t.ppu.spriteAt k = SpriteEntry.zero) ∧ t.variant = s.variant ∧
    (s.variant = .axrom → t.mapper = { mirror := .single0, regs := .axrom 0 }) ∧
    (∀ rev r, s.mapper.regs = .vrc2 rev r → t.mapper = { mirror := .vertical, regs := .vrc2 rev Vrc2Regs.zero }) ∧
    (∀ k : Fin 8, Vrc2Regs.zero.chrReg.get k = 0)

/-- The four laws of a snapshot (46 R350): SAVE changes no state; the length depends on the parameters alone; RESTORE of
`Save(s)` gives `s` in every field but `fatal`; RESTORE of a sequence `Save` cannot produce raises MalformedSnapshot and
leaves the state as it was. -/
def Obligations.SnapshotLaws : Prop :=
  (∀ s : State, exec .save s =
    .next { s with io := { s.io with outputs := s.io.outputs ++ [.snapshot (snapshotBytes s)] } }) ∧
  (∀ s : State, (snapshotBytes s).length = snapshotLength s.variant s.params) ∧
  (∀ s s' : State, s.inv = true → s'.inv = true → s'.params = s.params → s'.variant = s.variant →
    exec (.restore (snapshotBytes s)) s' = .next { s with fatal := s'.fatal, io := s'.io }) ∧
  (∀ (s' : State) (bytes : List Byte), s'.inv = true →
    (∀ s : State, s.inv = true → s.params = s'.params → s.variant = s'.variant → snapshotBytes s ≠ bytes) →
    exec (.restore bytes) s' = .next { s' with io := { s'.io with condition := some .malformedSnapshot } })

/-- Where every field of a snapshot stands (46 R351, 30 R147; D30; the offsets of spec/95 part 2.9). -/
def Obligations.SnapshotOffsets : Prop :=
  ∀ (s : State) (bs : List Byte), bs = snapshotBytes s →
    let b := fun k => bs.getD k 0
    b 0 = 1 ∧ b 1 = (match s.variant with | .axrom => 0 | .vrc2a => 1 | .vrc2b => 2) ∧
    numberAt bs 2 2 = s.ppu.scanline.toNat ∧ numberAt bs 4 2 = s.ppu.cycle.toNat ∧ b 6 = bitByte s.ppu.f ∧
    numberAt bs 7 2 = s.ppu.v.toNat ∧ numberAt bs 9 2 = s.ppu.t.toNat ∧ (b 11).toNat = s.ppu.x.toNat ∧
    b 12 = bitByte s.ppu.w ∧ b 13 = s.ppu.latch ∧ b 14 = s.ppu.readBuffer ∧
    Control.ofByte (b 15) = s.ppu.ctrl ∧ Mask.ofByte (b 16) = s.ppu.mask ∧
    (∀ k, k < 8 → (b 17).getLsbD k =
      if k = 7 then s.ppu.nmiOccurred else if k = 6 then s.ppu.spr0Hit else if k = 5 then s.ppu.sprOverflow else false) ∧
    b 18 = bitByte s.ppu.nmiPrevious ∧ b 19 = s.ppu.nmiDelay ∧ b 20 = s.ppu.oamAddr ∧
    (∀ k, k < 256 → b (21 + k) = Memory.read s.ppu.oam k) ∧ (∀ k, k < 32 → b (277 + k) = Memory.read s.ppu.pal k) ∧
    (∀ k, k < 2048 → b (309 + k) = Memory.read s.ppu.nt k) ∧
    b 2357 = s.ppu.ntByte ∧ (b 2358).toNat = s.ppu.atBits.toNat ∧ b 2359 = s.ppu.patLo ∧ b 2360 = s.ppu.patHi ∧
    numberAt bs 2361 8 = s.ppu.tileData.toNat ∧ (b 2369).toNat = s.ppu.sprCount.toNat ∧
    (∀ k, k < 8 → numberAt bs (2370 + 4 * k) 4 = (s.ppu.spriteAt k).pattern.toNat ∧ b (2402 + k) = (s.ppu.spriteAt k).x ∧
      b (2410 + k) = bitByte (s.ppu.spriteAt k).prio ∧ (b (2418 + k)).toNat = (s.ppu.spriteAt k).index.toNat) ∧
    b 2426 = (match s.mapper.mirror with
      | .horizontal => 0 | .vertical => 1 | .single0 => 2 | .single1 => 3 | .fourScreen => 4) ∧
    (∀ bank, s.mapper.regs = .axrom bank → (b 2427).toNat = bank.toNat) ∧
    (∀ rev r, s.mapper.regs = .vrc2 rev r → (b 2427).toNat = r.prgBank0.toNat ∧ (b 2428).toNat = r.prgBank1.toNat ∧
      (∀ k : Fin 8, b (2429 + k.val) = r.chrReg.get k) ∧ b 2437 = r.irqReload ∧ b 2438 = r.irqCounter ∧
      numberAt bs 2439 2 = r.irqPrescaler.toNat ∧ (b 2441).toNat = r.irqDiv3.toNat ∧
      ∀ k, k < 8 → (b 2442).getLsbD k = if k = 0 then r.irqEnableOnAck else if k = 1 then r.irqEnable
        else if k = 2 then r.irqCycleMode else if k = 3 then r.irqTriggered else false) ∧
    ∀ base, base = (if s.variant = .axrom then 2428 else 2443) →
      (∀ k, k < s.params.sramLen → b (base + k) = Memory.read s.cart.sram k) ∧
      (s.params.chrIsRam = true → ∀ k, k < s.params.chrLen → b (base + s.params.sramLen + k) = Memory.read s.cart.chrRam k)

/-! ## The PPU registers -/

/-- A Control write (40 R162): the latch, the seven fields (bit positions 30 R126, D3), bits 11:10 of `t` and no other bit
of it, the NMI line re-evaluated (41 R215, D7), and nothing else. -/
def Obligations.ControlWriteResult : Prop :=
  ∀ (d : Byte) (s : State), ∃ t, exec (.ppuctrlW d) s = .next t ∧
    t = { s with ppu := { s.ppu with
      latch := d, ctrl := t.ppu.ctrl, t := t.ppu.t, nmiPrevious := t.ppu.nmiPrevious, nmiDelay := t.ppu.nmiDelay } } ∧
    t.ppu.ctrl.ntSelect.toNat = d.toNat % 4 ∧ t.ppu.ctrl.incMode = bitOf d 2 ∧ t.ppu.ctrl.sprTable = bitOf d 3 ∧
    t.ppu.ctrl.bgTable = bitOf d 4 ∧ t.ppu.ctrl.sprSize = bitOf d 5 ∧ t.ppu.ctrl.masterSlave = bitOf d 6 ∧
    t.ppu.ctrl.nmiOutput = bitOf d 7 ∧
    (∀ k, k < 15 → t.ppu.t.getLsbD k = if k = 10 then bitOf d 0 else if k = 11 then bitOf d 1 else s.ppu.t.getLsbD k) ∧
    t.ppu.nmiPrevious = (bitOf d 7 && s.ppu.nmiOccurred) ∧
    t.ppu.nmiDelay =
      if bitOf d 7 && s.ppu.nmiOccurred && !s.ppu.nmiPrevious then BitVec.ofNat 8 s.params.nmiDelay else s.ppu.nmiDelay

/-- A Mask write (40 R163, 30 R127; D4): the latch, the eight fields, and nothing else. -/
def Obligations.MaskWriteResult : Prop :=
  ∀ (d : Byte) (s : State), ∃ t, exec (.ppumaskW d) s = .next t ∧
    t = { s with ppu := { s.ppu with latch := d, mask := t.ppu.mask } } ∧
    t.ppu.mask = { grayscale := bitOf d 0, showLeftBg := bitOf d 1, showLeftSpr := bitOf d 2, showBg := bitOf d 3,
                   showSpr := bitOf d 4, emphR := bitOf d 5, emphG := bitOf d 6, emphB := bitOf d 7 }

/-- A Status read (40 R164): the flags over the open-bus residue; it clears `nmi_occurred`, re-evaluates the NMI line
(which is then low) and resets the toggle, and leaves everything else. -/
def Obligations.StatusReadResult : Prop :=
  ∀ s : State, ∃ t r, exec .ppustatusR s = .next t ∧
    t = { s with
      ppu := { s.ppu with nmiOccurred := false, nmiPrevious := false, w := false }
      io := { s.io with result := some r } } ∧
    ∀ k, k < 8 → r.getLsbD k =
      if k = 7 then s.ppu.nmiOccurred else if k = 6 then s.ppu.spr0Hit else if k = 5 then s.ppu.sprOverflow
      else s.ppu.latch.getLsbD k

/-- A read of a write-only register returns the latch and changes nothing (40 R165; D5); a read the block does not claim
returns none and changes nothing (40 R182; D34). -/
def Obligations.OpenBusReads : Prop :=
  (∀ (s : State) (i : Instr),
    (i = .ppuctrlR ∨ i = .ppumaskR ∨ i = .oamaddrR ∨ i = .ppuscrollR ∨ i = .ppuaddrR) →
    exec i s = .next { s with io := { s.io with result := some s.ppu.latch } }) ∧
  (∀ s : State, exec .notClaimed s = .next { s with io := { s.io with result := none } })

/-- A Status write loads the latch only (40 R171), an OAMAddress write the latch and `oam_addr` (40 R166; D34). -/
def Obligations.StatusAndOamAddressWrites : Prop :=
  ∀ (d : Byte) (s : State),
    exec (.ppustatusW d) s = .next { s with ppu := { s.ppu with latch := d } } ∧
    exec (.oamaddrW d) s = .next { s with ppu := { s.ppu with latch := d, oamAddr := d } }

/-- An OAMData read returns the byte at the current OAM address without side effect and never increments (40 R167). -/
def Obligations.OamDataReadResult : Prop :=
  ∀ s : State, exec .oamdataR s =
    .next { s with io := { s.io with result := some (Memory.read s.ppu.oam s.ppu.oamAddr.toNat) } }

/-- An OAMData write stores at the current OAM address, which then advances with 8-bit wraparound, and loads the latch;
every other byte of OAM and everything else is unchanged (40 R168). -/
def Obligations.OamDataWriteResult : Prop :=
  ∀ (d : Byte) (s : State), s.inv = true → ∃ t, exec (.oamdataW d) s = .next t ∧
    t = { s with ppu := { s.ppu with latch := d, oam := t.ppu.oam, oamAddr := t.ppu.oamAddr } } ∧
    t.ppu.oamAddr.toNat = (s.ppu.oamAddr.toNat + 1) % 256 ∧
    Memory.read t.ppu.oam s.ppu.oamAddr.toNat = d ∧
    ∀ a, a ≠ s.ppu.oamAddr.toNat → Memory.read t.ppu.oam a = Memory.read s.ppu.oam a

/-- The two Scroll writes and the first Address write (40 R169, R170, R172, 30 R130, R131; D6): the bits of `t` and `x`
they load, the toggle, the latch, and nothing else. -/
def Obligations.ScrollAndFirstAddressWrites : Prop :=
  ∀ (d : Byte) (s : State),
    (∃ t, exec (.ppuscrollW1 d) s = .next t ∧
      t = { s with ppu := { s.ppu with latch := d, t := t.ppu.t, x := t.ppu.x, w := true } } ∧
      t.ppu.x.toNat = d.toNat % 8 ∧ coarseX t.ppu.t = d.toNat / 8 ∧ t.ppu.t.toNat / 32 = s.ppu.t.toNat / 32) ∧
    (∃ t, exec (.ppuscrollW2 d) s = .next t ∧
      t = { s with ppu := { s.ppu with latch := d, t := t.ppu.t, w := false } } ∧
      fineY t.ppu.t = d.toNat % 8 ∧ coarseY t.ppu.t = d.toNat / 8 ∧ coarseX t.ppu.t = coarseX s.ppu.t ∧
      t.ppu.t.toNat / 1024 % 4 = s.ppu.t.toNat / 1024 % 4) ∧
    (∃ t, exec (.ppuaddrW1 d) s = .next t ∧
      t = { s with ppu := { s.ppu with latch := d, t := t.ppu.t, w := true } } ∧
      t.ppu.t.toNat = (d.toNat % 64) * 256 + s.ppu.t.toNat % 256)

/-- The second Address write loads `t[7:0]`, copies `t` to `v`, resets the toggle, loads the latch, and changes nothing
else (40 R173). -/
def Obligations.SecondAddressWriteResult : Prop :=
  ∀ (d : Byte) (s : State), ∃ t, exec (.ppuaddrW2 d) s = .next t ∧
    t = { s with ppu := { s.ppu with latch := d, t := t.ppu.t, v := t.ppu.v, w := false } } ∧
    t.ppu.t.toNat = s.ppu.t.toNat / 256 * 256 + d.toNat ∧ t.ppu.v = t.ppu.t

/-- Two Address writes, delivered as words, from `w = 0`: both `v` and `t` end `((high & 0x3F) << 8) | low` and the toggle
is "first" again (40 R174). -/
def Obligations.AddressPairLaw : Prop :=
  ∀ (hi lo : Byte) (s : State) (rest : List Stimulus), s.ppu.w = false → s.fatal = none →
    s.io.stimuli = { word := writeWord 0x2006 hi, bytes := [] } :: { word := writeWord 0x2006 lo, bytes := [] } :: rest →
    ∃ t, Sys2Proof.core.run 2 s = .next t ∧ t.io.stimuli = rest ∧
      t.ppu.v.toNat = (hi.toNat % 64) * 256 + lo.toNat ∧ t.ppu.t = t.ppu.v ∧ t.ppu.w = false

/-- A Data read (40 R176, R175, 20 R109; D36): below the palette the old buffer is returned and the addressed byte
buffered; in it the addressed byte is returned and the nametable byte 0x1000 below buffered; `v` advances by 1 or 32 mod
0x8000; nothing else changes. -/
def Obligations.DataReadResult : Prop :=
  ∀ s : State, ∃ t r, exec .ppudataR s = .next t ∧
    t = { s with
      ppu := { s.ppu with readBuffer := t.ppu.readBuffer, v := t.ppu.v }
      io := { s.io with result := some r } } ∧
    t.ppu.v.toNat = (s.ppu.v.toNat + if s.ppu.ctrl.incMode then 32 else 1) % 0x8000 ∧
    ∀ a, a = s.ppu.v.toNat % 0x4000 →
      (a < 0x3F00 → r = s.ppu.readBuffer ∧ t.ppu.readBuffer = ppuRead s (BitVec.ofNat 14 a)) ∧
      (0x3F00 ≤ a → r = Memory.read s.ppu.pal (palIndex (BitVec.ofNat 5 a)) ∧
        t.ppu.readBuffer = Memory.read s.ppu.nt (ntIndex s.mapper.mirror (BitVec.ofNat 14 (a - 0x1000))))

/-- A Data write (40 R177, R175, 20 R87; D18): the latch, `v` advanced by 1 or 32 mod 0x8000, and one byte stored at
`v[13:0]`: palette, nametable, or character memory, which a ROM tolerates with a `Log` (44 R295, 45 R314; D21). Every
other byte of every memory reads as before, and nothing else changes. -/
def Obligations.DataWriteResult : Prop :=
  ∀ (d : Byte) (s : State), s.inv = true → ∃ t, exec (.ppudataW d) s = .next t ∧
    t = { s with
      ppu := { s.ppu with latch := d, v := t.ppu.v, nt := t.ppu.nt, pal := t.ppu.pal }
      cart := { s.cart with chrRam := t.cart.chrRam }
      io := { s.io with outputs := t.io.outputs } } ∧
    t.ppu.v.toNat = (s.ppu.v.toNat + if s.ppu.ctrl.incMode then 32 else 1) % 0x8000 ∧
    ∀ a : PpuAddr, a.toNat = s.ppu.v.toNat % 0x4000 →
      (0x3F00 ≤ a.toNat → t.ppu.nt = s.ppu.nt ∧ t.cart = s.cart ∧ t.io = s.io ∧
        ∀ k, Memory.read t.ppu.pal k = if k = palIndex (a.extractLsb' 0 5) then d else Memory.read s.ppu.pal k) ∧
      (0x2000 ≤ a.toNat → a.toNat < 0x3F00 → t.ppu.pal = s.ppu.pal ∧ t.cart = s.cart ∧ t.io = s.io ∧
        ∀ k, Memory.read t.ppu.nt k = if k = ntIndex s.mapper.mirror a then d else Memory.read s.ppu.nt k) ∧
      (a.toNat < 0x2000 → t.ppu.pal = s.ppu.pal ∧ t.ppu.nt = s.ppu.nt ∧
        (s.params.chrIsRam = true → t.io = s.io ∧
          ∀ k, Memory.read t.cart.chrRam k = if k = chrIndex s (a.setWidth 16) then d else Memory.read s.cart.chrRam k) ∧
        (s.params.chrIsRam = false → t.cart = s.cart ∧
          t.io.outputs = s.io.outputs ++ [.log (variantName s.variant) (a.setWidth 16) d]))

/-- OAM DMA (40 R180; D35): source byte i lands in `oam[(k + i) mod 256]` for `oam_addr = k`, which ends where it began;
one StallRequest of 513 or 514; the latch only when the parameter says so; nothing else changes. The bytes are the Bus's
answers, free where the driver delivered none (log 8). -/
def Obligations.OamDmaResult : Prop :=
  ∀ (page : Byte) (odd : Bool) (bus : List Byte) (s : State), s.inv = true →
    ∃ t, exec (.oamdmaW page odd bus) s = .next t ∧
      t = { s with
        ppu := { s.ppu with latch := t.ppu.latch, oam := t.ppu.oam }
        io := { s.io with outputs := s.io.outputs ++ [.stallRequest (if odd then 514 else 513)],
                          busReads := s.io.busReads + 256 } } ∧
      t.ppu.latch = (if s.params.dmaWriteUpdatesLatch then page else s.ppu.latch) ∧
      (∀ i, i < 256 → Memory.read t.ppu.oam ((s.ppu.oamAddr.toNat + i) % 256) =
        bus.getD i (Config.cpuBusRead (s.io.busReads + i) (BitVec.ofNat 16 (page.toNat * 256 + i)))) ∧
      ∀ a, 256 ≤ a → Memory.read t.ppu.oam a = Memory.read s.ppu.oam a

/-! ## Address spaces -/

/-- The nametables by mirror mode (20 R89, R90; D19): the physical bank of each logical table, read by `PpuRead`. -/
def Obligations.NametableMirroring : Prop :=
  ∀ (s : State) (a : PpuAddr), 0x2000 ≤ a.toNat → a.toNat < 0x3F00 →
    ∀ table, table = a.toNat / 0x400 % 4 →
      ppuRead s a = Memory.read s.ppu.nt (a.toNat % 0x400 + 0x400 *
        (match s.mapper.mirror with
          | .horizontal => if table = 0 ∨ table = 1 then 0 else 1
          | .vertical => if table = 0 ∨ table = 2 then 0 else 1
          | .single0 => 0
          | .single1 => 1
          | .fourScreen => if table = 0 ∨ table = 2 then 0 else 1))

/-- After a Data write in the palette range, a palette address reads the byte written exactly when it names the same cell:
indices 16, 20, 24, 28 alias 0, 4, 8, 12, and the palette repeats every 32 addresses (20 R91 to R93; D20, D18). -/
def Obligations.PaletteWriteReadsBack : Prop :=
  ∀ (d : Byte) (s t : State) (a : PpuAddr), s.inv = true → 0x3F00 ≤ s.ppu.v.toNat % 0x4000 → 0x3F00 ≤ a.toNat →
    exec (.ppudataW d) s = .next t →
    ∀ i j, i = s.ppu.v.toNat % 32 → j = a.toNat % 32 →
      ppuRead t a = if i = j ∨ (i % 4 = 0 ∧ (i + 16) % 32 = j) then d else ppuRead s a

/-! ## The mapper -/

/-- A mapper read by the CPU (40 R183, 44 R291, R294, 45 R311, R313; D21, D23, D24): the high address byte in the low range,
save RAM in its window, program ROM through the banks above; nothing but the returned byte changes. -/
def Obligations.MapperReadResult : Prop :=
  ∀ (s : State) (addr : CpuAddr), s.inv = true → (Instr.mapR addr).wf = true →
    ∃ r, exec (.mapR addr) s = .next { s with io := { s.io with result := some r } } ∧
      (addr.toNat < 0x6000 → r.toNat = addr.toNat / 256) ∧
      (0x6000 ≤ addr.toNat → addr.toNat < 0x8000 →
        r = Memory.read s.cart.sram ((addr.toNat - 0x6000) % s.params.sramLen)) ∧
      (0x8000 ≤ addr.toNat → ∀ bank, s.mapper.regs = .axrom bank →
        r = Memory.read s.params.prg (bank.toNat % (s.params.prgLen / 0x8000) * 0x8000 + (addr.toNat - 0x8000))) ∧
      (0x8000 ≤ addr.toNat → ∀ rev v, s.mapper.regs = .vrc2 rev v →
        r = Memory.read s.params.prg (addr.toNat % 0x2000 + 0x2000 *
          (if addr.toNat < 0xA000 then v.prgBank0.toNat % (s.params.prgLen / 0x2000)
           else if addr.toNat < 0xC000 then v.prgBank1.toNat % (s.params.prgLen / 0x2000)
           else if addr.toNat < 0xE000 then s.params.prgLen / 0x2000 - 2
           else s.params.prgLen / 0x2000 - 1)))

/-- A mapper write below the registers (40 R183, 20 R95, R98, 60 R372; D21): logged and ignored in the low range, stored in
the RAM window; every other byte reads as before and nothing else changes. -/
def Obligations.MapperWriteResult : Prop :=
  ∀ (s : State) (addr : CpuAddr) (d : Byte), s.inv = true → (Instr.mapW addr d).wf = true →
    (addr.toNat < 0x6000 → exec (.mapW addr d) s =
      .next { s with io := { s.io with outputs := s.io.outputs ++ [.log (variantName s.variant) addr d] } }) ∧
    (0x6000 ≤ addr.toNat → ∃ t, exec (.mapW addr d) s = .next t ∧
      t = { s with cart := { s.cart with sram := t.cart.sram } } ∧
      ∀ k, Memory.read t.cart.sram k =
        if k = (addr.toNat - 0x6000) % s.params.sramLen then d else Memory.read s.cart.sram k)

/-- AxROM's one register answers every write at or above 0x8000: the program bank is `value & 7`, the mirror mode is
Single1 when bit 4 is set and Single0 otherwise, the other bits are ignored (30 R142); the bank-switch signal is raised
exactly when the bank changes (44 R293; D23). -/
def Obligations.AxRomRegisterWrite : Prop :=
  ∀ (s : State) (bank : BitVec 3) (addr : CpuAddr) (d : Byte), s.mapper.regs = .axrom bank → 0x8000 ≤ addr.toNat →
    decode s.decodeCtx { word := writeWord addr d, bytes := [] } = .ok (.axRegW d) ∧
    ∃ t new, exec (.axRegW d) s = .next t ∧ new.toNat = d.toNat % 8 ∧
      t = { s with
        mapper := { mirror := if d.toNat / 16 % 2 = 1 then .single1 else .single0, regs := .axrom new }
        io := { s.io with outputs := s.io.outputs ++ if new = bank then [] else [.bankSwitch 0x8000 0xFFFF] } }

/-- VRC2 program banks and mirroring (45 R315, R316, R317; D24, D27): the five-bit bank and its bank-switch signal exactly
when it changes, the mirror mode by bit 0, and nothing else. -/
def Obligations.Vrc2BankAndMirrorWrites : Prop :=
  ∀ (s : State) (rev : Revision) (r : Vrc2Regs) (d : Byte), s.mapper.regs = .vrc2 rev r →
    (∃ t new, exec (.v2Prg0W d) s = .next t ∧ new.toNat = d.toNat % 32 ∧
      t = { s with
        mapper := { s.mapper with regs := .vrc2 rev { r with prgBank0 := new } }
        io := { s.io with outputs := s.io.outputs ++ if new = r.prgBank0 then [] else [.bankSwitch 0x8000 0x9FFF] } }) ∧
    (∃ t new, exec (.v2Prg1W d) s = .next t ∧ new.toNat = d.toNat % 32 ∧
      t = { s with
        mapper := { s.mapper with regs := .vrc2 rev { r with prgBank1 := new } }
        io := { s.io with outputs := s.io.outputs ++ if new = r.prgBank1 then [] else [.bankSwitch 0xA000 0xBFFF] } }) ∧
    exec (.v2MirrorW d) s =
      .next { s with mapper := { s.mapper with mirror := if d.toNat % 2 = 1 then .horizontal else .vertical } }

/-- A VRC2 character register write (45 R318; D24, D26): one nibble of register `(group - 0xB) * 2 + sub[1]`, the low one
when `sub[0] = 0` and the high one when it is 1; the other nibble, the other seven registers and everything else are
unchanged, and there is no event. -/
def Obligations.Vrc2CharacterBankWrite : Prop :=
  ∀ (s : State) (rev : Revision) (r : Vrc2Regs) (group : BitVec 4) (sub : BitVec 2) (d : Byte),
    s.mapper.regs = .vrc2 rev r → (Instr.v2ChrW group sub d).wf = true →
    ∃ r', exec (.v2ChrW group sub d) s = .next { s with mapper := { s.mapper with regs := .vrc2 rev r' } } ∧
      r' = { r with chrReg := r'.chrReg } ∧
      ∀ k : Fin 8, (r'.chrReg.get k).toNat =
        if k.val = (group.toNat - 0xB) * 2 + sub.toNat / 2 then
          if sub.toNat % 2 = 0 then (r.chrReg.get k).toNat / 16 * 16 + d.toNat % 16
          else d.toNat % 16 * 16 + (r.chrReg.get k).toNat % 16
        else (r.chrReg.get k).toNat

/-- Character data through the banks (45 R314, 44 R295, 30 R145; D26): 1 KB regions on VRC2, revision A shifting the register
right by 1, one unbanked region on AxROM, read by `PpuRead` below 0x2000. -/
def Obligations.CharacterDataIsBanked : Prop :=
  ∀ (s : State) (a : PpuAddr) (chr : Memory), a.toNat < 0x2000 →
    chr = (if s.params.chrIsRam then s.cart.chrRam else s.params.chr) →
    (∀ bank, s.mapper.regs = .axrom bank → ppuRead s a = Memory.read chr a.toNat) ∧
    (∀ rev r (k : Fin 8), s.mapper.regs = .vrc2 rev r → k.val = a.toNat / 0x400 →
      ppuRead s a = Memory.read chr (a.toNat % 0x400 + 0x400 *
        ((match rev with
          | .a => (r.chrReg.get k).toNat / 2
          | .b => (r.chrReg.get k).toNat) % (s.params.chrLen / 0x400))))

/-- The VRC2 IRQ reload and control writes (45 R321, R322, R323, 30 R146; D28): the nibbles of the reload value; the three
control flags, both dividers zeroed, the counter reloaded when enabling; the triggered latch is kept and nothing else
changes. -/
def Obligations.Vrc2IrqReloadAndControlWrites : Prop :=
  ∀ (s : State) (rev : Revision) (r : Vrc2Regs) (d : Byte), s.mapper.regs = .vrc2 rev r →
    (∃ new : Byte, new.toNat = r.irqReload.toNat / 16 * 16 + d.toNat % 16 ∧ exec (.v2IrqLatchLoW d) s =
      .next { s with mapper := { s.mapper with regs := .vrc2 rev { r with irqReload := new } } }) ∧
    (∃ new : Byte, new.toNat = d.toNat % 16 * 16 + r.irqReload.toNat % 16 ∧ exec (.v2IrqLatchHiW d) s =
      .next { s with mapper := { s.mapper with regs := .vrc2 rev { r with irqReload := new } } }) ∧
    exec (.v2IrqCtrlW d) s = .next { s with mapper := { s.mapper with regs := .vrc2 rev { r with
      irqEnableOnAck := bitOf d 0, irqEnable := bitOf d 1, irqCycleMode := bitOf d 2, irqDiv3 := 0, irqPrescaler := 0,
      irqCounter := if bitOf d 1 then r.irqReload else r.irqCounter } } }

/-- The VRC2 IRQ acknowledge (45 R324): IrqCancel exactly when the latch was set, the latch cleared, the enable flag taken
from enable-on-acknowledge; counter, reload and dividers are not changed, nor is anything else. -/
def Obligations.Vrc2IrqAcknowledge : Prop :=
  ∀ (s : State) (rev : Revision) (r : Vrc2Regs), s.mapper.regs = .vrc2 rev r →
    exec .v2IrqAckW s = .next { s with
      mapper := { s.mapper with regs := .vrc2 rev { r with irqTriggered := false, irqEnable := r.irqEnableOnAck } }
      io := { s.io with outputs := s.io.outputs ++ if r.irqTriggered then [.irqCancel] else [] } }

/-- Every write at or above 0x8000, as the decoder reads it by group and sub-register, does what `MapperWrite` does at that
address (45 R312, 44 R292, 30 R125), in either address mode; and which register that is on VRC2 (30 R143, R144; D24, D25):
`raw` is `addr[1:0]`, under heuristic_F00F the larger of `addr[1:0]` and `addr[3:2]`, and revision A swaps its two bits. -/
def Obligations.RegisterWritesAreMapperWrites : Prop :=
  ∀ (s : State) (addr : CpuAddr) (d : Byte), 0x8000 ≤ addr.toNat →
    (∃ i t, decode s.decodeCtx { word := writeWord addr d, bytes := [] } = .ok i ∧
      exec i s = .next t ∧ exec (.mapW addr d) s = .next t) ∧
    ∀ (rev : Revision) (r : Vrc2Regs) (raw sub : Nat), s.mapper.regs = .vrc2 rev r →
      raw = (match s.params.vrc2AddrMode with
        | .fixedF003 => addr.toNat % 4
        | .heuristicF00F => if addr.toNat % 4 < addr.toNat / 4 % 4 then addr.toNat / 4 % 4 else addr.toNat % 4) →
      sub = (match rev with
        | .a => raw % 2 * 2 + raw / 2
        | .b => raw) →
      decode s.decodeCtx { word := writeWord addr d, bytes := [] } = .ok
        (if addr.toNat < 0x9000 then .v2Prg0W d
         else if addr.toNat < 0xA000 then .v2MirrorW d
         else if addr.toNat < 0xB000 then .v2Prg1W d
         else if addr.toNat < 0xF000 then .v2ChrW (BitVec.ofNat 4 (addr.toNat / 0x1000)) (BitVec.ofNat 2 sub) d
         else if sub = 0 then .v2IrqLatchLoW d
         else if sub = 1 then .v2IrqLatchHiW d
         else if sub = 2 then .v2IrqCtrlW d
         else .v2IrqAckW)

/-- A mapper-register instruction asked of a block of another variant is refused by name: the variant has no such register
(30 R154). The refusal is the model's choice (log 13); by `DecodedStimulusIsWellFormed` no step reaches it. -/
def Obligations.RegistersOfAnotherVariantAreRefused : Prop :=
  (∀ (s : State) (rev : Revision) (r : Vrc2Regs) (d : Byte), s.mapper.regs = .vrc2 rev r →
    exec (.axRegW d) s = .refused (.absentRegister "AX_REG_W")) ∧
  ∀ (s : State) (bank : BitVec 3) (i : Instr), s.mapper.regs = .axrom bank →
    ((∃ d, i = .v2Prg0W d ∨ i = .v2MirrorW d ∨ i = .v2Prg1W d ∨ i = .v2IrqLatchLoW d ∨ i = .v2IrqLatchHiW d ∨
      i = .v2IrqCtrlW d) ∨ i = .v2IrqAckW ∨ ∃ group sub d, i = .v2ChrW group sub d) →
    exec i s = .refused (.absentRegister i.mnemonic)

/-- MAPPER_TICK on AxROM changes nothing and emits nothing (44 R297). -/
def Obligations.AxRomTickDoesNothing : Prop :=
  ∀ (s : State) (bank : BitVec 3), s.mapper.regs = .axrom bank → exec .mapperTick s = .next s

/-- MAPPER_TICK on VRC2 (45 R330, R331; D28): the divide-by-3, the prescaler of 341 in scanline-count mode, the counter that
wraps from 0xFF to the reload value and triggers when the latch is clear; nothing but the IRQ fields changes. -/
def Obligations.Vrc2TickResult : Prop :=
  ∀ (s : State) (rev : Revision) (r : Vrc2Regs), s.mapper.regs = .vrc2 rev r → s.inv = true →
    ∃ r' es, exec .mapperTick s = .next { s with
        mapper := { s.mapper with regs := .vrc2 rev r' }
        io := { s.io with outputs := s.io.outputs ++ es } } ∧
      r' = { r with irqDiv3 := r'.irqDiv3, irqPrescaler := r'.irqPrescaler, irqCounter := r'.irqCounter,
                    irqTriggered := r'.irqTriggered } ∧
      r'.irqDiv3.toNat = (r.irqDiv3.toNat + 1) % 3 ∧
      r'.irqPrescaler.toNat =
        (if r.irqDiv3 = 2 ∧ r.irqEnable = true ∧ r.irqCycleMode = false then (r.irqPrescaler.toNat + 1) % 341
         else r.irqPrescaler.toNat) ∧
      ∀ counts : Prop,
        (counts ↔ r.irqDiv3 = 2 ∧ r.irqEnable = true ∧ (r.irqCycleMode = true ∨ r.irqPrescaler = 340)) →
        (¬ counts → r'.irqCounter = r.irqCounter ∧ r'.irqTriggered = r.irqTriggered ∧ es = []) ∧
        (counts → r.irqCounter ≠ 0xFF →
          r'.irqCounter.toNat = r.irqCounter.toNat + 1 ∧ r'.irqTriggered = r.irqTriggered ∧ es = []) ∧
        (counts → r.irqCounter = 0xFF → r'.irqCounter = r.irqReload ∧ r'.irqTriggered = true ∧
          es = if r.irqTriggered then [] else [.irqTrigger])

/-- In scanline-count mode, from dividers at zero, ticks 1 to 1022 leave the counter and tick 1023 counts it once, with the
dividers at zero again; from the boundary it wraps to the reload value and triggers (45 R332). -/
def Obligations.ScanlineModeCountsEvery1023Ticks : Prop :=
  ∀ (s : State) (rev : Revision) (r : Vrc2Regs), s.mapper.regs = .vrc2 rev r →
    r.irqEnable = true → r.irqCycleMode = false → r.irqDiv3 = 0 → r.irqPrescaler = 0 →
    (∀ n, n ≤ 1022 → ∃ t r', execTimes .mapperTick n s = .next t ∧ t.mapper.regs = .vrc2 rev r' ∧
      r'.irqCounter = r.irqCounter ∧ t.io = s.io) ∧
    ∃ t, execTimes .mapperTick 1023 s = .next t ∧
      t = { s with
        mapper := { s.mapper with regs := .vrc2 rev { r with
          irqCounter := if r.irqCounter = 0xFF then r.irqReload else r.irqCounter + 1
          irqTriggered := r.irqTriggered || r.irqCounter == 0xFF } }
        io := { s.io with outputs := s.io.outputs ++
          if r.irqCounter = 0xFF ∧ r.irqTriggered = false then [.irqTrigger] else [] } }

/-! ## PPU_STEP -/

/-- PPU_STEP moves the position by one cycle, (261, 340) to (0, 0) with the parity toggled, and with rendering enabled on an
even-numbered frame from (261, 339) directly to (0, 0) (41 R203, R204; D8, D9); the cycle stays below 341. It changes nothing but the PictureProcessor
and the output list, and of the PictureProcessor no register of the CPU side and no byte of memory (41 R200). -/
def Obligations.PpuStepMovesThePosition : Prop :=
  ∀ s : State, s.inv = true → ∃ t, exec .ppuStep s = .next t ∧ s.onlyPpuAndOutputs t ∧ s.ppu.sameCpuSide t.ppu ∧
    t.ppu.cycle.toNat ≤ 340 ∧
    (∀ skip : Prop,
      (skip ↔ (s.ppu.mask.showBg = true ∨ s.ppu.mask.showSpr = true) ∧ s.ppu.f = false ∧
        s.ppu.scanline.toNat = 261 ∧ s.ppu.cycle.toNat = 339) →
      (skip → t.ppu.dot = 0 ∧ t.ppu.f = true) ∧
      (¬ skip → t.ppu.dot = (s.ppu.dot + 1) % 89342 ∧
        t.ppu.f = if s.ppu.dot = 89341 then !s.ppu.f else s.ppu.f))

/-- With rendering disabled a PPU_STEP moves the position, counts the NMI delay, and sets or clears vblank; it leaves `v`,
the fetch latches, the accumulator and the sprite buffers alone and emits no PixelWrite (41 R200, R201, R209, R210, R211, 42
R255; D7, D10, D17). By the position (l, c) arrived at: it emits NmiRaise exactly when it is due, then FramePresent exactly
at (241, 1); off (241, 1) and (261, 1) it keeps vblank and the NMI line, off (261, 1) both sprite flags (10 R32 to R34). What
it does there: `VblankIsSetAt241`, `VblankIsClearedAt261`. -/
def Obligations.DisabledStepRendersNothing : Prop :=
  ∀ s : State, s.ppu.mask.showBg = false → s.ppu.mask.showSpr = false → ∃ t, exec .ppuStep s = .next t ∧
    t = { s with
      ppu := { s.ppu with
        scanline := t.ppu.scanline, cycle := t.ppu.cycle, f := t.ppu.f, nmiOccurred := t.ppu.nmiOccurred,
        spr0Hit := t.ppu.spr0Hit, sprOverflow := t.ppu.sprOverflow, nmiPrevious := t.ppu.nmiPrevious,
        nmiDelay := t.ppu.nmiDelay }
      io := { s.io with outputs := t.io.outputs } } ∧
    ∀ l c : Nat, t.ppu.scanline.toNat = l → t.ppu.cycle.toNat = c →
      t.io.outputs = s.io.outputs ++ s.nmiEvents ++ frameEvents l c ∧
      (¬ (l = 241 ∧ c = 1) → ¬ (l = 261 ∧ c = 1) → s.nmiKept t) ∧
      (¬ (l = 261 ∧ c = 1) → t.ppu.spr0Hit = s.ppu.spr0Hit ∧ t.ppu.sprOverflow = s.ppu.sprOverflow)

/-- Vblank is set at (241, 1), whether or not rendering is enabled, with one FramePresent, and a rising NMI line starts the
delay (41 R210, R215, R201; D7, D17). -/
def Obligations.VblankIsSetAt241 : Prop :=
  ∀ s : State, s.arrivesAt 241 1 → ∃ t, exec .ppuStep s = .next t ∧
    t = { s with
      ppu := { s.ppu with
        cycle := 1, nmiOccurred := true, nmiPrevious := s.ppu.ctrl.nmiOutput,
        nmiDelay := if s.ppu.ctrl.nmiOutput && !s.ppu.nmiPrevious then BitVec.ofNat 8 s.params.nmiDelay else s.countedDelay }
      io := { s.io with outputs := s.io.outputs ++ s.nmiEvents ++ [.framePresent] } }

/-- At (261, 1), whether or not rendering is enabled, vblank, sprite-zero-hit and sprite-overflow are cleared and the NMI
line is re-evaluated, which is then low and leaves the delay as the countdown left it (41 R211, R215, R201; D7); no event but
a due NmiRaise. -/
def Obligations.VblankIsClearedAt261 : Prop :=
  ∀ s : State, s.arrivesAt 261 1 → ∃ t, exec .ppuStep s = .next t ∧ s.onlyPpuAndOutputs t ∧
    t.ppu.scanline.toNat = 261 ∧ t.ppu.cycle.toNat = 1 ∧ s.ppu.sameCpuSide t.ppu ∧
    t.ppu.nmiOccurred = false ∧ t.ppu.spr0Hit = false ∧ t.ppu.sprOverflow = false ∧ t.ppu.nmiPrevious = false ∧
    t.ppu.nmiDelay = s.countedDelay ∧ t.io.outputs = s.io.outputs ++ s.nmiEvents

/-- Inside vblank, from a running delay with the line high and left high, the hook is raised exactly once, in the step that
ends the delay, and not before (41 R201, 60 R361; D7). -/
def Obligations.NmiIsRaisedWhenTheDelayEnds : Prop :=
  ∀ (s : State) (n : Nat), s.ppu.nmiDelay.toNat = n + 1 → s.ppu.ctrl.nmiOutput = true → s.ppu.nmiOccurred = true →
    s.ppu.cycle.toNat ≤ 340 → 241 * 341 + 1 ≤ s.ppu.dot → s.ppu.dot + (n + 1) < 261 * 341 + 1 →
    ∃ t u, execTimes .ppuStep n s = .next t ∧ t.io.outputs = s.io.outputs ∧
      exec .ppuStep t = .next u ∧ u.io.outputs = s.io.outputs ++ [.nmiRaise] ∧ u.ppu.nmiDelay = 0

/-- The scroll updates with rendering enabled on the lines 0 to 239 and 261 (41 R200, R205 to R208; D8, D10, D13): coarse X
with its nametable switch at the end of each 8-cycle group, the Y increment at 256, the horizontal copy at 257, the vertical
copy at 280 to 304 of line 261, and `v` unchanged at every other cycle from 1 to 340. At cycle 0 and on the other lines:
`RenderingActsOnlyAtItsPositions`. -/
def Obligations.ScrollUpdates : Prop :=
  ∀ (s : State) (l c : Nat), s.arrivesAt l c → s.ppu.renderingEnabled = true → l ≤ 239 ∨ l = 261 →
    ∃ t, exec .ppuStep s = .next t ∧
      (c % 8 = 0 → (8 ≤ c ∧ c ≤ 256) ∨ (321 ≤ c ∧ c ≤ 336) →
        coarseX t.ppu.v = (coarseX s.ppu.v + 1) % 32 ∧
        tableX t.ppu.v = (if coarseX s.ppu.v = 31 then 1 - tableX s.ppu.v else tableX s.ppu.v) ∧
        (c ≠ 256 → coarseY t.ppu.v = coarseY s.ppu.v ∧ tableY t.ppu.v = tableY s.ppu.v ∧ fineY t.ppu.v = fineY s.ppu.v) ∧
        (c = 256 →
          fineY t.ppu.v = (fineY s.ppu.v + 1) % 8 ∧
          coarseY t.ppu.v = (if fineY s.ppu.v ≠ 7 then coarseY s.ppu.v
            else if coarseY s.ppu.v = 29 then 0 else (coarseY s.ppu.v + 1) % 32) ∧
          tableY t.ppu.v = (if fineY s.ppu.v = 7 ∧ coarseY s.ppu.v = 29 then 1 - tableY s.ppu.v else tableY s.ppu.v))) ∧
      (c = 257 → coarseX t.ppu.v = coarseX s.ppu.t ∧ tableX t.ppu.v = tableX s.ppu.t ∧
        coarseY t.ppu.v = coarseY s.ppu.v ∧ tableY t.ppu.v = tableY s.ppu.v ∧ fineY t.ppu.v = fineY s.ppu.v) ∧
      (l = 261 → 280 ≤ c → c ≤ 304 → coarseX t.ppu.v = coarseX s.ppu.v ∧ tableX t.ppu.v = tableX s.ppu.v ∧
        coarseY t.ppu.v = coarseY s.ppu.t ∧ tableY t.ppu.v = tableY s.ppu.t ∧ fineY t.ppu.v = fineY s.ppu.t) ∧
      (¬ (c % 8 = 0 ∧ (8 ≤ c ∧ c ≤ 256 ∨ 321 ≤ c ∧ c ≤ 336)) → c ≠ 257 → ¬ (l = 261 ∧ 280 ≤ c ∧ c ≤ 304) →
        t.ppu.v = s.ppu.v)

/-- The 8-cycle fetch sequence with rendering enabled on the lines 0 to 239 and 261 (42 R231 to R237; D10, D11, D12): the
accumulator moves one pixel, and the slot's latch takes the byte at the slot's address, the attribute latch the two bits of
the tile's quadrant, or the accumulator the row's 8 pixels; the other latches keep their bytes. Everywhere else: `RenderingActsOnlyAtItsPositions`. -/
def Obligations.FetchSequence : Prop :=
  ∀ (s : State) (l c : Nat), s.arrivesAt l c → s.ppu.renderingEnabled = true → l ≤ 239 ∨ l = 261 →
    (1 ≤ c ∧ c ≤ 256) ∨ (321 ≤ c ∧ c ≤ 336) → ∃ t, exec .ppuStep s = .next t ∧
      t.ppu.ntByte = (if c % 8 = 1 then ppuRead s (BitVec.ofNat 14 (0x2000 + s.ppu.v.toNat % 0x1000)) else s.ppu.ntByte) ∧
      t.ppu.atBits.toNat = (if c % 8 = 3 then
        (ppuRead s (BitVec.ofNat 14 (0x23C0 + s.ppu.v.toNat / 1024 % 4 * 1024 + coarseY s.ppu.v / 4 * 8 + coarseX s.ppu.v / 4))).toNat
          / 4 ^ (coarseY s.ppu.v / 2 % 2 * 2 + coarseX s.ppu.v / 2 % 2) % 4 * 4 else s.ppu.atBits.toNat) ∧
      t.ppu.patLo = (if c % 8 = 5 then
        ppuRead s (BitVec.ofNat 14 (s.ppu.ctrl.bgTable.toNat * 0x1000 + s.ppu.ntByte.toNat * 16 + fineY s.ppu.v))
        else s.ppu.patLo) ∧
      t.ppu.patHi = (if c % 8 = 7 then
        ppuRead s (BitVec.ofNat 14 (s.ppu.ctrl.bgTable.toNat * 0x1000 + s.ppu.ntByte.toNat * 16 + fineY s.ppu.v + 8))
        else s.ppu.patHi) ∧
      (c % 8 ≠ 0 → t.ppu.tileData = s.ppu.tileData <<< 4) ∧
      (c % 8 = 0 → ∀ k, k < 64 → t.ppu.tileData.getLsbD k = ((s.ppu.tileData <<< 4).getLsbD k ||
        decide (k < 32) && (s.ppu.atBits.getLsbD (k % 4) || decide (k % 4 = 0) && s.ppu.patLo.getLsbD (k / 4) ||
          decide (k % 4 = 1) && s.ppu.patHi.getLsbD (k / 4))))

/-- With rendering enabled a PPU_STEP acts only at the positions of its actions (41 R200 to R202, R210, R211, 42 R230, R250,
43 R270, R274, 10 R32 to R34, R42; D7, D8, D10, D14, D17). By the position (l, c) arrived at: it emits NmiRaise exactly when it
is due, then one PixelWrite exactly on the visible cycles of the lines 0 to 239, then FramePresent exactly at (241, 1); off
(241, 1) and (261, 1) it keeps vblank and the NMI line and counts the delay; on the lines 240 to 260, and at cycle 0, it keeps
`v`; there and outside the fetch cycles, the fetch latches and the accumulator; at every cycle but 257, the sprite buffers
and their count; off the visible cycles, but for (261, 1), sprite-zero-hit; off (l, 257) of the lines 0 to 239, but for
(261, 1), sprite-overflow. -/
def Obligations.RenderingActsOnlyAtItsPositions : Prop :=
  ∀ s : State, s.ppu.renderingEnabled = true → ∃ t pixel, exec .ppuStep s = .next t ∧
    ∀ l c : Nat, t.ppu.scanline.toNat = l → t.ppu.cycle.toNat = c →
      t.io.outputs = s.io.outputs ++ s.nmiEvents ++ pixel ++ frameEvents l c ∧
      (l ≤ 239 ∧ 1 ≤ c ∧ c ≤ 256 → ∃ x y idx col, pixel = [.pixelWrite x y idx col]) ∧
      (¬ (l ≤ 239 ∧ 1 ≤ c ∧ c ≤ 256) → pixel = [] ∧ (¬ (l = 261 ∧ c = 1) → t.ppu.spr0Hit = s.ppu.spr0Hit)) ∧
      (¬ (l = 241 ∧ c = 1) → ¬ (l = 261 ∧ c = 1) → s.nmiKept t) ∧
      (¬ (l ≤ 239 ∨ l = 261) ∨ c = 0 → t.ppu.v = s.ppu.v) ∧
      (¬ (l ≤ 239 ∨ l = 261) ∨ ¬ ((1 ≤ c ∧ c ≤ 256) ∨ (321 ≤ c ∧ c ≤ 336)) →
        t.ppu.ntByte = s.ppu.ntByte ∧ t.ppu.atBits = s.ppu.atBits ∧ t.ppu.patLo = s.ppu.patLo ∧ t.ppu.patHi = s.ppu.patHi ∧
          t.ppu.tileData = s.ppu.tileData) ∧
      (c ≠ 257 → t.ppu.sprCount = s.ppu.sprCount ∧ t.ppu.sprites = s.ppu.sprites) ∧
      (¬ (l ≤ 239 ∧ c = 257) → ¬ (l = 261 ∧ c = 1) → t.ppu.sprOverflow = s.ppu.sprOverflow)

/-- One pixel for every visible cycle with rendering enabled (42 R245, R250, R251, R253 to R255, 43 R280; D4, D11, D16, D17):
its coordinates, the 5-bit palette index of the winning layer, and the palette's colour. -/
def Obligations.PixelOutput : Prop :=
  ∀ (s : State) (l c : Nat), s.arrivesAt l c → s.ppu.renderingEnabled = true → l ≤ 239 → 1 ≤ c → c ≤ 256 →
    ∃ t idx col, exec .ppuStep s = .next t ∧
      t.io.outputs = s.io.outputs ++ s.nmiEvents ++ [.pixelWrite (BitVec.ofNat 8 (c - 1)) (BitVec.ofNat 8 l) idx col] ∧
      col.toNat = (Memory.read s.ppu.pal (palIndex idx)).toNat % 64 ∧
      ∀ bg sp : Nat, bg = bgPixelAt s.ppu (c - 1) → sp = spPixelAt s.ppu (c - 1) →
        (bg % 4 = 0 → sp % 4 = 0 → idx.toNat = 0) ∧
        (bg % 4 = 0 → sp % 4 ≠ 0 → idx.toNat = 16 + sp) ∧
        (bg % 4 ≠ 0 → sp % 4 = 0 → idx.toNat = bg) ∧
        (bg % 4 ≠ 0 → sp % 4 ≠ 0 → ∀ e, shownSprite s.ppu (c - 1) = some e →
          idx.toNat = if e.prio then bg else 16 + sp)

/-- Sprite-zero hit is set only where both pixels are opaque after the clip, the winning sprite's original OAM index is 0
and x < 255; it is set whichever layer wins, and once set it stays (42 R252). -/
def Obligations.SpriteZeroHit : Prop :=
  ∀ (s : State) (l c : Nat), s.arrivesAt l c → s.ppu.renderingEnabled = true → l ≤ 239 → 1 ≤ c → c ≤ 256 →
    ∃ t, exec .ppuStep s = .next t ∧
      (t.ppu.spr0Hit = true ↔ s.ppu.spr0Hit = true ∨
        (bgPixelAt s.ppu (c - 1) % 4 ≠ 0 ∧ spPixelAt s.ppu (c - 1) % 4 ≠ 0 ∧ c - 1 < 255 ∧
          ∃ e, shownSprite s.ppu (c - 1) = some e ∧ e.index = 0))

/-- Sprite evaluation at cycle 257 of a visible line with rendering enabled: the first 8 qualifying entries are kept in OAM
order and counted, and a 9th sets the overflow flag, which evaluation never clears (43 R270 to R273; D14); the entries above
the count keep their contents (10 R42). At cycle 257 of any other line the count is 0 and every entry and the overflow flag
are kept (43 R274; D14). -/
def Obligations.SpriteEvaluation : Prop :=
  ∀ (s : State) (l : Nat), s.arrivesAt l 257 → s.ppu.renderingEnabled = true →
    ∃ t, exec .ppuStep s = .next t ∧
      (l ≤ 239 →
        t.ppu.sprCount.toNat = min (qualifying s.ppu l).length 8 ∧
        (∀ k n, k < 8 → (qualifying s.ppu l)[k]? = some n →
          (t.ppu.spriteAt k).index.toNat = n ∧ (t.ppu.spriteAt k).x = Memory.read s.ppu.oam (4 * n + 3) ∧
          (t.ppu.spriteAt k).prio = (Memory.read s.ppu.oam (4 * n + 2)).getLsbD 5) ∧
        (∀ k, t.ppu.sprCount.toNat ≤ k → t.ppu.spriteAt k = s.ppu.spriteAt k) ∧
        (t.ppu.sprOverflow = true ↔ s.ppu.sprOverflow = true ∨ 8 < (qualifying s.ppu l).length)) ∧
      (240 ≤ l → t.ppu.sprCount = 0 ∧ t.ppu.sprites = s.ppu.sprites ∧ t.ppu.sprOverflow = s.ppu.sprOverflow)

/-- The row of a kept sprite (43 R276, R277; D15): the two planes of the tile's row with both flips, 16-row mode taking the
table from bit 0 of the tile and splitting at row 8, and the palette bits of the attribute byte above each pixel. -/
def Obligations.SpriteRowsAreFetched : Prop :=
  ∀ (s : State) (l : Nat), s.arrivesAt l 257 → s.ppu.renderingEnabled = true → l ≤ 239 →
    ∃ t, exec .ppuStep s = .next t ∧
      ∀ k n j a att, k < 8 → (qualifying s.ppu l)[k]? = some n → j < 8 →
        att = Memory.read s.ppu.oam (4 * n + 2) →
        a = spriteRowAt s.ppu.ctrl (Memory.read s.ppu.oam (4 * n + 1)).toNat att.toNat
          (l - (Memory.read s.ppu.oam (4 * n)).toNat) →
        ∀ b, b = (if att.getLsbD 6 then j else 7 - j) →
          (t.ppu.spriteAt k).pattern.toNat / 16 ^ (7 - j) % 16 =
            att.toNat % 4 * 4 + ((ppuRead s (BitVec.ofNat 14 (a + 8))).getLsbD b).toNat * 2 +
              ((ppuRead s (BitVec.ofNat 14 a)).getLsbD b).toNat
end

