-- ==== Sys2Proof/Laws/Decode.lean ====
section
/-! SUPPORT. The fields of an encoded word are the fields it was built from. -/

namespace Sys2Proof

/-- Bit `i` of a BUS word (30 R120). -/
theorem getLsbD_busWord (b : BusFields) (i : Nat) :
    (busWord b).getLsbD i =
      if i < 8 then b.data.getLsbD i else if i < 24 then b.addr.getLsbD (i - 8)
      else if i = 24 then b.rw else if i = 25 then b.odd else false := by
  simp only [busWord, BitVec.getLsbD_or, BitVec.getLsbD_shiftLeft, BitVec.getLsbD_setWidth, BitVec.getLsbD_ofBool]
  rcases (by omega : i < 8 ∨ (8 ≤ i ∧ i < 24) ∨ i = 24 ∨ i = 25 ∨ 26 ≤ i) with h | ⟨h, h'⟩ | h | h | h
  · simp [h, show i < 28 by omega, show i < 25 by omega, show i < 24 by omega]
  · simp [h', show i < 28 by omega, show i < 25 by omega, show ¬ i < 8 by omega, show i - 8 < 28 by omega,
      show b.data.getLsbD i = false from BitVec.getLsbD_of_ge _ _ h]
  · subst h; simp
  · subst h; simp
  · have h1 : ¬ i < 8 := by omega
    have h2 : ¬ i < 24 := by omega
    have h3 : i ≠ 24 := by omega
    have h4 : i ≠ 25 := by omega
    have ha : b.addr.getLsbD (i - 8) = false := BitVec.getLsbD_of_ge _ _ (by omega)
    have hd : b.data.getLsbD i = false := BitVec.getLsbD_of_ge _ _ (by omega)
    simp [h1, h2, h3, h4, ha, hd]
    exact ⟨fun _ _ _ _ => by omega, fun _ _ _ => by omega⟩

@[simp] theorem wordKind_busWord (b : BusFields) : wordKind (busWord b) = 0 := by
  apply BitVec.eq_of_getLsbD_eq
  intro i hi
  rw [wordKind, BitVec.getLsbD_extractLsb', getLsbD_busWord, if_neg (by omega), if_neg (by omega), if_neg (by omega)]
  rcases (by omega : i = 0 ∨ i = 1) with rfl | rfl <;> simp

@[simp] theorem busFields_busWord (b : BusFields) : busFields (wordBody (busWord b)) = b := by
  have h : ∀ i, i < 26 → (wordBody (busWord b)).getLsbD i = (busWord b).getLsbD i := by
    intro i hi; simp [wordBody, hi]
  obtain ⟨odd, rw, addr, data⟩ := b
  simp only [busFields, BusFields.mk.injEq]
  refine ⟨?_, ?_, ?_, ?_⟩
  · rw [h 25 (by omega), getLsbD_busWord]; rfl
  · rw [h 24 (by omega), getLsbD_busWord]; rfl
  · apply BitVec.eq_of_getLsbD_eq
    intro i hi
    rw [BitVec.getLsbD_extractLsb', h (8 + i) (by omega), getLsbD_busWord]
    simp [hi, show 8 + i < 24 by omega]
  · apply BitVec.eq_of_getLsbD_eq
    intro i hi
    rw [BitVec.getLsbD_extractLsb', Nat.zero_add, h i (by omega), getLsbD_busWord]
    simp [hi]

/-- A BUS word decodes as its fields (30 R121). -/
theorem decode_busWord (c : DecodeCtx) (b : BusFields) (bytes : List Byte) :
    decode c { word := busWord b, bytes := bytes } = .ok (decodeBus c b bytes) := by
  simp [decode]

/-- The bit swap of 30 R144 is its own inverse. -/
@[simp] theorem swap2_swap2 (x : BitVec 2) : swap2 (swap2 x) = x := by revert x; decide

/-! ### The address ranges of 30 R125 -/

theorem topBits_eq (a : CpuAddr) (k : Nat) (hk : k < 8) : a.extractLsb' 13 3 = BitVec.ofNat 3 k ↔ a.toNat / 0x2000 = k := by
  have := a.isLt
  constructor
  · intro h
    have h := congrArg BitVec.toNat h
    simp [BitVec.extractLsb'_toNat, Nat.shiftRight_eq_div_pow] at h; omega
  · intro h
    apply BitVec.eq_of_toNat_eq
    simp [BitVec.extractLsb'_toNat, Nat.shiftRight_eq_div_pow]; omega

theorem midBits_eq (a : CpuAddr) : a.extractLsb' 5 11 = 0x200#11 ↔ a.toNat / 0x20 = 0x200 := by
  have := a.isLt
  constructor
  · intro h
    have h := congrArg BitVec.toNat h
    simp [BitVec.extractLsb'_toNat, Nat.shiftRight_eq_div_pow] at h; omega
  · intro h
    apply BitVec.eq_of_toNat_eq
    simp [BitVec.extractLsb'_toNat, Nat.shiftRight_eq_div_pow]; omega

theorem getLsbD_15 (a : CpuAddr) : a.getLsbD 15 = decide (0x8000 ≤ a.toNat) := by
  rw [show a.getLsbD 15 = a.msb by rw [BitVec.msb_eq_getLsbD_last], BitVec.msb_eq_decide]

/-- `decodeBus` by address: the table of 30 R125. -/
theorem decodeBus_eq (c : DecodeCtx) (b : BusFields) (bytes : List Byte) :
    decodeBus c b bytes =
      if 0x2000 ≤ b.addr.toNat ∧ b.addr.toNat < 0x4000 then
        if b.rw then decodeRegWrite c.w (b.addr.extractLsb' 0 3) b.data else decodeRegRead (b.addr.extractLsb' 0 3)
      else if b.rw = true ∧ b.addr.toNat = 0x4014 then .oamdmaW b.data b.odd (bytes.take 256)
      else if b.addr.toNat < 0x4020 then .notClaimed
      else if b.rw then if 0x8000 ≤ b.addr.toNat then decodeMapperWrite c b.addr b.data else .mapW b.addr b.data
      else .mapR b.addr := by
  have hlt := b.addr.isLt
  have h1 : b.addr.extractLsb' 13 3 = 1 ↔ (0x2000 ≤ b.addr.toNat ∧ b.addr.toNat < 0x4000) := by
    rw [show (1 : BitVec 3) = BitVec.ofNat 3 1 from rfl, topBits_eq _ 1 (by omega)]; omega
  have h0 : b.addr.extractLsb' 13 3 = 0 ↔ b.addr.toNat < 0x2000 := by
    rw [show (0 : BitVec 3) = BitVec.ofNat 3 0 from rfl, topBits_eq _ 0 (by omega)]; omega
  have h2 : b.addr.extractLsb' 5 11 = 0x200 ↔ (0x4000 ≤ b.addr.toNat ∧ b.addr.toNat < 0x4020) := by
    rw [show (0x200 : BitVec 11) = 0x200#11 from rfl, midBits_eq]; omega
  have h4 : (b.rw && b.addr == 0x4014) = true ↔ (b.rw = true ∧ b.addr.toNat = 0x4014) := by
    rw [Bool.and_eq_true, beq_iff_eq, ← BitVec.toNat_inj]; rfl
  unfold decodeBus
  simp only [h1, h0, h2, h4, getLsbD_15, decide_eq_true_eq]
  split
  · rfl
  · split
    · rfl
    · split
      · rw [if_pos (by omega)]
      · split
        · rw [if_pos (by omega)]
        · rw [if_neg (c := b.addr.toNat < 0x4020) (by omega)]

/-- A read word decodes by its address. -/
theorem decode_readWord (c : DecodeCtx) (a : CpuAddr) (bytes : List Byte) :
    decode c { word := readWord a, bytes := bytes } = .ok (decodeBus c { odd := false, rw := false, addr := a, data := 0 } bytes) :=
  decode_busWord ..

/-- A write word decodes by its address. -/
theorem decode_writeWord (c : DecodeCtx) (a : CpuAddr) (d : Byte) (bytes : List Byte) :
    decode c { word := writeWord a d, bytes := bytes } = .ok (decodeBus c { odd := false, rw := true, addr := a, data := d } bytes) :=
  decode_busWord ..

/-- The address of a VRC2 register is in its group, its sub-register reads back, and both address modes read it alike. -/
theorem vrc2Addr_bits : ∀ (variant : Variant) (mode : Vrc2AddrMode) (w : Bool) (group : BitVec 4) (sub : BitVec 2),
    (vrc2Addr ⟨variant, mode, w⟩ group sub).extractLsb' 12 4 = group ∧
      (variant = .vrc2a → vrc2Sub mode .a (vrc2Addr ⟨variant, mode, w⟩ group sub) = sub) ∧
      (variant ≠ .vrc2a → vrc2Sub mode .b (vrc2Addr ⟨variant, mode, w⟩ group sub) = sub) := by
  intro variant mode w
  cases variant <;> cases mode <;> cases w <;> decide

theorem vrc2Addr_toNat (c : DecodeCtx) (group : BitVec 4) (sub : BitVec 2) :
    (vrc2Addr c group sub).toNat / 0x1000 = group.toNat := by
  have h := congrArg BitVec.toNat (vrc2Addr_bits c.variant c.addrMode c.w group sub).1
  have := (vrc2Addr c group sub).isLt
  rw [show (⟨c.variant, c.addrMode, c.w⟩ : DecodeCtx) = c from rfl] at h
  simp [BitVec.extractLsb'_toNat, Nat.shiftRight_eq_div_pow] at h
  omega

/-- A write word of a VRC2 register decodes to its group and sub-register, in either address mode. -/
theorem decode_vrc2 (c : DecodeCtx) (hc : c.variant ≠ .axrom) (group : BitVec 4) (hg : 8 ≤ group.toNat) (sub : BitVec 2) (d : Byte)
    (bytes : List Byte) :
    decode c { word := writeWord (vrc2Addr c group sub) d, bytes := bytes } = .ok (decodeVrc2Write group sub d) := by
  have h1 := vrc2Addr_toNat c group sub
  have h2 := vrc2Addr_bits c.variant c.addrMode c.w group sub
  rw [show (⟨c.variant, c.addrMode, c.w⟩ : DecodeCtx) = c from rfl] at h2
  rw [decode_writeWord, decodeBus_eq]
  simp only
  rw [if_neg (by omega), if_neg (by omega), if_neg (by omega), if_pos trivial, if_pos (by omega)]
  unfold decodeMapperWrite
  rcases hv : c.variant with _ | _ | _
  · exact absurd hv hc
  · simp [h2.1, h2.2.1 hv]
  · simp [h2.1, h2.2.2 (by rw [hv]; decide)]

end Sys2Proof
end

