-- ==== Sys2Proof/Laws/Memory.lean ====
section
/-! SUPPORT. The laws of a byte memory: what a write changes, the canonical form, and its array of bytes. -/

namespace Sys2Proof

theorem Memory.read_insert (m : Memory) (a k : Nat) (b : Byte) :
    Memory.read (Memory.insert a b m) k = if a = k then b else Memory.read m k := by
  induction m with
  | nil => simp [Memory.insert, Memory.read]
  | cons c rest ih =>
    obtain ⟨j, x⟩ := c
    simp only [Memory.insert]
    split
    · simp [Memory.read]
    · split
      · subst_vars; simp only [Memory.read]; split <;> rfl
      · simp only [Memory.read, ih]; split <;> split <;> first | rfl | omega

theorem Memory.rising_mono {lo lo' : Nat} (h : lo' ≤ lo) {m : Memory} (hm : Memory.rising lo m = true) :
    Memory.rising lo' m = true := by
  cases m with
  | nil => rfl
  | cons c rest => obtain ⟨k, b⟩ := c; simp [Memory.rising] at hm ⊢; exact ⟨by omega, hm.2⟩

theorem Memory.read_of_rising {lo : Nat} {m : Memory} (hm : Memory.rising lo m = true) {a : Nat} (ha : a < lo) :
    Memory.read m a = Memory.unlisted := by
  induction m generalizing lo with
  | nil => rfl
  | cons c rest ih =>
    obtain ⟨k, b⟩ := c
    simp [Memory.rising] at hm
    rw [Memory.read, if_neg (by omega)]
    exact ih hm.2 (by omega)

theorem Memory.read_erase {lo : Nat} {m : Memory} (hm : Memory.rising lo m = true) (a k : Nat) :
    Memory.read (Memory.erase a m) k = if a = k then Memory.unlisted else Memory.read m k := by
  induction m generalizing lo with
  | nil => simp [Memory.erase, Memory.read]
  | cons c rest ih =>
    obtain ⟨j, x⟩ := c
    simp [Memory.rising] at hm
    simp only [Memory.erase]
    split
    · subst_vars
      by_cases hk : j = k
      · subst hk; simp [Memory.read_of_rising hm.2 (Nat.lt_succ_self j)]
      · simp [Memory.read, hk]
    · simp only [Memory.read, ih hm.2]; split <;> split <;> first | rfl | omega

theorem Memory.wf_rising {m : Memory} (h : Memory.wf m = true) : Memory.rising 0 m = true := by
  simp [Memory.wf] at h; exact h.1

/-- Reading after a write: the written byte there, every other byte as before. -/
theorem Memory.read_write {m : Memory} (h : Memory.wf m = true) (a k : Nat) (b : Byte) :
    Memory.read (Memory.write m a b) k = if a = k then b else Memory.read m k := by
  unfold Memory.write
  split
  · next hb => rw [Memory.read_erase (Memory.wf_rising h), hb]
  · exact Memory.read_insert m a k b

theorem Memory.rising_insert {lo : Nat} {m : Memory} (hm : Memory.rising lo m = true) {a : Nat} (ha : lo ≤ a) (b : Byte) :
    Memory.rising lo (Memory.insert a b m) = true := by
  induction m generalizing lo with
  | nil => simp [Memory.insert, Memory.rising, ha]
  | cons c rest ih =>
    obtain ⟨j, x⟩ := c
    simp [Memory.rising] at hm
    simp only [Memory.insert]
    split
    · simp [Memory.rising, ha, hm.2]; omega
    · split
      · subst_vars; simp [Memory.rising, hm]
      · simp [Memory.rising, hm.1]; exact ih hm.2 (by omega)

theorem Memory.rising_erase {lo : Nat} {m : Memory} (hm : Memory.rising lo m = true) (a : Nat) :
    Memory.rising lo (Memory.erase a m) = true := by
  induction m generalizing lo with
  | nil => rfl
  | cons c rest ih =>
    obtain ⟨j, x⟩ := c
    simp [Memory.rising] at hm
    simp only [Memory.erase]
    split
    · exact Memory.rising_mono (by omega) hm.2
    · simp [Memory.rising, hm.1]; exact ih hm.2

theorem Memory.all_insert (f : Host.Cell → Bool) {m : Memory} (hm : m.all f = true) {a : Nat} {b : Byte} (hf : f (a, b) = true) :
    (Memory.insert a b m).all f = true := by
  induction m with
  | nil => simp [Memory.insert, hf]
  | cons c rest ih =>
    obtain ⟨j, x⟩ := c
    rw [List.all_cons, Bool.and_eq_true] at hm
    simp only [Memory.insert]
    split
    · rw [List.all_cons, List.all_cons, hf, hm.1, hm.2]; rfl
    · split
      · rw [List.all_cons, hf, hm.2]; rfl
      · rw [List.all_cons, hm.1, ih hm.2]; rfl

theorem Memory.all_erase (f : Host.Cell → Bool) {m : Memory} (hm : m.all f = true) (a : Nat) :
    (Memory.erase a m).all f = true := by
  induction m with
  | nil => rfl
  | cons c rest ih =>
    obtain ⟨j, x⟩ := c
    rw [List.all_cons, Bool.and_eq_true] at hm
    simp only [Memory.erase]
    split
    · exact hm.2
    · rw [List.all_cons, hm.1, ih hm.2]; rfl

/-- A write keeps the canonical form. -/
theorem Memory.wf_write {m : Memory} (h : Memory.wf m = true) (a : Nat) (b : Byte) : Memory.wf (Memory.write m a b) = true := by
  unfold Memory.wf at h ⊢
  rw [Bool.and_eq_true] at h ⊢
  unfold Memory.write
  split
  · exact ⟨Memory.rising_erase h.1 a, Memory.all_erase _ h.2 a⟩
  · next hb => exact ⟨Memory.rising_insert h.1 (Nat.zero_le a) b, Memory.all_insert _ h.2 (by simpa using hb)⟩

/-- A write inside an array keeps the memory inside it. -/
theorem Memory.below_write {n : Nat} {m : Memory} (h : Memory.below n m = true) {a : Nat} (ha : a < n) (b : Byte) :
    Memory.below n (Memory.write m a b) = true := by
  unfold Memory.below at h ⊢
  unfold Memory.write
  split
  · exact Memory.all_erase _ h a
  · exact Memory.all_insert _ h (by simpa using ha)

/-! ### Arrays -/

theorem Memory.rising_ofBytesFrom (base : Nat) (bs : List Byte) : Memory.rising base (Memory.ofBytesFrom base bs) = true := by
  induction bs generalizing base with
  | nil => rfl
  | cons b rest ih =>
    simp only [Memory.ofBytesFrom]
    split
    · exact Memory.rising_mono (Nat.le_succ base) (ih (base + 1))
    · simp [Memory.rising, ih (base + 1)]

theorem Memory.listed_ofBytesFrom (base : Nat) (bs : List Byte) :
    (Memory.ofBytesFrom base bs).all (fun c => c.2 != Memory.unlisted) = true := by
  induction bs generalizing base with
  | nil => rfl
  | cons b rest ih =>
    simp only [Memory.ofBytesFrom]
    split
    · exact ih (base + 1)
    · next hb => rw [List.all_cons, ih (base + 1)]; simpa using hb

theorem Memory.wf_ofBytes (bs : List Byte) : Memory.wf (Memory.ofBytes bs) = true := by
  unfold Memory.wf
  rw [Bool.and_eq_true]
  exact ⟨Memory.rising_ofBytesFrom 0 bs, Memory.listed_ofBytesFrom 0 bs⟩

theorem Memory.below_ofBytesFrom (base n : Nat) (bs : List Byte) (h : base + bs.length ≤ n) :
    Memory.below n (Memory.ofBytesFrom base bs) = true := by
  induction bs generalizing base with
  | nil => rfl
  | cons b rest ih =>
    simp only [List.length_cons] at h
    have := ih (base + 1) (by omega)
    simp only [Memory.ofBytesFrom]
    split
    · exact this
    · unfold Memory.below at this ⊢; rw [List.all_cons, this]; simp; omega

theorem Memory.below_ofBytes (n : Nat) (bs : List Byte) (h : bs.length ≤ n) : Memory.below n (Memory.ofBytes bs) = true :=
  Memory.below_ofBytesFrom 0 n bs (by omega)

theorem Memory.read_ofBytesFrom (base : Nat) (bs : List Byte) (a : Nat) :
    Memory.read (Memory.ofBytesFrom base bs) a = if base ≤ a then bs.getD (a - base) Memory.unlisted else Memory.unlisted := by
  induction bs generalizing base with
  | nil => simp [Memory.ofBytesFrom, Memory.read]
  | cons b rest ih =>
    have step : ∀ x, x = (if base + 1 ≤ a then rest.getD (a - (base + 1)) Memory.unlisted else Memory.unlisted) →
        (if base = a then b else x) = if base ≤ a then (b :: rest).getD (a - base) Memory.unlisted else Memory.unlisted := by
      intro x hx
      rcases Nat.lt_trichotomy base a with h | h | h
      · rw [if_neg (by omega), hx, if_pos (by omega), if_pos (by omega), show a - base = (a - (base + 1)) + 1 by omega]; simp
      · subst h; simp
      · rw [if_neg (by omega), hx, if_neg (by omega), if_neg (by omega)]
    simp only [Memory.ofBytesFrom]
    split
    · next hb =>
      rw [ih (base + 1), ← step _ rfl]
      by_cases h : base = a
      · rw [if_pos h, if_neg (by omega), hb]
      · rw [if_neg h]
    · rw [Memory.read, ih (base + 1)]; exact step _ rfl

@[simp] theorem Memory.length_toBytes (n : Nat) (m : Memory) : (Memory.toBytes n m).length = n := by simp [Memory.toBytes]

/-- Two canonical memories that read alike are equal. -/
theorem Memory.ext_of_rising {lo : Nat} {m n : Memory} (hm : Memory.rising lo m = true) (hn : Memory.rising lo n = true)
    (hm' : m.all (fun c => c.2 != Memory.unlisted) = true) (hn' : n.all (fun c => c.2 != Memory.unlisted) = true)
    (h : ∀ a, Memory.read m a = Memory.read n a) : m = n := by
  induction m generalizing lo n with
  | nil =>
    cases n with
    | nil => rfl
    | cons c rest =>
      obtain ⟨k, b⟩ := c
      have := h k
      simp [Memory.read] at this
      rw [List.all_cons, Bool.and_eq_true] at hn'
      simp [← this] at hn'
  | cons c rest ih =>
    obtain ⟨j, x⟩ := c
    simp [Memory.rising] at hm
    rw [List.all_cons, Bool.and_eq_true] at hm'
    cases n with
    | nil =>
      have := h j
      simp [Memory.read] at this
      simp [this] at hm'
    | cons d rest' =>
      obtain ⟨k, y⟩ := d
      simp [Memory.rising] at hn
      rw [List.all_cons, Bool.and_eq_true] at hn'
      have hjk : j = k := by
        rcases Nat.lt_trichotomy j k with hlt | heq | hgt
        · have := h j
          rw [Memory.read, if_pos rfl, Memory.read, if_neg (by omega), Memory.read_of_rising hn.2 (by omega)] at this
          simp [this] at hm'
        · exact heq
        · have := h k
          rw [Memory.read, if_neg (by omega), Memory.read_of_rising hm.2 (by omega), Memory.read, if_pos rfl] at this
          simp [← this] at hn'
      subst hjk
      have hxy : x = y := by have := h j; simpa [Memory.read] using this
      subst hxy
      congr 1
      refine ih hm.2 hn.2 hm'.2 hn'.2 fun a => ?_
      by_cases ha : j = a
      · subst ha; rw [Memory.read_of_rising hm.2 (by omega), Memory.read_of_rising hn.2 (by omega)]
      · have := h a; simpa [Memory.read, ha] using this

theorem Memory.ext_of_wf {m n : Memory} (hm : Memory.wf m = true) (hn : Memory.wf n = true)
    (h : ∀ a, Memory.read m a = Memory.read n a) : m = n := by
  unfold Memory.wf at hm hn
  rw [Bool.and_eq_true] at hm hn
  exact Memory.ext_of_rising hm.1 hn.1 hm.2 hn.2 h

theorem Memory.read_of_below {n : Nat} {m : Memory} (h : Memory.below n m = true) {a : Nat} (ha : n ≤ a) :
    Memory.read m a = Memory.unlisted := by
  induction m with
  | nil => rfl
  | cons c rest ih =>
    obtain ⟨k, b⟩ := c
    unfold Memory.below at h ih
    rw [List.all_cons, Bool.and_eq_true] at h
    have hk : k < n := by simpa using h.1
    rw [Memory.read, if_neg (by omega)]
    exact ih h.2

/-- The array of a memory stands for that memory. -/
theorem Memory.ofBytes_toBytes {n : Nat} {m : Memory} (hw : Memory.wf m = true) (hb : Memory.below n m = true) :
    Memory.ofBytes (Memory.toBytes n m) = m := by
  refine Memory.ext_of_wf (Memory.wf_ofBytes _) hw fun a => ?_
  rw [Memory.ofBytes, Memory.read_ofBytesFrom, if_pos (Nat.zero_le a)]
  by_cases ha : a < n
  · simp [Memory.toBytes, List.getD_eq_getElem?_getD, ha]
  · rw [Memory.read_of_below hb (by omega)]
    simp [Memory.toBytes, List.getD_eq_getElem?_getD, ha]

/-- The memory of an array stands for that array. -/
theorem Memory.toBytes_ofBytes (bs : List Byte) : Memory.toBytes bs.length (Memory.ofBytes bs) = bs := by
  apply List.ext_getElem
  · simp
  · intro i h1 h2
    simp [Memory.toBytes, Memory.ofBytes, Memory.read_ofBytesFrom, List.getD_eq_getElem?_getD, h2]

end Sys2Proof
end

