-- ==== Sys2Proof/Laws/Ppu.lean ====
section
/-! SUPPORT. One lemma per field per update of the PictureProcessor. -/

namespace Sys2Proof.Machine


/-! ### Ppu.nmiChange -/

@[simp] theorem Ppu.nmiChange_scanline (d : Nat) (p : Ppu) : (p.nmiChange d).scanline = p.scanline := rfl
@[simp] theorem Ppu.nmiChange_cycle (d : Nat) (p : Ppu) : (p.nmiChange d).cycle = p.cycle := rfl
@[simp] theorem Ppu.nmiChange_f (d : Nat) (p : Ppu) : (p.nmiChange d).f = p.f := rfl
@[simp] theorem Ppu.nmiChange_v (d : Nat) (p : Ppu) : (p.nmiChange d).v = p.v := rfl
@[simp] theorem Ppu.nmiChange_t (d : Nat) (p : Ppu) : (p.nmiChange d).t = p.t := rfl
@[simp] theorem Ppu.nmiChange_x (d : Nat) (p : Ppu) : (p.nmiChange d).x = p.x := rfl
@[simp] theorem Ppu.nmiChange_w (d : Nat) (p : Ppu) : (p.nmiChange d).w = p.w := rfl
@[simp] theorem Ppu.nmiChange_latch (d : Nat) (p : Ppu) : (p.nmiChange d).latch = p.latch := rfl
@[simp] theorem Ppu.nmiChange_readBuffer (d : Nat) (p : Ppu) : (p.nmiChange d).readBuffer = p.readBuffer := rfl
@[simp] theorem Ppu.nmiChange_ctrl (d : Nat) (p : Ppu) : (p.nmiChange d).ctrl = p.ctrl := rfl
@[simp] theorem Ppu.nmiChange_mask (d : Nat) (p : Ppu) : (p.nmiChange d).mask = p.mask := rfl
@[simp] theorem Ppu.nmiChange_nmiOccurred (d : Nat) (p : Ppu) : (p.nmiChange d).nmiOccurred = p.nmiOccurred := rfl
@[simp] theorem Ppu.nmiChange_spr0Hit (d : Nat) (p : Ppu) : (p.nmiChange d).spr0Hit = p.spr0Hit := rfl
@[simp] theorem Ppu.nmiChange_sprOverflow (d : Nat) (p : Ppu) : (p.nmiChange d).sprOverflow = p.sprOverflow := rfl
@[simp] theorem Ppu.nmiChange_nmiPrevious (d : Nat) (p : Ppu) : (p.nmiChange d).nmiPrevious = p.nmiLine := rfl
@[simp] theorem Ppu.nmiChange_nmiDelay (d : Nat) (p : Ppu) : (p.nmiChange d).nmiDelay = if p.nmiLine && !p.nmiPrevious then BitVec.ofNat 8 d else p.nmiDelay := rfl
@[simp] theorem Ppu.nmiChange_oamAddr (d : Nat) (p : Ppu) : (p.nmiChange d).oamAddr = p.oamAddr := rfl
@[simp] theorem Ppu.nmiChange_oam (d : Nat) (p : Ppu) : (p.nmiChange d).oam = p.oam := rfl
@[simp] theorem Ppu.nmiChange_pal (d : Nat) (p : Ppu) : (p.nmiChange d).pal = p.pal := rfl
@[simp] theorem Ppu.nmiChange_nt (d : Nat) (p : Ppu) : (p.nmiChange d).nt = p.nt := rfl
@[simp] theorem Ppu.nmiChange_ntByte (d : Nat) (p : Ppu) : (p.nmiChange d).ntByte = p.ntByte := rfl
@[simp] theorem Ppu.nmiChange_atBits (d : Nat) (p : Ppu) : (p.nmiChange d).atBits = p.atBits := rfl
@[simp] theorem Ppu.nmiChange_patLo (d : Nat) (p : Ppu) : (p.nmiChange d).patLo = p.patLo := rfl
@[simp] theorem Ppu.nmiChange_patHi (d : Nat) (p : Ppu) : (p.nmiChange d).patHi = p.patHi := rfl
@[simp] theorem Ppu.nmiChange_tileData (d : Nat) (p : Ppu) : (p.nmiChange d).tileData = p.tileData := rfl
@[simp] theorem Ppu.nmiChange_sprCount (d : Nat) (p : Ppu) : (p.nmiChange d).sprCount = p.sprCount := rfl
@[simp] theorem Ppu.nmiChange_sprites (d : Nat) (p : Ppu) : (p.nmiChange d).sprites = p.sprites := rfl

/-! ### Ppu.incV -/

@[simp] theorem Ppu.incV_scanline (p : Ppu) : (p.incV).scanline = p.scanline := rfl
@[simp] theorem Ppu.incV_cycle (p : Ppu) : (p.incV).cycle = p.cycle := rfl
@[simp] theorem Ppu.incV_f (p : Ppu) : (p.incV).f = p.f := rfl
@[simp] theorem Ppu.incV_v (p : Ppu) : (p.incV).v = p.v + if p.ctrl.incMode then 32 else 1 := rfl
@[simp] theorem Ppu.incV_t (p : Ppu) : (p.incV).t = p.t := rfl
@[simp] theorem Ppu.incV_x (p : Ppu) : (p.incV).x = p.x := rfl
@[simp] theorem Ppu.incV_w (p : Ppu) : (p.incV).w = p.w := rfl
@[simp] theorem Ppu.incV_latch (p : Ppu) : (p.incV).latch = p.latch := rfl
@[simp] theorem Ppu.incV_readBuffer (p : Ppu) : (p.incV).readBuffer = p.readBuffer := rfl
@[simp] theorem Ppu.incV_ctrl (p : Ppu) : (p.incV).ctrl = p.ctrl := rfl
@[simp] theorem Ppu.incV_mask (p : Ppu) : (p.incV).mask = p.mask := rfl
@[simp] theorem Ppu.incV_nmiOccurred (p : Ppu) : (p.incV).nmiOccurred = p.nmiOccurred := rfl
@[simp] theorem Ppu.incV_spr0Hit (p : Ppu) : (p.incV).spr0Hit = p.spr0Hit := rfl
@[simp] theorem Ppu.incV_sprOverflow (p : Ppu) : (p.incV).sprOverflow = p.sprOverflow := rfl
@[simp] theorem Ppu.incV_nmiPrevious (p : Ppu) : (p.incV).nmiPrevious = p.nmiPrevious := rfl
@[simp] theorem Ppu.incV_nmiDelay (p : Ppu) : (p.incV).nmiDelay = p.nmiDelay := rfl
@[simp] theorem Ppu.incV_oamAddr (p : Ppu) : (p.incV).oamAddr = p.oamAddr := rfl
@[simp] theorem Ppu.incV_oam (p : Ppu) : (p.incV).oam = p.oam := rfl
@[simp] theorem Ppu.incV_pal (p : Ppu) : (p.incV).pal = p.pal := rfl
@[simp] theorem Ppu.incV_nt (p : Ppu) : (p.incV).nt = p.nt := rfl
@[simp] theorem Ppu.incV_ntByte (p : Ppu) : (p.incV).ntByte = p.ntByte := rfl
@[simp] theorem Ppu.incV_atBits (p : Ppu) : (p.incV).atBits = p.atBits := rfl
@[simp] theorem Ppu.incV_patLo (p : Ppu) : (p.incV).patLo = p.patLo := rfl
@[simp] theorem Ppu.incV_patHi (p : Ppu) : (p.incV).patHi = p.patHi := rfl
@[simp] theorem Ppu.incV_tileData (p : Ppu) : (p.incV).tileData = p.tileData := rfl
@[simp] theorem Ppu.incV_sprCount (p : Ppu) : (p.incV).sprCount = p.sprCount := rfl
@[simp] theorem Ppu.incV_sprites (p : Ppu) : (p.incV).sprites = p.sprites := rfl

/-! ### Ppu.oamPush -/

@[simp] theorem Ppu.oamPush_scanline (p : Ppu) (b : Byte) : (p.oamPush b).scanline = p.scanline := rfl
@[simp] theorem Ppu.oamPush_cycle (p : Ppu) (b : Byte) : (p.oamPush b).cycle = p.cycle := rfl
@[simp] theorem Ppu.oamPush_f (p : Ppu) (b : Byte) : (p.oamPush b).f = p.f := rfl
@[simp] theorem Ppu.oamPush_v (p : Ppu) (b : Byte) : (p.oamPush b).v = p.v := rfl
@[simp] theorem Ppu.oamPush_t (p : Ppu) (b : Byte) : (p.oamPush b).t = p.t := rfl
@[simp] theorem Ppu.oamPush_x (p : Ppu) (b : Byte) : (p.oamPush b).x = p.x := rfl
@[simp] theorem Ppu.oamPush_w (p : Ppu) (b : Byte) : (p.oamPush b).w = p.w := rfl
@[simp] theorem Ppu.oamPush_latch (p : Ppu) (b : Byte) : (p.oamPush b).latch = p.latch := rfl
@[simp] theorem Ppu.oamPush_readBuffer (p : Ppu) (b : Byte) : (p.oamPush b).readBuffer = p.readBuffer := rfl
@[simp] theorem Ppu.oamPush_ctrl (p : Ppu) (b : Byte) : (p.oamPush b).ctrl = p.ctrl := rfl
@[simp] theorem Ppu.oamPush_mask (p : Ppu) (b : Byte) : (p.oamPush b).mask = p.mask := rfl
@[simp] theorem Ppu.oamPush_nmiOccurred (p : Ppu) (b : Byte) : (p.oamPush b).nmiOccurred = p.nmiOccurred := rfl
@[simp] theorem Ppu.oamPush_spr0Hit (p : Ppu) (b : Byte) : (p.oamPush b).spr0Hit = p.spr0Hit := rfl
@[simp] theorem Ppu.oamPush_sprOverflow (p : Ppu) (b : Byte) : (p.oamPush b).sprOverflow = p.sprOverflow := rfl
@[simp] theorem Ppu.oamPush_nmiPrevious (p : Ppu) (b : Byte) : (p.oamPush b).nmiPrevious = p.nmiPrevious := rfl
@[simp] theorem Ppu.oamPush_nmiDelay (p : Ppu) (b : Byte) : (p.oamPush b).nmiDelay = p.nmiDelay := rfl
@[simp] theorem Ppu.oamPush_oamAddr (p : Ppu) (b : Byte) : (p.oamPush b).oamAddr = p.oamAddr + 1 := rfl
@[simp] theorem Ppu.oamPush_oam (p : Ppu) (b : Byte) : (p.oamPush b).oam = Memory.write p.oam p.oamAddr.toNat b := rfl
@[simp] theorem Ppu.oamPush_pal (p : Ppu) (b : Byte) : (p.oamPush b).pal = p.pal := rfl
@[simp] theorem Ppu.oamPush_nt (p : Ppu) (b : Byte) : (p.oamPush b).nt = p.nt := rfl
@[simp] theorem Ppu.oamPush_ntByte (p : Ppu) (b : Byte) : (p.oamPush b).ntByte = p.ntByte := rfl
@[simp] theorem Ppu.oamPush_atBits (p : Ppu) (b : Byte) : (p.oamPush b).atBits = p.atBits := rfl
@[simp] theorem Ppu.oamPush_patLo (p : Ppu) (b : Byte) : (p.oamPush b).patLo = p.patLo := rfl
@[simp] theorem Ppu.oamPush_patHi (p : Ppu) (b : Byte) : (p.oamPush b).patHi = p.patHi := rfl
@[simp] theorem Ppu.oamPush_tileData (p : Ppu) (b : Byte) : (p.oamPush b).tileData = p.tileData := rfl
@[simp] theorem Ppu.oamPush_sprCount (p : Ppu) (b : Byte) : (p.oamPush b).sprCount = p.sprCount := rfl
@[simp] theorem Ppu.oamPush_sprites (p : Ppu) (b : Byte) : (p.oamPush b).sprites = p.sprites := rfl

/-! ### Ppu.shiftTile -/

@[simp] theorem Ppu.shiftTile_scanline (p : Ppu) : (p.shiftTile).scanline = p.scanline := rfl
@[simp] theorem Ppu.shiftTile_cycle (p : Ppu) : (p.shiftTile).cycle = p.cycle := rfl
@[simp] theorem Ppu.shiftTile_f (p : Ppu) : (p.shiftTile).f = p.f := rfl
@[simp] theorem Ppu.shiftTile_v (p : Ppu) : (p.shiftTile).v = p.v := rfl
@[simp] theorem Ppu.shiftTile_t (p : Ppu) : (p.shiftTile).t = p.t := rfl
@[simp] theorem Ppu.shiftTile_x (p : Ppu) : (p.shiftTile).x = p.x := rfl
@[simp] theorem Ppu.shiftTile_w (p : Ppu) : (p.shiftTile).w = p.w := rfl
@[simp] theorem Ppu.shiftTile_latch (p : Ppu) : (p.shiftTile).latch = p.latch := rfl
@[simp] theorem Ppu.shiftTile_readBuffer (p : Ppu) : (p.shiftTile).readBuffer = p.readBuffer := rfl
@[simp] theorem Ppu.shiftTile_ctrl (p : Ppu) : (p.shiftTile).ctrl = p.ctrl := rfl
@[simp] theorem Ppu.shiftTile_mask (p : Ppu) : (p.shiftTile).mask = p.mask := rfl
@[simp] theorem Ppu.shiftTile_nmiOccurred (p : Ppu) : (p.shiftTile).nmiOccurred = p.nmiOccurred := rfl
@[simp] theorem Ppu.shiftTile_spr0Hit (p : Ppu) : (p.shiftTile).spr0Hit = p.spr0Hit := rfl
@[simp] theorem Ppu.shiftTile_sprOverflow (p : Ppu) : (p.shiftTile).sprOverflow = p.sprOverflow := rfl
@[simp] theorem Ppu.shiftTile_nmiPrevious (p : Ppu) : (p.shiftTile).nmiPrevious = p.nmiPrevious := rfl
@[simp] theorem Ppu.shiftTile_nmiDelay (p : Ppu) : (p.shiftTile).nmiDelay = p.nmiDelay := rfl
@[simp] theorem Ppu.shiftTile_oamAddr (p : Ppu) : (p.shiftTile).oamAddr = p.oamAddr := rfl
@[simp] theorem Ppu.shiftTile_oam (p : Ppu) : (p.shiftTile).oam = p.oam := rfl
@[simp] theorem Ppu.shiftTile_pal (p : Ppu) : (p.shiftTile).pal = p.pal := rfl
@[simp] theorem Ppu.shiftTile_nt (p : Ppu) : (p.shiftTile).nt = p.nt := rfl
@[simp] theorem Ppu.shiftTile_ntByte (p : Ppu) : (p.shiftTile).ntByte = p.ntByte := rfl
@[simp] theorem Ppu.shiftTile_atBits (p : Ppu) : (p.shiftTile).atBits = p.atBits := rfl
@[simp] theorem Ppu.shiftTile_patLo (p : Ppu) : (p.shiftTile).patLo = p.patLo := rfl
@[simp] theorem Ppu.shiftTile_patHi (p : Ppu) : (p.shiftTile).patHi = p.patHi := rfl
@[simp] theorem Ppu.shiftTile_tileData (p : Ppu) : (p.shiftTile).tileData = p.tileData <<< 4 := rfl
@[simp] theorem Ppu.shiftTile_sprCount (p : Ppu) : (p.shiftTile).sprCount = p.sprCount := rfl
@[simp] theorem Ppu.shiftTile_sprites (p : Ppu) : (p.shiftTile).sprites = p.sprites := rfl

/-! ### Ppu.storeTile -/

@[simp] theorem Ppu.storeTile_scanline (p : Ppu) : (p.storeTile).scanline = p.scanline := rfl
@[simp] theorem Ppu.storeTile_cycle (p : Ppu) : (p.storeTile).cycle = p.cycle := rfl
@[simp] theorem Ppu.storeTile_f (p : Ppu) : (p.storeTile).f = p.f := rfl
@[simp] theorem Ppu.storeTile_v (p : Ppu) : (p.storeTile).v = p.v := rfl
@[simp] theorem Ppu.storeTile_t (p : Ppu) : (p.storeTile).t = p.t := rfl
@[simp] theorem Ppu.storeTile_x (p : Ppu) : (p.storeTile).x = p.x := rfl
@[simp] theorem Ppu.storeTile_w (p : Ppu) : (p.storeTile).w = p.w := rfl
@[simp] theorem Ppu.storeTile_latch (p : Ppu) : (p.storeTile).latch = p.latch := rfl
@[simp] theorem Ppu.storeTile_readBuffer (p : Ppu) : (p.storeTile).readBuffer = p.readBuffer := rfl
@[simp] theorem Ppu.storeTile_ctrl (p : Ppu) : (p.storeTile).ctrl = p.ctrl := rfl
@[simp] theorem Ppu.storeTile_mask (p : Ppu) : (p.storeTile).mask = p.mask := rfl
@[simp] theorem Ppu.storeTile_nmiOccurred (p : Ppu) : (p.storeTile).nmiOccurred = p.nmiOccurred := rfl
@[simp] theorem Ppu.storeTile_spr0Hit (p : Ppu) : (p.storeTile).spr0Hit = p.spr0Hit := rfl
@[simp] theorem Ppu.storeTile_sprOverflow (p : Ppu) : (p.storeTile).sprOverflow = p.sprOverflow := rfl
@[simp] theorem Ppu.storeTile_nmiPrevious (p : Ppu) : (p.storeTile).nmiPrevious = p.nmiPrevious := rfl
@[simp] theorem Ppu.storeTile_nmiDelay (p : Ppu) : (p.storeTile).nmiDelay = p.nmiDelay := rfl
@[simp] theorem Ppu.storeTile_oamAddr (p : Ppu) : (p.storeTile).oamAddr = p.oamAddr := rfl
@[simp] theorem Ppu.storeTile_oam (p : Ppu) : (p.storeTile).oam = p.oam := rfl
@[simp] theorem Ppu.storeTile_pal (p : Ppu) : (p.storeTile).pal = p.pal := rfl
@[simp] theorem Ppu.storeTile_nt (p : Ppu) : (p.storeTile).nt = p.nt := rfl
@[simp] theorem Ppu.storeTile_ntByte (p : Ppu) : (p.storeTile).ntByte = p.ntByte := rfl
@[simp] theorem Ppu.storeTile_atBits (p : Ppu) : (p.storeTile).atBits = p.atBits := rfl
@[simp] theorem Ppu.storeTile_patLo (p : Ppu) : (p.storeTile).patLo = p.patLo := rfl
@[simp] theorem Ppu.storeTile_patHi (p : Ppu) : (p.storeTile).patHi = p.patHi := rfl
@[simp] theorem Ppu.storeTile_tileData (p : Ppu) : (p.storeTile).tileData = p.tileData ||| (pixelRow p.atBits p.patHi p.patLo false).setWidth 64 := rfl
@[simp] theorem Ppu.storeTile_sprCount (p : Ppu) : (p.storeTile).sprCount = p.sprCount := rfl
@[simp] theorem Ppu.storeTile_sprites (p : Ppu) : (p.storeTile).sprites = p.sprites := rfl

/-! ### Ppu.advance: all but the position -/

@[simp] theorem Ppu.advance_v (p : Ppu) : (p.advance).v = p.v := by
  unfold Ppu.advance; split <;> (try split) <;> (try split) <;> rfl
@[simp] theorem Ppu.advance_t (p : Ppu) : (p.advance).t = p.t := by
  unfold Ppu.advance; split <;> (try split) <;> (try split) <;> rfl
@[simp] theorem Ppu.advance_x (p : Ppu) : (p.advance).x = p.x := by
  unfold Ppu.advance; split <;> (try split) <;> (try split) <;> rfl
@[simp] theorem Ppu.advance_w (p : Ppu) : (p.advance).w = p.w := by
  unfold Ppu.advance; split <;> (try split) <;> (try split) <;> rfl
@[simp] theorem Ppu.advance_latch (p : Ppu) : (p.advance).latch = p.latch := by
  unfold Ppu.advance; split <;> (try split) <;> (try split) <;> rfl
@[simp] theorem Ppu.advance_readBuffer (p : Ppu) : (p.advance).readBuffer = p.readBuffer := by
  unfold Ppu.advance; split <;> (try split) <;> (try split) <;> rfl
@[simp] theorem Ppu.advance_ctrl (p : Ppu) : (p.advance).ctrl = p.ctrl := by
  unfold Ppu.advance; split <;> (try split) <;> (try split) <;> rfl
@[simp] theorem Ppu.advance_mask (p : Ppu) : (p.advance).mask = p.mask := by
  unfold Ppu.advance; split <;> (try split) <;> (try split) <;> rfl
@[simp] theorem Ppu.advance_nmiOccurred (p : Ppu) : (p.advance).nmiOccurred = p.nmiOccurred := by
  unfold Ppu.advance; split <;> (try split) <;> (try split) <;> rfl
@[simp] theorem Ppu.advance_spr0Hit (p : Ppu) : (p.advance).spr0Hit = p.spr0Hit := by
  unfold Ppu.advance; split <;> (try split) <;> (try split) <;> rfl
@[simp] theorem Ppu.advance_sprOverflow (p : Ppu) : (p.advance).sprOverflow = p.sprOverflow := by
  unfold Ppu.advance; split <;> (try split) <;> (try split) <;> rfl
@[simp] theorem Ppu.advance_nmiPrevious (p : Ppu) : (p.advance).nmiPrevious = p.nmiPrevious := by
  unfold Ppu.advance; split <;> (try split) <;> (try split) <;> rfl
@[simp] theorem Ppu.advance_nmiDelay (p : Ppu) : (p.advance).nmiDelay = p.nmiDelay := by
  unfold Ppu.advance; split <;> (try split) <;> (try split) <;> rfl
@[simp] theorem Ppu.advance_oamAddr (p : Ppu) : (p.advance).oamAddr = p.oamAddr := by
  unfold Ppu.advance; split <;> (try split) <;> (try split) <;> rfl
@[simp] theorem Ppu.advance_oam (p : Ppu) : (p.advance).oam = p.oam := by
  unfold Ppu.advance; split <;> (try split) <;> (try split) <;> rfl
@[simp] theorem Ppu.advance_pal (p : Ppu) : (p.advance).pal = p.pal := by
  unfold Ppu.advance; split <;> (try split) <;> (try split) <;> rfl
@[simp] theorem Ppu.advance_nt (p : Ppu) : (p.advance).nt = p.nt := by
  unfold Ppu.advance; split <;> (try split) <;> (try split) <;> rfl
@[simp] theorem Ppu.advance_ntByte (p : Ppu) : (p.advance).ntByte = p.ntByte := by
  unfold Ppu.advance; split <;> (try split) <;> (try split) <;> rfl
@[simp] theorem Ppu.advance_atBits (p : Ppu) : (p.advance).atBits = p.atBits := by
  unfold Ppu.advance; split <;> (try split) <;> (try split) <;> rfl
@[simp] theorem Ppu.advance_patLo (p : Ppu) : (p.advance).patLo = p.patLo := by
  unfold Ppu.advance; split <;> (try split) <;> (try split) <;> rfl
@[simp] theorem Ppu.advance_patHi (p : Ppu) : (p.advance).patHi = p.patHi := by
  unfold Ppu.advance; split <;> (try split) <;> (try split) <;> rfl
@[simp] theorem Ppu.advance_tileData (p : Ppu) : (p.advance).tileData = p.tileData := by
  unfold Ppu.advance; split <;> (try split) <;> (try split) <;> rfl
@[simp] theorem Ppu.advance_sprCount (p : Ppu) : (p.advance).sprCount = p.sprCount := by
  unfold Ppu.advance; split <;> (try split) <;> (try split) <;> rfl
@[simp] theorem Ppu.advance_sprites (p : Ppu) : (p.advance).sprites = p.sprites := by
  unfold Ppu.advance; split <;> (try split) <;> (try split) <;> rfl

end Sys2Proof.Machine
end

