-- ==== Sys2Proof/Laws/State.lean ====
section
/-! SUPPORT. One lemma per field per update of the state, so that no later proof unfolds a record update. -/

namespace Sys2Proof.Machine


/-! ### State.emit -/

@[simp] theorem State.emit_params (s : State) (e : Event) : (s.emit e).params = s.params := rfl
@[simp] theorem State.emit_ppu (s : State) (e : Event) : (s.emit e).ppu = s.ppu := rfl
@[simp] theorem State.emit_mapper (s : State) (e : Event) : (s.emit e).mapper = s.mapper := rfl
@[simp] theorem State.emit_cart (s : State) (e : Event) : (s.emit e).cart = s.cart := rfl
@[simp] theorem State.emit_fatal (s : State) (e : Event) : (s.emit e).fatal = s.fatal := rfl
@[simp] theorem State.emit_io (s : State) (e : Event) : (s.emit e).io = { s.io with outputs := s.io.outputs ++ [e] } := rfl
@[simp] theorem State.emit_variant (s : State) (e : Event) : (s.emit e).variant = s.variant := rfl

/-! ### State.returns -/

@[simp] theorem State.returns_params (s : State) (b : Byte) : (s.returns b).params = s.params := rfl
@[simp] theorem State.returns_ppu (s : State) (b : Byte) : (s.returns b).ppu = s.ppu := rfl
@[simp] theorem State.returns_mapper (s : State) (b : Byte) : (s.returns b).mapper = s.mapper := rfl
@[simp] theorem State.returns_cart (s : State) (b : Byte) : (s.returns b).cart = s.cart := rfl
@[simp] theorem State.returns_fatal (s : State) (b : Byte) : (s.returns b).fatal = s.fatal := rfl
@[simp] theorem State.returns_io (s : State) (b : Byte) : (s.returns b).io = { s.io with result := some b } := rfl
@[simp] theorem State.returns_variant (s : State) (b : Byte) : (s.returns b).variant = s.variant := rfl

/-! ### State.returnsNone -/

@[simp] theorem State.returnsNone_params (s : State) : (s.returnsNone).params = s.params := rfl
@[simp] theorem State.returnsNone_ppu (s : State) : (s.returnsNone).ppu = s.ppu := rfl
@[simp] theorem State.returnsNone_mapper (s : State) : (s.returnsNone).mapper = s.mapper := rfl
@[simp] theorem State.returnsNone_cart (s : State) : (s.returnsNone).cart = s.cart := rfl
@[simp] theorem State.returnsNone_fatal (s : State) : (s.returnsNone).fatal = s.fatal := rfl
@[simp] theorem State.returnsNone_io (s : State) : (s.returnsNone).io = { s.io with result := none } := rfl
@[simp] theorem State.returnsNone_variant (s : State) : (s.returnsNone).variant = s.variant := rfl

/-! ### State.raise -/

@[simp] theorem State.raise_params (s : State) (c : Condition) : (s.raise c).params = s.params := rfl
@[simp] theorem State.raise_ppu (s : State) (c : Condition) : (s.raise c).ppu = s.ppu := rfl
@[simp] theorem State.raise_mapper (s : State) (c : Condition) : (s.raise c).mapper = s.mapper := rfl
@[simp] theorem State.raise_cart (s : State) (c : Condition) : (s.raise c).cart = s.cart := rfl
@[simp] theorem State.raise_fatal (s : State) (c : Condition) : (s.raise c).fatal = s.fatal := rfl
@[simp] theorem State.raise_io (s : State) (c : Condition) : (s.raise c).io = { s.io with condition := some c } := rfl
@[simp] theorem State.raise_variant (s : State) (c : Condition) : (s.raise c).variant = s.variant := rfl

/-! ### State.setPpu -/

@[simp] theorem State.setPpu_params (s : State) (p : Ppu) : (s.setPpu p).params = s.params := rfl
@[simp] theorem State.setPpu_ppu (s : State) (p : Ppu) : (s.setPpu p).ppu = p := rfl
@[simp] theorem State.setPpu_mapper (s : State) (p : Ppu) : (s.setPpu p).mapper = s.mapper := rfl
@[simp] theorem State.setPpu_cart (s : State) (p : Ppu) : (s.setPpu p).cart = s.cart := rfl
@[simp] theorem State.setPpu_fatal (s : State) (p : Ppu) : (s.setPpu p).fatal = s.fatal := rfl
@[simp] theorem State.setPpu_io (s : State) (p : Ppu) : (s.setPpu p).io = s.io := rfl
@[simp] theorem State.setPpu_variant (s : State) (p : Ppu) : (s.setPpu p).variant = s.variant := rfl

/-! ### State.setRegs -/

@[simp] theorem State.setRegs_params (s : State) (r : MapperRegs) : (s.setRegs r).params = s.params := rfl
@[simp] theorem State.setRegs_ppu (s : State) (r : MapperRegs) : (s.setRegs r).ppu = s.ppu := rfl
@[simp] theorem State.setRegs_mapper (s : State) (r : MapperRegs) : (s.setRegs r).mapper = { s.mapper with regs := r } := rfl
@[simp] theorem State.setRegs_cart (s : State) (r : MapperRegs) : (s.setRegs r).cart = s.cart := rfl
@[simp] theorem State.setRegs_fatal (s : State) (r : MapperRegs) : (s.setRegs r).fatal = s.fatal := rfl
@[simp] theorem State.setRegs_io (s : State) (r : MapperRegs) : (s.setRegs r).io = s.io := rfl
@[simp] theorem State.setRegs_variant (s : State) (r : MapperRegs) : (s.setRegs r).variant = r.variant := rfl

/-! ### State.setMirror -/

@[simp] theorem State.setMirror_params (s : State) (m : MirrorMode) : (s.setMirror m).params = s.params := rfl
@[simp] theorem State.setMirror_ppu (s : State) (m : MirrorMode) : (s.setMirror m).ppu = s.ppu := rfl
@[simp] theorem State.setMirror_mapper (s : State) (m : MirrorMode) : (s.setMirror m).mapper = { s.mapper with mirror := m } := rfl
@[simp] theorem State.setMirror_cart (s : State) (m : MirrorMode) : (s.setMirror m).cart = s.cart := rfl
@[simp] theorem State.setMirror_fatal (s : State) (m : MirrorMode) : (s.setMirror m).fatal = s.fatal := rfl
@[simp] theorem State.setMirror_io (s : State) (m : MirrorMode) : (s.setMirror m).io = s.io := rfl
@[simp] theorem State.setMirror_variant (s : State) (m : MirrorMode) : (s.setMirror m).variant = s.variant := rfl

/-! ### State.setSram -/

@[simp] theorem State.setSram_params (s : State) (m : Memory) : (s.setSram m).params = s.params := rfl
@[simp] theorem State.setSram_ppu (s : State) (m : Memory) : (s.setSram m).ppu = s.ppu := rfl
@[simp] theorem State.setSram_mapper (s : State) (m : Memory) : (s.setSram m).mapper = s.mapper := rfl
@[simp] theorem State.setSram_cart (s : State) (m : Memory) : (s.setSram m).cart = { s.cart with sram := m } := rfl
@[simp] theorem State.setSram_fatal (s : State) (m : Memory) : (s.setSram m).fatal = s.fatal := rfl
@[simp] theorem State.setSram_io (s : State) (m : Memory) : (s.setSram m).io = s.io := rfl
@[simp] theorem State.setSram_variant (s : State) (m : Memory) : (s.setSram m).variant = s.variant := rfl

/-! ### State.setChrRam -/

@[simp] theorem State.setChrRam_params (s : State) (m : Memory) : (s.setChrRam m).params = s.params := rfl
@[simp] theorem State.setChrRam_ppu (s : State) (m : Memory) : (s.setChrRam m).ppu = s.ppu := rfl
@[simp] theorem State.setChrRam_mapper (s : State) (m : Memory) : (s.setChrRam m).mapper = s.mapper := rfl
@[simp] theorem State.setChrRam_cart (s : State) (m : Memory) : (s.setChrRam m).cart = { s.cart with chrRam := m } := rfl
@[simp] theorem State.setChrRam_fatal (s : State) (m : Memory) : (s.setChrRam m).fatal = s.fatal := rfl
@[simp] theorem State.setChrRam_io (s : State) (m : Memory) : (s.setChrRam m).io = s.io := rfl
@[simp] theorem State.setChrRam_variant (s : State) (m : Memory) : (s.setChrRam m).variant = s.variant := rfl

/-! ### State.take -/

@[simp] theorem State.take_params (s : State) (rest : List Stimulus) : (s.take rest).params = s.params := rfl
@[simp] theorem State.take_ppu (s : State) (rest : List Stimulus) : (s.take rest).ppu = s.ppu := rfl
@[simp] theorem State.take_mapper (s : State) (rest : List Stimulus) : (s.take rest).mapper = s.mapper := rfl
@[simp] theorem State.take_cart (s : State) (rest : List Stimulus) : (s.take rest).cart = s.cart := rfl
@[simp] theorem State.take_fatal (s : State) (rest : List Stimulus) : (s.take rest).fatal = s.fatal := rfl
@[simp] theorem State.take_io (s : State) (rest : List Stimulus) : (s.take rest).io = { s.io with stimuli := rest, result := none, condition := none } := rfl
@[simp] theorem State.take_variant (s : State) (rest : List Stimulus) : (s.take rest).variant = s.variant := rfl

/-! ### State.deliver -/

@[simp] theorem State.deliver_params (s : State) (st : Stimulus) : (s.deliver st).params = s.params := rfl
@[simp] theorem State.deliver_ppu (s : State) (st : Stimulus) : (s.deliver st).ppu = s.ppu := rfl
@[simp] theorem State.deliver_mapper (s : State) (st : Stimulus) : (s.deliver st).mapper = s.mapper := rfl
@[simp] theorem State.deliver_cart (s : State) (st : Stimulus) : (s.deliver st).cart = s.cart := rfl
@[simp] theorem State.deliver_fatal (s : State) (st : Stimulus) : (s.deliver st).fatal = s.fatal := rfl
@[simp] theorem State.deliver_io (s : State) (st : Stimulus) : (s.deliver st).io = { s.io with stimuli := st :: s.io.stimuli } := rfl
@[simp] theorem State.deliver_variant (s : State) (st : Stimulus) : (s.deliver st).variant = s.variant := rfl

/-! ### State.emitIf -/

@[simp] theorem State.emitIf_params (s : State) (c : Bool) (e : Event) : (s.emitIf c e).params = s.params := by cases c <;> rfl
@[simp] theorem State.emitIf_ppu (s : State) (c : Bool) (e : Event) : (s.emitIf c e).ppu = s.ppu := by cases c <;> rfl
@[simp] theorem State.emitIf_mapper (s : State) (c : Bool) (e : Event) : (s.emitIf c e).mapper = s.mapper := by cases c <;> rfl
@[simp] theorem State.emitIf_cart (s : State) (c : Bool) (e : Event) : (s.emitIf c e).cart = s.cart := by cases c <;> rfl
@[simp] theorem State.emitIf_fatal (s : State) (c : Bool) (e : Event) : (s.emitIf c e).fatal = s.fatal := by cases c <;> rfl
@[simp] theorem State.emitIf_variant (s : State) (c : Bool) (e : Event) : (s.emitIf c e).variant = s.variant := by cases c <;> rfl
theorem State.emitIf_io (s : State) (c : Bool) (e : Event) :
    (s.emitIf c e).io = { s.io with outputs := s.io.outputs ++ if c then [e] else [] } := by
  cases c <;> simp [State.emitIf, State.emit]
@[simp] theorem State.emitIf_true (s : State) (e : Event) : s.emitIf true e = s.emit e := rfl
@[simp] theorem State.emitIf_false (s : State) (e : Event) : s.emitIf false e = s := rfl
@[simp] theorem State.setPpu_setPpu (s : State) (p q : Ppu) : (s.setPpu p).setPpu q = s.setPpu q := rfl
@[simp] theorem State.setPpu_self (s : State) : s.setPpu s.ppu = s := rfl
@[simp] theorem whenDo_true (f : State → State) (s : State) : whenDo true f s = f s := rfl
@[simp] theorem whenDo_false (f : State → State) (s : State) : whenDo false f s = s := rfl


end Sys2Proof.Machine
end

