-- ==== Sys2Proof/Laws/Ops.lean ====
section
/-! SUPPORT. One lemma per shared operation: what a read depends on, what a write or an action of `PPU_STEP` leaves. -/

namespace Sys2Proof.Machine

theorem whenDo_eq (c : Bool) (f : State → State) (s : State) : whenDo c f s = if c then f s else s := rfl

/-! ### Reads -/

/-- Two states whose PPU address space reads alike: the parameters, the mirror mode, the character banks and the memories
agree. -/
structure State.SameSpace (s t : State) : Prop where
  params : t.params = s.params
  mirror : t.mapper.mirror = s.mapper.mirror
  chr : ∀ i, chrIndex t i = chrIndex s i
  chrRam : t.cart.chrRam = s.cart.chrRam
  nt : t.ppu.nt = s.ppu.nt
  pal : t.ppu.pal = s.ppu.pal

theorem mapperRead_chr (s : State) {i : CpuAddr} (h : i.toNat < 0x2000) : mapperRead s i = chrRead s i := by
  rw [mapperRead, if_pos h]

theorem toNat_setWidth16 (a : PpuAddr) : (a.setWidth 16).toNat = a.toNat := by
  have := a.isLt
  rw [BitVec.toNat_setWidth]; omega

/-- `PpuRead` is a function of the address space alone. -/
theorem ppuRead_congr {s t : State} (h : s.SameSpace t) (a : PpuAddr) : ppuRead t a = ppuRead s a := by
  unfold ppuRead
  split
  · next ha =>
    rw [mapperRead_chr _ (by rw [toNat_setWidth16]; exact ha), mapperRead_chr _ (by rw [toNat_setWidth16]; exact ha)]
    unfold chrRead chrData
    rw [h.chr, h.chrRam, h.params]
  · split
    · rw [h.nt, h.mirror]
    · rw [palRead, palRead, h.pal]

theorem State.SameSpace.ofPpu {s t : State} (hp : t.params = s.params) (hm : t.mapper = s.mapper) (hc : t.cart = s.cart)
    (hn : t.ppu.nt = s.ppu.nt) (hl : t.ppu.pal = s.ppu.pal) : s.SameSpace t where
  params := hp
  mirror := by rw [hm]
  chr := fun i => by unfold chrIndex; rw [hm, hp]
  chrRam := by rw [hc]
  nt := hn
  pal := hl

/-- With 16 bits every index is covered (20 R100): the fail-fast check never fires. -/
@[simp] theorem mapperCovers_toNat (i : CpuAddr) : mapperCovers i.toNat = true := by
  have := i.isLt
  simp [mapperCovers]; omega

/-! ### Indices -/

theorem palIndex_lt (i : BitVec 5) : palIndex i < 32 := by
  have := i.isLt
  unfold palIndex; split <;> omega

/-- The four aliased cells are never named (20 R91). -/
theorem palIndex_ne (i : BitVec 5) : palIndex i ≠ 16 ∧ palIndex i ≠ 20 ∧ palIndex i ≠ 24 ∧ palIndex i ≠ 28 := by
  have := i.isLt
  unfold palIndex; split <;> omega

theorem ntIndex_lt (m : MirrorMode) (a : PpuAddr) : ntIndex m a < 2048 := Nat.mod_lt _ (by decide)

/-! ### Writes -/

/-- A `chrWrite` changes the character RAM and the output list at most. -/
theorem chrWrite_frame (s : State) (i : CpuAddr) (b : Byte) :
    ∃ m es, chrWrite s i b =
      { s with cart := { s.cart with chrRam := m }, io := { s.io with outputs := s.io.outputs ++ es } } ∧
      ((s.params.chrIsRam = true ∧ m = Memory.write s.cart.chrRam (chrIndex s i) b ∧ es = []) ∨
        (s.params.chrIsRam = false ∧ m = s.cart.chrRam ∧ es = [.log (variantName s.variant) i b])) := by
  unfold chrWrite
  cases h : s.params.chrIsRam
  · exact ⟨_, _, rfl, .inr ⟨rfl, rfl, rfl⟩⟩
  · exact ⟨_, [], by simp [State.setChrRam], .inl ⟨rfl, rfl, rfl⟩⟩

/-- Everything a `PpuWrite` can do: character memory, a nametable byte or a palette cell (20 R87). -/
theorem ppuWrite_cases (s : State) (a : PpuAddr) (b : Byte) :
    (a.toNat < 0x2000 ∧ ppuWrite s a b = chrWrite s (a.setWidth 16) b) ∨
      (0x2000 ≤ a.toNat ∧ a.toNat < 0x3F00 ∧
        ppuWrite s a b = s.setPpu { s.ppu with nt := Memory.write s.ppu.nt (ntIndex s.mapper.mirror a) b }) ∨
      (0x3F00 ≤ a.toNat ∧
        ppuWrite s a b = s.setPpu { s.ppu with pal := Memory.write s.ppu.pal (palIndex (a.extractLsb' 0 5)) b }) := by
  unfold ppuWrite mapperWrite
  rw [toNat_setWidth16]
  split
  · exact .inl ⟨‹_›, rfl⟩
  · split
    · exact .inr (.inl ⟨by omega, ‹_›, rfl⟩)
    · exact .inr (.inr ⟨by omega, rfl⟩)

/-- A state in which only the mapper and the output list may differ, by at most one event. -/
def State.MapperOnly (s t : State) : Prop :=
  ∃ m es, t = { s with mapper := m, io := { s.io with outputs := s.io.outputs ++ es } } ∧ m.regs.variant = s.variant ∧ es.length ≤ 1

/-- A VRC2 register write changes VRC2 registers or the mirror mode and may emit one event. -/
theorem v2Write_mapperOnly {s : State} {rev : Revision} {r : Vrc2Regs} (h : s.mapper.regs = .vrc2 rev r) (d : Byte)
    (group : BitVec 4) (sub : BitVec 2) :
    s.MapperOnly (v2Prg0Write s rev r d) ∧ s.MapperOnly (v2MirrorWrite s d) ∧ s.MapperOnly (v2Prg1Write s rev r d) ∧
      s.MapperOnly (v2ChrWrite s rev r group sub d) ∧ s.MapperOnly (v2IrqLatchLoWrite s rev r d) ∧
      s.MapperOnly (v2IrqLatchHiWrite s rev r d) ∧ s.MapperOnly (v2IrqCtrlWrite s rev r d) ∧ s.MapperOnly (v2IrqAckWrite s rev r) := by
  have hv : ∀ r' : Vrc2Regs, (MapperRegs.vrc2 rev r').variant = s.variant := by
    intro r'; rw [State.variant, h]; cases rev <;> rfl
  have hk : s.mapper.regs.variant = s.variant := rfl
  have e : ∀ (c : Bool) (ev : Event) (r' : Vrc2Regs), s.MapperOnly ((s.emitIf c ev).setRegs (.vrc2 rev r')) := by
    intro c ev r'
    cases c
    · exact ⟨_, [], by simp [State.setRegs]; rfl, hv r', by simp⟩
    · exact ⟨_, [ev], rfl, hv r', by simp⟩
  have g : ∀ r' : Vrc2Regs, s.MapperOnly (s.setRegs (.vrc2 rev r')) := fun r' => e false .framePresent r'
  refine ⟨e _ _ _, ?_, e _ _ _, g _, g _, g _, g _, e _ _ _⟩
  exact ⟨{ s.mapper with mirror := if d.getLsbD 0 then .horizontal else .vertical }, [], by simp [v2MirrorWrite, State.setMirror], hk, by simp⟩

/-- A write at or above 0x8000 changes the mapper and may emit one event (44 R292, 45 R312). -/
theorem mapperRegWrite_mapperOnly (s : State) (i : CpuAddr) (d : Byte) : s.MapperOnly (mapperRegWrite s i d) := by
  unfold mapperRegWrite
  split
  · next bank h =>
    unfold axRegWrite
    have hv : (MapperRegs.axrom (d.extractLsb' 0 3)).variant = s.variant := by rw [State.variant, h]; rfl
    unfold State.emitIf
    split
    · exact ⟨_, _, rfl, hv, by simp⟩
    · exact ⟨{ mirror := if d.getLsbD 4 then .single1 else .single0, regs := .axrom (d.extractLsb' 0 3) }, [],
        by simp [State.setMirror, State.setRegs], hv, by simp⟩
  · next rev r h =>
    obtain ⟨h1, h2, h3, h4, h5, h6, h7, h8⟩ :=
      v2Write_mapperOnly h d (i.extractLsb' 12 4) (vrc2Sub s.params.vrc2AddrMode rev i)
    unfold v2RegWrite
    simp only
    split
    · exact h1
    · exact h2
    · exact h3
    · split
      · exact h5
      · exact h6
      · exact h7
      · exact h8
    · exact h4

/-- Everything a `MapperWrite` can do: character memory, a `Log`, a byte of save RAM, the mapper (20 R94 to R98). -/
theorem mapperWrite_cases (s : State) (i : CpuAddr) (b : Byte) :
    (i.toNat < 0x2000 ∧ mapperWrite s i b = chrWrite s i b) ∨
      (0x2000 ≤ i.toNat ∧ i.toNat < 0x6000 ∧ mapperWrite s i b = s.emit (.log (variantName s.variant) i b)) ∨
      (0x6000 ≤ i.toNat ∧ i.toNat < 0x8000 ∧
        mapperWrite s i b = s.setSram (Memory.write s.cart.sram (sramIndex s i) b)) ∨
      (0x8000 ≤ i.toNat ∧ mapperWrite s i b = mapperRegWrite s i b) := by
  unfold mapperWrite
  split
  · exact .inl ⟨‹_›, rfl⟩
  · split
    · exact .inr (.inl ⟨by omega, ‹_›, rfl⟩)
    · split
      · exact .inr (.inr (.inl ⟨by omega, ‹_›, rfl⟩))
      · exact .inr (.inr (.inr ⟨by omega, rfl⟩))

/-- A tick changes the IRQ fields of VRC2 and may emit `IrqTrigger`, nothing on AxROM (44 R297, 45 R330). -/
theorem mapperTick_mapperOnly (s : State) : s.MapperOnly (mapperTick s) := by
  unfold mapperTick
  split
  · exact ⟨s.mapper, [], by simp, rfl, by simp⟩
  · next rev r h =>
    have hv : (MapperRegs.vrc2 rev (irqTick r).1).variant = s.variant := by rw [State.variant, h]; cases rev <;> rfl
    unfold State.emitIf
    split
    · exact ⟨_, _, rfl, hv, by simp⟩
    · exact ⟨{ s.mapper with regs := .vrc2 rev (irqTick r).1 }, [], by simp [State.setRegs], hv, by simp⟩

/-! ### The copies of an OAM DMA -/

/-- `n` pushes write OAM and advance its address by `n`, and nothing else (40 R168, R180). -/
theorem foldl_oamPush_eq (f : Nat → Byte) (p : Ppu) (n : Nat) :
    (List.range n).foldl (fun q i => q.oamPush (f i)) p = { p with
      oamAddr := p.oamAddr + BitVec.ofNat 8 n
      oam := ((List.range n).foldl (fun q i => q.oamPush (f i)) p).oam } := by
  induction n with
  | zero => simp
  | succ n ih =>
    rw [List.range_succ, List.foldl_append, List.foldl_cons, List.foldl_nil, ih]
    have : p.oamAddr + BitVec.ofNat 8 n + 1 = p.oamAddr + BitVec.ofNat 8 (n + 1) := by
      rw [BitVec.add_assoc, BitVec.ofNat_add]; rfl
    simp only [Ppu.oamPush, this]

/-- What `n` pushes leave in OAM, `n` at most 256: byte `i` at `(oam_addr + i) mod 256`, every other byte as before. -/
theorem foldl_oamPush_oam (f : Nat → Byte) (p : Ppu) (hw : Memory.wf p.oam = true) (hb : Memory.below 256 p.oam = true) (n : Nat)
    (hn : n ≤ 256) :
    let q := (List.range n).foldl (fun q i => q.oamPush (f i)) p
    (Memory.wf q.oam = true ∧ Memory.below 256 q.oam = true) ∧
      (∀ i, i < n → Memory.read q.oam ((p.oamAddr.toNat + i) % 256) = f i) ∧
      ∀ a, (∀ i, i < n → (p.oamAddr.toNat + i) % 256 ≠ a) → Memory.read q.oam a = Memory.read p.oam a := by
  induction n with
  | zero => exact ⟨⟨hw, hb⟩, by omega, fun _ _ => rfl⟩
  | succ n ih =>
    obtain ⟨⟨h1, h2⟩, h3, h4⟩ := ih (by omega)
    simp only [List.range_succ, List.foldl_append, List.foldl_cons, List.foldl_nil]
    have ha : ((List.range n).foldl (fun q i => q.oamPush (f i)) p).oamAddr.toNat = (p.oamAddr.toNat + n) % 256 := by
      rw [foldl_oamPush_eq, BitVec.toNat_add, BitVec.toNat_ofNat]; omega
    generalize (List.range n).foldl (fun q i => q.oamPush (f i)) p = q at *
    simp only [Ppu.oamPush, ha]
    refine ⟨⟨Memory.wf_write h1 _ _, Memory.below_write h2 (by omega) _⟩, ?_, ?_⟩
    · intro i hi
      rw [Memory.read_write h1]
      split
      · next h => rw [show i = n by omega]
      · exact h3 i (by omega)
    · intro a h
      rw [Memory.read_write h1, if_neg (h n (by omega))]
      exact h4 a fun i hi => h i (by omega)

/-- A DMA's 256 copies bring `oam_addr` back to where it was (40 R180). -/
theorem dmaCopy_eq (s : State) (page : Byte) (bus : List Byte) (p : Ppu) :
    dmaCopy s page bus p = { p with oam := (dmaCopy s page bus p).oam } := by
  have h := foldl_oamPush_eq (busAnswer s page bus) p 256
  have e : p.oamAddr + BitVec.ofNat 8 256 = p.oamAddr := BitVec.add_zero _
  rw [e] at h
  exact h

/-- OAM DMA in one equation: OAM, perhaps the latch, one `StallRequest`, 256 free values passed (40 R180, R181). -/
theorem execOamdmaW_eq (page : Byte) (odd : Bool) (bus : List Byte) (s : State) :
    execOamdmaW page odd bus s = .next { s with
      ppu := { s.ppu with
        latch := if s.params.dmaWriteUpdatesLatch then page else s.ppu.latch
        oam := (dmaCopy s page bus (if s.params.dmaWriteUpdatesLatch then { s.ppu with latch := page } else s.ppu)).oam }
      io := { s.io with outputs := s.io.outputs ++ [.stallRequest (513 + odd.toNat)], busReads := s.io.busReads + 256 } } := by
  unfold execOamdmaW
  simp only
  rw [dmaCopy_eq]
  generalize (dmaCopy s page bus (if s.params.dmaWriteUpdatesLatch then { s.ppu with latch := page } else s.ppu)).oam = m
  cases s.params.dmaWriteUpdatesLatch <;> rfl

/-! ### The actions of PPU_STEP -/

/-- A state with what the render actions write erased: two states that agree under it differ in those fields alone. -/
def State.eraseRender (s : State) : State :=
  { s with
    ppu := { s.ppu with
      v := 0, spr0Hit := false, sprOverflow := false, ntByte := 0, atBits := 0, patLo := 0, patHi := 0, tileData := 0,
      sprCount := 0, sprites := Vector.replicate 8 SpriteEntry.zero }
    io := { s.io with outputs := [] } }

/-- A state with what PPU_STEP writes erased. -/
def State.eraseStep (s : State) : State :=
  { s.eraseRender with
    ppu := { s.eraseRender.ppu with
      scanline := 0, cycle := 0, f := false, nmiOccurred := false, nmiPrevious := false, nmiDelay := 0 } }

theorem eraseRender_whenDo {f : State → State} (h : ∀ s, (f s).eraseRender = s.eraseRender) (c : Bool) (s : State) :
    (whenDo c f s).eraseRender = s.eraseRender := by
  cases c
  · rfl
  · exact h s

theorem eraseStep_whenDo {f : State → State} (h : ∀ s, (f s).eraseStep = s.eraseStep) (c : Bool) (s : State) :
    (whenDo c f s).eraseStep = s.eraseStep := by
  cases c
  · rfl
  · exact h s

theorem eraseRender_renderPixel (l c : Nat) (s : State) : (renderPixel l c s).eraseRender = s.eraseRender := rfl

/-- One slot of the fetch sequence writes its latch or the accumulator, and no other field. -/
theorem shiftAndFetch_eq (c : Nat) (s : State) :
    shiftAndFetch c s = s.setPpu { s.ppu with
      ntByte := if c % 8 = 1 then ppuRead s (ntFetchAddr s.ppu.v) else s.ppu.ntByte
      atBits := if c % 8 = 3 then atSelect s.ppu.v (ppuRead s (atFetchAddr s.ppu.v)) else s.ppu.atBits
      patLo := if c % 8 = 5 then ppuRead s s.ppu.bgRowAddr else s.ppu.patLo
      patHi := if c % 8 = 7 then ppuRead s (s.ppu.bgRowAddr + 8) else s.ppu.patHi
      tileData := if c % 8 = 0 then s.ppu.tileData <<< 4 ||| (pixelRow s.ppu.atBits s.ppu.patHi s.ppu.patLo false).setWidth 64
        else s.ppu.tileData <<< 4 } := by
  have hr : ∀ a, ppuRead (s.setPpu s.ppu.shiftTile) a = ppuRead s a := ppuRead_congr (.ofPpu rfl rfl rfl rfl rfl)
  rcases (by omega : c % 8 = 0 ∨ c % 8 = 1 ∨ c % 8 = 2 ∨ c % 8 = 3 ∨ c % 8 = 4 ∨ c % 8 = 5 ∨ c % 8 = 6 ∨ c % 8 = 7)
    with h | h | h | h | h | h | h | h <;>
  simp only [shiftAndFetch, h, fetchNt, fetchAt, fetchLo, fetchHi, hr, State.setPpu_ppu, State.setPpu_setPpu] <;> rfl

theorem eraseRender_shiftAndFetch (c : Nat) (s : State) : (shiftAndFetch c s).eraseRender = s.eraseRender := by
  rw [shiftAndFetch_eq]; rfl

theorem eraseRender_scroll (g : VramAddr → VramAddr → VramAddr) (s : State) : (s.scroll g).eraseRender = s.eraseRender := rfl

theorem eraseRender_spriteAction (l : Nat) (s : State) : (spriteAction l s).eraseRender = s.eraseRender := by
  unfold spriteAction evaluateSprites
  split <;> rfl

/-- Actions 3a to 3g write nothing but `v`, the pipeline, the sprite buffers, two flags and the output list. -/
theorem eraseRender_renderActions (l c : Nat) (s : State) : (renderActions l c s).eraseRender = s.eraseRender := by
  unfold renderActions
  rw [eraseRender_whenDo (eraseRender_spriteAction l), eraseRender_whenDo (eraseRender_scroll _),
    eraseRender_whenDo (eraseRender_scroll _), eraseRender_whenDo (eraseRender_scroll _),
    eraseRender_whenDo (eraseRender_scroll _), eraseRender_whenDo (eraseRender_shiftAndFetch c),
    eraseRender_whenDo (eraseRender_renderPixel l c)]

theorem eraseStep_of_eraseRender {s t : State} (h : t.eraseRender = s.eraseRender) : t.eraseStep = s.eraseStep := by
  unfold State.eraseStep; rw [h]

theorem eraseStep_nmiCountdown (s : State) : (nmiCountdown s).eraseStep = s.eraseStep := by
  unfold nmiCountdown
  split
  · rfl
  · unfold State.emitIf; split <;> rfl

theorem eraseStep_advance (s : State) : (s.setPpu s.ppu.advance).eraseStep = s.eraseStep := by
  unfold Ppu.advance
  split <;> (try split) <;> (try split) <;> rfl

theorem eraseStep_setVblank (s : State) : (setVblank s).eraseStep = s.eraseStep := rfl

theorem eraseStep_clearVblank (s : State) : (clearVblank s).eraseStep = s.eraseStep := rfl

/-- PPU_STEP writes the position, the NMI detector, the flags, `v`, the pipeline, the sprite buffers and the output list,
and nothing else (41 R200). -/
theorem eraseStep_ppuStep (s : State) : (ppuStep s).eraseStep = s.eraseStep := by
  unfold ppuStep positionActions
  simp only
  rw [eraseStep_whenDo eraseStep_clearVblank, eraseStep_whenDo eraseStep_setVblank,
    eraseStep_whenDo (fun s => eraseStep_of_eraseRender (eraseRender_renderActions _ _ s)), eraseStep_advance,
    eraseStep_nmiCountdown]

/-- The equation behind `eraseStep`. -/
theorem eq_of_eraseStep {s t : State} (h : t.eraseStep = s.eraseStep) :
    t = { s with
      ppu := { s.ppu with
        scanline := t.ppu.scanline, cycle := t.ppu.cycle, f := t.ppu.f, v := t.ppu.v, nmiOccurred := t.ppu.nmiOccurred,
        spr0Hit := t.ppu.spr0Hit, sprOverflow := t.ppu.sprOverflow, nmiPrevious := t.ppu.nmiPrevious,
        nmiDelay := t.ppu.nmiDelay, ntByte := t.ppu.ntByte, atBits := t.ppu.atBits, patLo := t.ppu.patLo,
        patHi := t.ppu.patHi, tileData := t.ppu.tileData, sprCount := t.ppu.sprCount, sprites := t.ppu.sprites }
      io := { s.io with outputs := t.io.outputs } } := by
  obtain ⟨params, ppu, mapper, cart, fatal, io⟩ := s
  obtain ⟨params', ppu', mapper', cart', fatal', io'⟩ := t
  cases ppu; cases ppu'; cases io; cases io'
  simp only [State.eraseStep, State.eraseRender, State.mk.injEq, Ppu.mk.injEq, Io.mk.injEq] at h
  simp only [h]

/-- The equation of PPU_STEP: what it does not list it does not write (41 R200). -/
theorem ppuStep_frame (s : State) :
    ppuStep s = { s with
      ppu := { s.ppu with
        scanline := (ppuStep s).ppu.scanline, cycle := (ppuStep s).ppu.cycle, f := (ppuStep s).ppu.f, v := (ppuStep s).ppu.v,
        nmiOccurred := (ppuStep s).ppu.nmiOccurred, spr0Hit := (ppuStep s).ppu.spr0Hit,
        sprOverflow := (ppuStep s).ppu.sprOverflow, nmiPrevious := (ppuStep s).ppu.nmiPrevious,
        nmiDelay := (ppuStep s).ppu.nmiDelay, ntByte := (ppuStep s).ppu.ntByte, atBits := (ppuStep s).ppu.atBits,
        patLo := (ppuStep s).ppu.patLo, patHi := (ppuStep s).ppu.patHi, tileData := (ppuStep s).ppu.tileData,
        sprCount := (ppuStep s).ppu.sprCount, sprites := (ppuStep s).ppu.sprites }
      io := { s.io with outputs := (ppuStep s).io.outputs } } :=
  eq_of_eraseStep (eraseStep_ppuStep s)

end Sys2Proof.Machine
end

