-- ==== Sys2Proof/Laws/Exec.lean ====
section
/-! SUPPORT. What the instructions of one kind can do: the mapper registers. -/

namespace Sys2Proof.Machine

theorem execAxRegW_mapperOnly {s t : State} {d : Byte} (h : execAxRegW d s = .next t) : s.MapperOnly t := by
  unfold execAxRegW at h
  split at h
  · next bank hr =>
    have := mapperRegWrite_mapperOnly s 0x8000 d
    unfold mapperRegWrite at this
    rw [hr] at this
    cases h
    exact this
  · cases h

/-- An instruction of VRC2 answers next exactly on VRC2. -/
theorem onVrc2_next {mnemonic : String} {s t : State} {f : Revision → Vrc2Regs → State} (h : onVrc2 mnemonic s f = .next t) :
    ∃ rev r, s.mapper.regs = .vrc2 rev r ∧ t = f rev r := by
  unfold onVrc2 at h
  split at h
  · next rev r hr => exact ⟨rev, r, hr, by simpa using h.symm⟩
  · cases h

theorem onVrc2_eq {mnemonic : String} {s : State} {f : Revision → Vrc2Regs → State} {rev : Revision} {r : Vrc2Regs}
    (h : s.mapper.regs = .vrc2 rev r) : onVrc2 mnemonic s f = .next (f rev r) := by
  unfold onVrc2; rw [h]

theorem execV2Prg0W_mapperOnly {s t : State} {d : Byte} (h : execV2Prg0W d s = .next t) : s.MapperOnly t := by
  obtain ⟨rev, r, hr, rfl⟩ := onVrc2_next h
  exact (v2Write_mapperOnly hr d 0 0).1

theorem execV2MirrorW_mapperOnly {s t : State} {d : Byte} (h : execV2MirrorW d s = .next t) : s.MapperOnly t := by
  obtain ⟨rev, r, hr, rfl⟩ := onVrc2_next h
  exact (v2Write_mapperOnly hr d 0 0).2.1

theorem execV2Prg1W_mapperOnly {s t : State} {d : Byte} (h : execV2Prg1W d s = .next t) : s.MapperOnly t := by
  obtain ⟨rev, r, hr, rfl⟩ := onVrc2_next h
  exact (v2Write_mapperOnly hr d 0 0).2.2.1

theorem execV2ChrW_mapperOnly {s t : State} {group : BitVec 4} {sub : BitVec 2} {d : Byte}
    (h : execV2ChrW group sub d s = .next t) : s.MapperOnly t := by
  obtain ⟨rev, r, hr, rfl⟩ := onVrc2_next h
  exact (v2Write_mapperOnly hr d group sub).2.2.2.1

theorem execV2IrqLatchLoW_mapperOnly {s t : State} {d : Byte} (h : execV2IrqLatchLoW d s = .next t) : s.MapperOnly t := by
  obtain ⟨rev, r, hr, rfl⟩ := onVrc2_next h
  exact (v2Write_mapperOnly hr d 0 0).2.2.2.2.1

theorem execV2IrqLatchHiW_mapperOnly {s t : State} {d : Byte} (h : execV2IrqLatchHiW d s = .next t) : s.MapperOnly t := by
  obtain ⟨rev, r, hr, rfl⟩ := onVrc2_next h
  exact (v2Write_mapperOnly hr d 0 0).2.2.2.2.2.1

theorem execV2IrqCtrlW_mapperOnly {s t : State} {d : Byte} (h : execV2IrqCtrlW d s = .next t) : s.MapperOnly t := by
  obtain ⟨rev, r, hr, rfl⟩ := onVrc2_next h
  exact (v2Write_mapperOnly hr d 0 0).2.2.2.2.2.2.1

theorem execV2IrqAckW_mapperOnly {s t : State} (h : execV2IrqAckW s = .next t) : s.MapperOnly t := by
  obtain ⟨rev, r, hr, rfl⟩ := onVrc2_next h
  exact (v2Write_mapperOnly hr 0 0 0).2.2.2.2.2.2.2

theorem execMapR_eq (addr : CpuAddr) (s : State) : execMapR addr s = .next (s.returns (mapperRead s addr)) := by
  unfold execMapR; rw [mapperCovers_toNat]; rfl

theorem execMapW_eq (addr : CpuAddr) (d : Byte) (s : State) : execMapW addr d s = .next (mapperWrite s addr d) := by
  unfold execMapW; rw [mapperCovers_toNat]; rfl

end Sys2Proof.Machine
end

