-- ==== Sys2Proof/Laws/Sequencer.lean ====
section
/-! SUPPORT. What PPU_STEP does, said once: the state it arrives with, and every field the actions of a position write. -/

namespace Sys2Proof.Machine

/-! ### Countdown and advance -/

/-- `NmiCountdown` writes the delay and may append one `NmiRaise` (41 R201). -/
theorem nmiCountdown_eq (s : State) :
    nmiCountdown s = { s with
      ppu := { s.ppu with nmiDelay := if s.ppu.nmiDelay = 0 then 0 else s.ppu.nmiDelay - 1 }
      io := { s.io with outputs := s.io.outputs ++
        if s.ppu.nmiDelay == 1 && s.ppu.ctrl.nmiOutput && s.ppu.nmiOccurred then [.nmiRaise] else [] } } := by
  unfold nmiCountdown
  by_cases h : s.ppu.nmiDelay = 0
  · have e : (s.ppu.nmiDelay == 1 && s.ppu.ctrl.nmiOutput && s.ppu.nmiOccurred) = false := by rw [h]; rfl
    rw [if_pos h, if_pos h, e, ← h]
    simp only [Bool.false_eq_true, if_false, List.append_nil]
  · have h1 : (s.ppu.nmiDelay - 1 == 0) = (s.ppu.nmiDelay == 1) := by
      generalize s.ppu.nmiDelay = d; revert d; decide
    rw [if_neg h, if_neg h, h1]
    unfold State.emitIf
    split <;> simp [State.emit, State.setPpu]

/-- The state with which the actions of the new position start. -/
def State.arrived (s : State) : State := (nmiCountdown s).setPpu (nmiCountdown s).ppu.advance

theorem ppuStep_eq (s : State) :
    ppuStep s = positionActions s.arrived.ppu.scanline.toNat s.arrived.ppu.cycle.toNat s.arrived := rfl

/-- `Advance` writes the position and the parity, and no other field (41 R203, R204). -/
theorem Ppu.advance_eq (p : Ppu) :
    p.advance = { p with scanline := p.advance.scanline, cycle := p.advance.cycle, f := p.advance.f } := by
  unfold Ppu.advance
  split <;> (try split) <;> (try split) <;> rfl

/-- The actions of the new position start with the position moved, the delay counted and `NmiRaise` emitted if it is due,
and every other field as it was (41 R200, R201). -/
theorem State.arrived_eq (s : State) : s.arrived = { s with
    ppu := { s.ppu with
      scanline := s.arrived.ppu.scanline, cycle := s.arrived.ppu.cycle, f := s.arrived.ppu.f,
      nmiDelay := if s.ppu.nmiDelay = 0 then 0 else s.ppu.nmiDelay - 1 }
    io := { s.io with outputs := s.io.outputs ++
      if (s.ppu.nmiDelay == 1 && s.ppu.ctrl.nmiOutput && s.ppu.nmiOccurred) = true then [.nmiRaise] else [] } } := by
  unfold State.arrived
  rw [Ppu.advance_eq, nmiCountdown_eq]
  rfl

/-- Inside a line the position moves one cycle to the right (41 R203). -/
theorem Ppu.advance_inside {p : Ppu} (hs : p.skips = false) (hc : p.cycle.toNat < 340) :
    p.advance = { p with cycle := p.cycle + 1 } := by
  unfold Ppu.advance
  rw [hs, if_neg (by simp), if_pos hc]

/-- `NmiCountdown` does not change whether the odd-frame skip applies. -/
theorem skips_nmiCountdown (s : State) : (nmiCountdown s).ppu.skips = s.ppu.skips := by
  rw [nmiCountdown_eq]; rfl

/-- PPU_STEP inside a line: the actions of `(l, c)` on the state after the countdown, the cycle being `c`. -/
theorem ppuStep_inside {s : State} {l c : Nat} (hl : s.ppu.scanline.toNat = l) (hc : s.ppu.cycle.toNat + 1 = c) (hle : c ≤ 340)
    (hs : s.ppu.skips = false) :
    ppuStep s = positionActions l c ((nmiCountdown s).setPpu { (nmiCountdown s).ppu with cycle := s.ppu.cycle + 1 }) := by
  have ha : s.arrived = (nmiCountdown s).setPpu { (nmiCountdown s).ppu with cycle := s.ppu.cycle + 1 } := by
    have h1 : (nmiCountdown s).ppu.cycle = s.ppu.cycle := by rw [nmiCountdown_eq]
    unfold State.arrived
    rw [Ppu.advance_inside (by rw [skips_nmiCountdown, hs]) (by rw [h1]; omega), h1]
  have h2 : s.arrived.ppu.scanline = s.ppu.scanline := by rw [ha, nmiCountdown_eq]; rfl
  have h3 : s.arrived.ppu.cycle.toNat = c := by
    rw [ha]; simp only [State.setPpu_ppu, BitVec.toNat_add]; simp; omega
  rw [ppuStep_eq, h2, h3, hl, ha]

/-! ### The fields the render actions write -/

theorem renderPixel_eq (l c : Nat) (s : State) :
    renderPixel l c s = { s with
      ppu := { s.ppu with spr0Hit := s.ppu.spr0Hit || spriteZeroHit s.ppu (c - 1) }
      io := { s.io with outputs := s.io.outputs ++ [.pixelWrite (BitVec.ofNat 8 (c - 1)) (BitVec.ofNat 8 l)
        (pixelIndex s.ppu (c - 1)) ((palRead s.ppu (pixelIndex s.ppu (c - 1))).setWidth 6)] } } := rfl

theorem spriteAction_v (l : Nat) (s : State) : (spriteAction l s).ppu.v = s.ppu.v := by
  unfold spriteAction evaluateSprites; split <;> rfl

theorem spriteAction_io (l : Nat) (s : State) : (spriteAction l s).io = s.io := by
  unfold spriteAction evaluateSprites; split <;> rfl

theorem shiftAndFetch_v (c : Nat) (s : State) : (shiftAndFetch c s).ppu.v = s.ppu.v := by rw [shiftAndFetch_eq]; rfl

theorem shiftAndFetch_t (c : Nat) (s : State) : (shiftAndFetch c s).ppu.t = s.ppu.t := by rw [shiftAndFetch_eq]; rfl

theorem shiftAndFetch_io (c : Nat) (s : State) : (shiftAndFetch c s).io = s.io := by rw [shiftAndFetch_eq]; rfl

theorem whenDo_v (c : Bool) (f : State → State) (s : State) :
    (whenDo c f s).ppu.v = if c = true then (f s).ppu.v else s.ppu.v := by cases c <;> rfl

theorem whenDo_t (c : Bool) (f : State → State) (s : State) :
    (whenDo c f s).ppu.t = if c = true then (f s).ppu.t else s.ppu.t := by cases c <;> rfl

theorem whenDo_io (c : Bool) (f : State → State) (s : State) :
    (whenDo c f s).io = if c = true then (f s).io else s.io := by cases c <;> rfl

theorem scroll_v (g : VramAddr → VramAddr → VramAddr) (s : State) : (s.scroll g).ppu.v = g s.ppu.v s.ppu.t := rfl

theorem scroll_t (g : VramAddr → VramAddr → VramAddr) (s : State) : (s.scroll g).ppu.t = s.ppu.t := rfl

theorem scroll_io (g : VramAddr → VramAddr → VramAddr) (s : State) : (s.scroll g).io = s.io := rfl

theorem renderPixel_v (l c : Nat) (s : State) : (renderPixel l c s).ppu.v = s.ppu.v := rfl

theorem renderPixel_t (l c : Nat) (s : State) : (renderPixel l c s).ppu.t = s.ppu.t := rfl

/-- `v` after the actions of a position: the vertical copy, IncX, IncY and the horizontal copy, in that order. -/
theorem renderActions_v (l c : Nat) (s : State) :
    (renderActions l c s).ppu.v =
      let v1 := if (preLine l && 280 ≤ c && c ≤ 304) = true then copyY s.ppu.v s.ppu.t else s.ppu.v
      let v2 := if (renderLine l && fetchCycle c && c % 8 == 0) = true then incX v1 else v1
      let v3 := if (renderLine l && c == 256) = true then incY v2 else v2
      if (renderLine l && c == 257) = true then copyX v3 s.ppu.t else v3 := by
  simp only [renderActions, whenDo_v, whenDo_t, spriteAction_v, scroll_v, scroll_t, shiftAndFetch_v, shiftAndFetch_t,
    renderPixel_v, renderPixel_t, ite_self]

/-- The output list after the actions of a position: one pixel on a visible cycle. -/
theorem renderActions_io (l c : Nat) (s : State) :
    (renderActions l c s).io = if (visibleLine l && visibleCycle c) = true then (renderPixel l c s).io else s.io := by
  simp only [renderActions, whenDo_io, spriteAction_io, scroll_io, shiftAndFetch_io, ite_self]

/-- The fetch latches and the accumulator (10 R40, R41). -/
def Ppu.pipe (p : Ppu) : Byte × BitVec 4 × Byte × Byte × BitVec 64 := (p.ntByte, p.atBits, p.patLo, p.patHi, p.tileData)

/-- The sprite buffers and the flag evaluation sets (10 R34, R42). -/
def Ppu.buffers (p : Ppu) : Vector SpriteEntry 8 × BitVec 4 × Bool := (p.sprites, p.sprCount, p.sprOverflow)

/-- The fetch latches and the accumulator are written by `ShiftAndFetch` alone (42 R230, R231). -/
theorem renderActions_pipe (l c : Nat) (s : State) :
    (renderActions l c s).ppu.ntByte = (whenDo (renderLine l && fetchCycle c) (shiftAndFetch c) s).ppu.ntByte ∧
      (renderActions l c s).ppu.atBits = (whenDo (renderLine l && fetchCycle c) (shiftAndFetch c) s).ppu.atBits ∧
      (renderActions l c s).ppu.patLo = (whenDo (renderLine l && fetchCycle c) (shiftAndFetch c) s).ppu.patLo ∧
      (renderActions l c s).ppu.patHi = (whenDo (renderLine l && fetchCycle c) (shiftAndFetch c) s).ppu.patHi ∧
      (renderActions l c s).ppu.tileData = (whenDo (renderLine l && fetchCycle c) (shiftAndFetch c) s).ppu.tileData := by
  have hs : ∀ (b : Bool) (u : State), (whenDo b (spriteAction l) u).ppu.pipe = u.ppu.pipe := by
    intro b u; cases b
    · rfl
    · show (spriteAction l u).ppu.pipe = _
      unfold spriteAction evaluateSprites; split <;> rfl
  have hv : ∀ (b : Bool) (g : VramAddr → VramAddr → VramAddr) (u : State), (whenDo b (State.scroll g) u).ppu.pipe = u.ppu.pipe := by
    intro b g u; cases b <;> rfl
  have hp : ∀ (b : Bool) (u : State),
      (whenDo b (shiftAndFetch c) (whenDo (visibleLine l && visibleCycle c) (renderPixel l c) u)).ppu.pipe =
        (whenDo b (shiftAndFetch c) u).ppu.pipe := by
    intro b u
    have hr : ∀ a, ppuRead (renderPixel l c u) a = ppuRead u a := ppuRead_congr (.ofPpu rfl rfl rfl rfl rfl)
    cases b <;> cases visibleLine l && visibleCycle c <;> try rfl
    show (shiftAndFetch c (renderPixel l c u)).ppu.pipe = (shiftAndFetch c u).ppu.pipe
    simp only [shiftAndFetch_eq, hr]; rfl
  have h : (renderActions l c s).ppu.pipe = (whenDo (renderLine l && fetchCycle c) (shiftAndFetch c) s).ppu.pipe := by
    unfold renderActions
    simp only [hs, hv, hp]
  simpa only [Ppu.pipe, Prod.mk.injEq] using h

/-- The sprite buffers are written at cycle 257 alone (43 R270, R274). -/
theorem renderActions_sprites (l : Nat) {c : Nat} (hc : c ≠ 257) (s : State) :
    (renderActions l c s).ppu.sprites = s.ppu.sprites ∧ (renderActions l c s).ppu.sprCount = s.ppu.sprCount ∧
      (renderActions l c s).ppu.sprOverflow = s.ppu.sprOverflow := by
  have h : (renderActions l c s).ppu.buffers = s.ppu.buffers := by
    have h1 : ∀ (b : Bool) (g : VramAddr → VramAddr → VramAddr) (u : State), (whenDo b (State.scroll g) u).ppu.buffers = u.ppu.buffers := by
      intro b g u; cases b <;> rfl
    have h2 : ∀ (b : Bool) (u : State), (whenDo b (shiftAndFetch c) u).ppu.buffers = u.ppu.buffers := by
      intro b u; cases b
      · rfl
      · show (shiftAndFetch c u).ppu.buffers = _; rw [shiftAndFetch_eq]; rfl
    have h3 : ∀ (b : Bool) (u : State), (whenDo b (renderPixel l c) u).ppu.buffers = u.ppu.buffers := by
      intro b u; cases b <;> rfl
    unfold renderActions
    rw [show (c == 257) = false from beq_eq_false_iff_ne.2 hc]
    simp only [whenDo_eq, Bool.false_eq_true, if_false] at h1 h2 h3 ⊢
    rw [h1, h1, h1, h1, h2, h3]
  simpa only [Ppu.buffers, Prod.mk.injEq] using h

/-- At cycle 257 the horizontal copy and the sprite action run, and no other (41 R200). -/
theorem renderActions_257 (l : Nat) (s : State) :
    renderActions l 257 s = spriteAction l (whenDo (renderLine l) (State.scroll copyX) s) := by
  have h1 : visibleCycle 257 = false := rfl
  have h2 : fetchCycle 257 = false := rfl
  have h3 : decide (280 ≤ 257) = false := rfl
  have h4 : ((257 : Nat) == 256) = false := rfl
  simp only [renderActions, h1, h2, h3, h4, Bool.and_false, Bool.false_and, beq_self_eq_true, Bool.and_true]
  rfl

/-- The sprite-zero flag is written by `RenderPixel` alone (42 R252). -/
theorem renderActions_spr0Hit (l c : Nat) (s : State) :
    (renderActions l c s).ppu.spr0Hit = (whenDo (visibleLine l && visibleCycle c) (renderPixel l c) s).ppu.spr0Hit := by
  have hs : ∀ (b : Bool) (u : State), (whenDo b (spriteAction l) u).ppu.spr0Hit = u.ppu.spr0Hit := by
    intro b u; cases b
    · rfl
    · show (spriteAction l u).ppu.spr0Hit = _
      unfold spriteAction evaluateSprites; split <;> rfl
  have hv : ∀ (b : Bool) (g : VramAddr → VramAddr → VramAddr) (u : State), (whenDo b (State.scroll g) u).ppu.spr0Hit = u.ppu.spr0Hit := by
    intro b g u; cases b <;> rfl
  have hf : ∀ (b : Bool) (u : State), (whenDo b (shiftAndFetch c) u).ppu.spr0Hit = u.ppu.spr0Hit := by
    intro b u; cases b
    · rfl
    · show (shiftAndFetch c u).ppu.spr0Hit = _; rw [shiftAndFetch_eq]; rfl
  unfold renderActions
  simp only [hs, hv, hf]

/-- What vblank leaves of the render actions: all but the two sprite flags, which are cleared at (261, 1), and one event at
(241, 1) (41 R210, R211). -/
theorem positionActions_render (l c : Nat) (s : State) :
    let r := whenDo s.ppu.renderingEnabled (renderActions l c) s
    (positionActions l c s).ppu.v = r.ppu.v ∧ (positionActions l c s).ppu.pipe = r.ppu.pipe ∧
      (positionActions l c s).ppu.sprites = r.ppu.sprites ∧ (positionActions l c s).ppu.sprCount = r.ppu.sprCount ∧
      (positionActions l c s).ppu.spr0Hit = (if (l == 261 && c == 1) = true then false else r.ppu.spr0Hit) ∧
      (positionActions l c s).ppu.sprOverflow = (if (l == 261 && c == 1) = true then false else r.ppu.sprOverflow) ∧
      (positionActions l c s).io.outputs = r.io.outputs ++ if (l == 241 && c == 1) = true then [.framePresent] else [] := by
  unfold positionActions
  simp only
  generalize whenDo s.ppu.renderingEnabled (renderActions l c) s = r
  cases l == 241 && c == 1 <;> cases l == 261 && c == 1 <;>
    refine ⟨rfl, rfl, rfl, rfl, rfl, rfl, ?_⟩ <;> first | rfl | exact (List.append_nil _).symm

/-- The vblank flag, the NMI line and the delay (10 R32, R35). -/
def Ppu.nmi (p : Ppu) : Bool × Bool × BitVec 8 := (p.nmiOccurred, p.nmiPrevious, p.nmiDelay)

/-- The render actions leave the NMI detector alone. -/
theorem renderActions_nmi (b : Bool) (l c : Nat) (s : State) : (whenDo b (renderActions l c) s).ppu.nmi = s.ppu.nmi := by
  have h := congrArg (·.ppu) (eraseRender_whenDo (eraseRender_renderActions l c) b s)
  simp only [State.eraseRender, Ppu.mk.injEq] at h
  simp only [Ppu.nmi, h]

/-- Off (241, 1) and (261, 1) the actions of a position leave the NMI detector alone; at (261, 1) the line goes low and the
delay stays (41 R200, R210, R211, R215). -/
theorem positionActions_nmi (l c : Nat) (s : State) :
    (¬ (l = 241 ∧ c = 1) → ¬ (l = 261 ∧ c = 1) → (positionActions l c s).ppu.nmi = s.ppu.nmi) ∧
      (l = 261 ∧ c = 1 → (positionActions l c s).ppu.nmi = (false, false, s.ppu.nmiDelay)) := by
  have hr := renderActions_nmi s.ppu.renderingEnabled l c s
  have b1 : (l == 241 && c == 1) = decide (l = 241 ∧ c = 1) := by
    rw [Bool.eq_iff_iff]; simp only [Bool.and_eq_true, beq_iff_eq, decide_eq_true_eq]
  have b2 : (l == 261 && c == 1) = decide (l = 261 ∧ c = 1) := by
    rw [Bool.eq_iff_iff]; simp only [Bool.and_eq_true, beq_iff_eq, decide_eq_true_eq]
  unfold positionActions
  simp only [b1, b2]
  refine ⟨fun h1 h2 => ?_, fun h => ?_⟩
  · rw [decide_eq_false h1, decide_eq_false h2]; exact hr
  · rw [decide_eq_false (p := l = 241 ∧ c = 1) (by omega), decide_eq_true h]
    simp only [whenDo_eq, Bool.false_eq_true, if_false, if_true] at hr ⊢
    simp only [Ppu.nmi, Prod.mk.injEq] at hr
    simp only [Ppu.nmi, clearVblank, Ppu.nmiChange, Ppu.nmiLine, State.setPpu_ppu, Bool.and_false, Bool.false_and,
      Bool.false_eq_true, if_false, hr.2.2]

/-! ### The position -/

/-- The actions of a position do not move it. -/
theorem positionActions_position (l c : Nat) (s : State) :
    (positionActions l c s).ppu.scanline = s.ppu.scanline ∧ (positionActions l c s).ppu.cycle = s.ppu.cycle ∧
      (positionActions l c s).ppu.f = s.ppu.f := by
  have h : ∀ (b1 b2 : Bool) (u : State), u.ppu.scanline = s.ppu.scanline ∧ u.ppu.cycle = s.ppu.cycle ∧ u.ppu.f = s.ppu.f →
      (whenDo b1 clearVblank (whenDo b2 setVblank u)).ppu.scanline = s.ppu.scanline ∧
      (whenDo b1 clearVblank (whenDo b2 setVblank u)).ppu.cycle = s.ppu.cycle ∧
      (whenDo b1 clearVblank (whenDo b2 setVblank u)).ppu.f = s.ppu.f := by
    intro b1 b2 u hu; cases b1 <;> cases b2 <;> exact hu
  refine h _ _ _ ?_
  have hr := congrArg (·.ppu) (eraseRender_whenDo (eraseRender_renderActions l c) s.ppu.renderingEnabled s)
  simp only [State.eraseRender, Ppu.mk.injEq] at hr
  exact ⟨hr.1, hr.2.1, hr.2.2.1⟩

/-- PPU_STEP moves the position and the parity exactly as `Advance` does (41 R200, R203). -/
theorem ppuStep_position (s : State) :
    (ppuStep s).ppu.scanline = s.ppu.advance.scanline ∧ (ppuStep s).ppu.cycle = s.ppu.advance.cycle ∧
      (ppuStep s).ppu.f = s.ppu.advance.f := by
  have hp := positionActions_position s.arrived.ppu.scanline.toNat s.arrived.ppu.cycle.toNat s.arrived
  rw [← ppuStep_eq] at hp
  have ha : s.arrived.ppu.scanline = s.ppu.advance.scanline ∧ s.arrived.ppu.cycle = s.ppu.advance.cycle ∧
      s.arrived.ppu.f = s.ppu.advance.f := by
    unfold State.arrived
    rw [nmiCountdown_eq]
    unfold Ppu.advance Ppu.skips Ppu.renderingEnabled
    simp only [State.setPpu_ppu]
    split <;> (try split) <;> (try split) <;> exact ⟨rfl, rfl, rfl⟩
  rw [hp.1, hp.2.1, hp.2.2]; exact ha

end Sys2Proof.Machine
end

