-- ==== Sys2Proof/Laws/Snapshot.lean ====
section
/-! SUPPORT. Every reader of a snapshot undoes its writer, and reads nothing its writer cannot write (spec/46 R351, R353). -/

namespace Sys2Proof.Machine

/-! ### Single fields -/

theorem takeByte_cons (b : Byte) (r : List Byte) : takeByte (b :: r) = some (b, r) := rfl

theorem takeByte_some {bs : List Byte} {b : Byte} {r : List Byte} (h : takeByte bs = some (b, r)) : bs = b :: r := by
  cases bs with
  | nil => simp [takeByte] at h
  | cons c rest => simp [takeByte] at h; rw [h.1, h.2]

theorem takeBit_bitByte (b : Bool) (r : List Byte) : takeBit (bitByte b :: r) = some (b, r) := by
  cases b <;> rfl

theorem takeBit_some {bs : List Byte} {b : Bool} {r : List Byte} (h : takeBit bs = some (b, r)) : bs = bitByte b :: r := by
  cases bs with
  | nil => simp [takeBit, takeByte] at h
  | cons c rest =>
    simp only [takeBit, takeByte] at h
    split at h
    · next hc => simp at h; rw [h.1, ← h.2, hc]; rfl
    · split at h
      · next hc => simp at h; rw [h.1, ← h.2, hc]; rfl
      · cases h

theorem takeNarrow_setWidth {w : Nat} (hw : w ≤ 8) (x : BitVec w) (r : List Byte) :
    takeNarrow w (x.setWidth 8 :: r) = some (x, r) := by
  have h1 := x.isLt
  have h2 : 2 ^ w ≤ 2 ^ 8 := Nat.pow_le_pow_right (by decide) hw
  have h3 : (x.setWidth 8).toNat = x.toNat := by rw [BitVec.toNat_setWidth]; exact Nat.mod_eq_of_lt (by omega)
  simp only [takeNarrow, takeByte, h3, if_pos h1]
  rw [show (x.setWidth 8).setWidth w = x by apply BitVec.eq_of_toNat_eq; rw [BitVec.toNat_setWidth, h3]; exact Nat.mod_eq_of_lt h1]

theorem takeNarrow_some {w : Nat} {bs : List Byte} {x : BitVec w} {r : List Byte} (h : takeNarrow w bs = some (x, r)) :
    bs = x.setWidth 8 :: r := by
  cases bs with
  | nil => simp [takeNarrow, takeByte] at h
  | cons c rest =>
    simp only [takeNarrow, takeByte] at h
    split at h
    · next hc =>
      simp at h
      rw [← h.1, ← h.2]
      congr 1
      apply BitVec.eq_of_toNat_eq
      rw [BitVec.toNat_setWidth, BitVec.toNat_setWidth, Nat.mod_eq_of_lt hc, Nat.mod_eq_of_lt c.isLt]
    · cases h

/-! ### One field after the other -/

theorem bind_of_eq {α β : Type} {a : Option α} {x : α} (h : a = some x) (f : α → Option β) : (a >>= f) = f x := by rw [h]; rfl

theorem of_bind_some {α β : Type} {a : Option α} {f : α → Option β} {y : β} (h : (a >>= f) = some y) :
    ∃ x, a = some x ∧ f x = some y := Option.bind_eq_some_iff.1 h

/-! ### Runs of bytes -/

@[simp] theorem length_leBytes {w : Nat} (n : Nat) (x : BitVec w) : (leBytes n x).length = n := by
  induction n generalizing x with
  | zero => rfl
  | succ n ih => simp [leBytes, ih]

theorem leNat_leBytes {w : Nat} (n : Nat) (x : BitVec w) : leNat (leBytes n x) = x.toNat % 256 ^ n := by
  induction n generalizing x with
  | zero => simp [leBytes, leNat, Nat.mod_one]
  | succ n ih =>
    rw [leBytes, leNat, ih, BitVec.extractLsb'_toNat, BitVec.toNat_ushiftRight]
    simp only [Nat.shiftRight_eq_div_pow, Nat.pow_zero, Nat.div_one]
    have e : x.toNat % 256 ^ (n + 1) = x.toNat % 256 + 256 * (x.toNat / 256 % 256 ^ n) := by
      rw [Nat.pow_succ, Nat.mul_comm]; exact Nat.mod_mul
    rw [e]

theorem leNat_lt (bs : List Byte) : leNat bs < 256 ^ bs.length := by
  induction bs with
  | nil => simp [leNat]
  | cons b rest ih =>
    have := b.isLt
    rw [leNat, List.length_cons, Nat.pow_succ]; omega

theorem leBytes_leNat {w : Nat} (bs : List Byte) (h : leNat bs < 2 ^ w) : leBytes bs.length (BitVec.ofNat w (leNat bs)) = bs := by
  induction bs generalizing w with
  | nil => rfl
  | cons b rest ih =>
    have hb := b.isLt
    rw [leNat] at h
    rw [List.length_cons, leBytes, leNat]
    have h1 : BitVec.extractLsb' 0 8 (BitVec.ofNat w (b.toNat + 256 * leNat rest)) = b := by
      apply BitVec.eq_of_toNat_eq
      rw [BitVec.extractLsb'_toNat, BitVec.toNat_ofNat, Nat.mod_eq_of_lt h, Nat.shiftRight_zero]; omega
    have h2 : BitVec.ofNat w (b.toNat + 256 * leNat rest) >>> 8 = BitVec.ofNat w (leNat rest) := by
      apply BitVec.eq_of_toNat_eq
      rw [BitVec.toNat_ushiftRight, BitVec.toNat_ofNat, BitVec.toNat_ofNat, Nat.mod_eq_of_lt h, Nat.shiftRight_eq_div_pow,
        Nat.mod_eq_of_lt (by omega)]
      omega
    rw [h1, h2, ih (by omega)]

theorem takeMany_append {n : Nat} {a r : List Byte} (h : a.length = n) : takeMany n (a ++ r) = some (a, r) := by
  unfold takeMany
  rw [if_pos (by simp [h]), List.take_left' h, List.drop_left' h]

theorem takeMany_some {n : Nat} {bs a r : List Byte} (h : takeMany n bs = some (a, r)) : bs = a ++ r ∧ a.length = n := by
  unfold takeMany at h
  split at h
  · simp at h
    refine ⟨?_, ?_⟩
    · rw [← h.1, ← h.2, List.take_append_drop]
    · rw [← h.1, List.length_take]; omega
  · cases h

theorem takeLe_leBytes {n w max : Nat} (hw : 2 ^ w ≤ 256 ^ n) (x : BitVec w) (hx : x.toNat ≤ max) (r : List Byte) :
    takeLe n w max (leBytes n x ++ r) = some (x, r) := by
  have h1 : leNat (leBytes n x) = x.toNat := by rw [leNat_leBytes, Nat.mod_eq_of_lt (Nat.lt_of_lt_of_le x.isLt hw)]
  unfold takeLe
  rw [takeMany_append (length_leBytes n x)]
  simp only [h1, if_pos hx]
  rw [BitVec.ofNat_toNat, BitVec.setWidth_eq]

theorem takeLe_some {n w max : Nat} (hmax : max < 2 ^ w) {bs r : List Byte} {x : BitVec w} (h : takeLe n w max bs = some (x, r)) :
    bs = leBytes n x ++ r ∧ x.toNat ≤ max := by
  unfold takeLe at h
  split at h
  · next le rest hm =>
    obtain ⟨h1, h2⟩ := takeMany_some hm
    split at h
    · next hle =>
      simp at h
      rw [← h.1, ← h.2]
      refine ⟨?_, ?_⟩
      · rw [h1, ← h2, leBytes_leNat le (by omega)]
      · rw [BitVec.toNat_ofNat, Nat.mod_eq_of_lt (by omega)]; exact hle
    · cases h
  · cases h

theorem takeMemory_toBytes {n : Nat} {m : Memory} (hw : Memory.wf m = true) (hb : Memory.below n m = true) (r : List Byte) :
    takeMemory n (Memory.toBytes n m ++ r) = some (m, r) := by
  unfold takeMemory
  rw [takeMany_append (Memory.length_toBytes n m)]
  simp only [Memory.ofBytes_toBytes hw hb]

theorem takeMemory_some {n : Nat} {bs r : List Byte} {m : Memory} (h : takeMemory n bs = some (m, r)) :
    bs = Memory.toBytes n m ++ r ∧ Memory.wf m = true ∧ Memory.below n m = true := by
  unfold takeMemory at h
  split at h
  · next a rest hm =>
    obtain ⟨h1, h2⟩ := takeMany_some hm
    simp at h
    rw [← h.1, ← h.2]
    refine ⟨?_, Memory.wf_ofBytes a, Memory.below_ofBytes n a (by omega)⟩
    rw [h1, ← h2, Memory.toBytes_ofBytes]
  · cases h

/-! ### Eight of a field -/

theorem takeEight_flatMap {α : Type} {one : List Byte → Option (α × List Byte)} {enc : α → List Byte}
    (h : ∀ x r, one (enc x ++ r) = some (x, r)) (v : Vector α 8) (r : List Byte) :
    takeEight one (v.toList.flatMap enc ++ r) = some (v, r) := by
  obtain ⟨⟨l⟩, hl⟩ := v
  simp at hl
  match l, hl with
  | [a, b, c, d, e, f, g, k], _ =>
    simp [takeEight, h]

theorem takeEight_some {α : Type} {one : List Byte → Option (α × List Byte)} {enc : α → List Byte}
    (h : ∀ {bs x r}, one bs = some (x, r) → bs = enc x ++ r) {bs r : List Byte} {v : Vector α 8}
    (hv : takeEight one bs = some (v, r)) : bs = v.toList.flatMap enc ++ r := by
  unfold takeEight at hv
  obtain ⟨⟨a, ra⟩, ha, hv⟩ := of_bind_some hv
  obtain ⟨⟨b, rb⟩, hb, hv⟩ := of_bind_some hv
  obtain ⟨⟨c, rc⟩, hc, hv⟩ := of_bind_some hv
  obtain ⟨⟨d, rd⟩, hd, hv⟩ := of_bind_some hv
  obtain ⟨⟨e, re⟩, he, hv⟩ := of_bind_some hv
  obtain ⟨⟨f, rf⟩, hf, hv⟩ := of_bind_some hv
  obtain ⟨⟨g, rg⟩, hg, hv⟩ := of_bind_some hv
  obtain ⟨⟨k, rk⟩, hk, hv⟩ := of_bind_some hv
  simp only [Option.some.injEq, Prod.mk.injEq] at hv
  obtain ⟨rfl, rfl⟩ := hv
  rw [h ha, h hb, h hc, h hd, h he, h hf, h hg, h hk]
  simp

/-- Eight one-byte fields. -/
theorem flatMap_single {α : Type} (f : α → Byte) (l : List α) : l.flatMap (fun x => [f x]) = l.map f := by
  induction l with
  | nil => rfl
  | cons a l ih => rw [List.flatMap_cons, ih]; rfl

/-! ### Packed bytes -/

theorem Control.ofByte_toByte (c : Control) : Control.ofByte c.toByte = c := by
  obtain ⟨nt, a, b, d, e, f, g⟩ := c
  revert nt
  cases a <;> cases b <;> cases d <;> cases e <;> cases f <;> cases g <;> decide

theorem Control.toByte_ofByte : ∀ b : Byte, (Control.ofByte b).toByte = b := by decide

theorem Mask.ofByte_toByte (m : Mask) : Mask.ofByte m.toByte = m := by
  obtain ⟨a, b, c, d, e, f, g, h⟩ := m
  cases a <;> cases b <;> cases c <;> cases d <;> cases e <;> cases f <;> cases g <;> cases h <;> decide

theorem Mask.toByte_ofByte : ∀ b : Byte, (Mask.ofByte b).toByte = b := by decide

/-- The status flags byte read back: bits 4 to 0 are zero and bits 7 to 5 are the flags. -/
theorem statusFlags_bits (p : Ppu) :
    (statusFlags p).extractLsb' 0 5 = 0 ∧ (statusFlags p).getLsbD 7 = p.nmiOccurred ∧
      (statusFlags p).getLsbD 6 = p.spr0Hit ∧ (statusFlags p).getLsbD 5 = p.sprOverflow := by
  unfold statusFlags
  cases p.nmiOccurred <;> cases p.spr0Hit <;> cases p.sprOverflow <;> decide

theorem statusFlags_of_bits : ∀ b : Byte, b.extractLsb' 0 5 = 0 →
    bitAt 7 (b.getLsbD 7) ||| bitAt 6 (b.getLsbD 6) ||| bitAt 5 (b.getLsbD 5) = b := by decide

theorem irqFlags_bits (r : Vrc2Regs) :
    ∃ x : BitVec 4, irqFlags r = x.setWidth 8 ∧ x.getLsbD 0 = r.irqEnableOnAck ∧ x.getLsbD 1 = r.irqEnable ∧
      x.getLsbD 2 = r.irqCycleMode ∧ x.getLsbD 3 = r.irqTriggered := by
  refine ⟨(irqFlags r).setWidth 4, ?_⟩
  unfold irqFlags
  cases r.irqEnableOnAck <;> cases r.irqEnable <;> cases r.irqCycleMode <;> cases r.irqTriggered <;> decide

theorem irqFlags_of_bits : ∀ x : BitVec 4,
    bitAt 3 (x.getLsbD 3) ||| bitAt 2 (x.getLsbD 2) ||| bitAt 1 (x.getLsbD 1) ||| bitAt 0 (x.getLsbD 0) = x.setWidth 8 := by decide

theorem MirrorMode.ofByte_toByte (m : MirrorMode) : MirrorMode.ofByte? m.toByte = some m := by cases m <;> rfl

theorem MirrorMode.ofByte_some : ∀ {b : Byte} {m : MirrorMode}, MirrorMode.ofByte? b = some m → b = m.toByte := by
  intro b m h
  cases m <;> revert b <;> decide

/-! ### The parts of a snapshot -/

theorem loadRegs_saveRegs {p : Ppu} (hl : p.scanline.toNat ≤ 261) (hc : p.cycle.toNat ≤ 340) (q : Ppu) (r : List Byte) :
    loadRegs q (saveRegs p ++ r) = some ({ q with
      scanline := p.scanline, cycle := p.cycle, f := p.f, v := p.v, t := p.t, x := p.x, w := p.w, latch := p.latch,
      readBuffer := p.readBuffer, ctrl := p.ctrl, mask := p.mask, nmiOccurred := p.nmiOccurred, spr0Hit := p.spr0Hit,
      sprOverflow := p.sprOverflow, nmiPrevious := p.nmiPrevious, nmiDelay := p.nmiDelay, oamAddr := p.oamAddr }, r) := by
  have hv := p.v.isLt
  have ht := p.t.isLt
  have hf := statusFlags_bits p
  have e : saveRegs p ++ r = leBytes 2 p.scanline ++ (leBytes 2 p.cycle ++ bitByte p.f :: (leBytes 2 p.v ++ (leBytes 2 p.t ++
      p.x.setWidth 8 :: bitByte p.w :: p.latch :: p.readBuffer :: p.ctrl.toByte :: p.mask.toByte :: statusFlags p ::
        bitByte p.nmiPrevious :: p.nmiDelay :: p.oamAddr :: r))) := by
    simp only [saveRegs, List.append_assoc, List.cons_append, List.nil_append]
  rw [e]
  refine (bind_of_eq (takeLe_leBytes (n := 2) (w := 9) (by decide) _ hl _) _).trans ?_
  refine (bind_of_eq (takeLe_leBytes (n := 2) (w := 9) (by decide) _ hc _) _).trans ?_
  refine (bind_of_eq (takeBit_bitByte _ _) _).trans ?_
  refine (bind_of_eq (takeLe_leBytes (n := 2) (w := 15) (max := 0x7FFF) (by decide) p.v (by omega) _) _).trans ?_
  refine (bind_of_eq (takeLe_leBytes (n := 2) (w := 15) (max := 0x7FFF) (by decide) p.t (by omega) _) _).trans ?_
  refine (bind_of_eq (takeNarrow_setWidth (w := 3) (by decide) _ _) _).trans ?_
  refine (bind_of_eq (takeBit_bitByte _ _) _).trans ?_
  refine (bind_of_eq (takeByte_cons _ _) _).trans ?_
  refine (bind_of_eq (takeByte_cons _ _) _).trans ?_
  refine (bind_of_eq (takeByte_cons _ _) _).trans ?_
  refine (bind_of_eq (takeByte_cons _ _) _).trans ?_
  refine (bind_of_eq (takeByte_cons _ _) _).trans ?_
  refine (bind_of_eq (takeBit_bitByte _ _) _).trans ?_
  refine (bind_of_eq (takeByte_cons _ _) _).trans ?_
  refine (bind_of_eq (takeByte_cons _ _) _).trans ?_
  refine (if_pos hf.1).trans ?_
  rw [Control.ofByte_toByte, Mask.ofByte_toByte, hf.2.1, hf.2.2.1, hf.2.2.2]

theorem loadRegs_some {q p : Ppu} {bs r : List Byte} (h : loadRegs q bs = some (p, r)) :
    bs = saveRegs p ++ r ∧ p.scanline.toNat ≤ 261 ∧ p.cycle.toNat ≤ 340 ∧
      p = { q with
        scanline := p.scanline, cycle := p.cycle, f := p.f, v := p.v, t := p.t, x := p.x, w := p.w, latch := p.latch,
        readBuffer := p.readBuffer, ctrl := p.ctrl, mask := p.mask, nmiOccurred := p.nmiOccurred, spr0Hit := p.spr0Hit,
        sprOverflow := p.sprOverflow, nmiPrevious := p.nmiPrevious, nmiDelay := p.nmiDelay, oamAddr := p.oamAddr } := by
  unfold loadRegs at h
  obtain ⟨⟨a1, r1⟩, h1, h⟩ := of_bind_some h
  obtain ⟨⟨a2, r2⟩, h2, h⟩ := of_bind_some h
  obtain ⟨⟨a3, r3⟩, h3, h⟩ := of_bind_some h
  obtain ⟨⟨a4, r4⟩, h4, h⟩ := of_bind_some h
  obtain ⟨⟨a5, r5⟩, h5, h⟩ := of_bind_some h
  obtain ⟨⟨a6, r6⟩, h6, h⟩ := of_bind_some h
  obtain ⟨⟨a7, r7⟩, h7, h⟩ := of_bind_some h
  obtain ⟨⟨a8, r8⟩, h8, h⟩ := of_bind_some h
  obtain ⟨⟨a9, r9⟩, h9, h⟩ := of_bind_some h
  obtain ⟨⟨a10, r10⟩, h10, h⟩ := of_bind_some h
  obtain ⟨⟨a11, r11⟩, h11, h⟩ := of_bind_some h
  obtain ⟨⟨a12, r12⟩, h12, h⟩ := of_bind_some h
  obtain ⟨⟨a13, r13⟩, h13, h⟩ := of_bind_some h
  obtain ⟨⟨a14, r14⟩, h14, h⟩ := of_bind_some h
  obtain ⟨⟨a15, r15⟩, h15, h⟩ := of_bind_some h
  simp only at h1 h2 h3 h4 h5 h6 h7 h8 h9 h10 h11 h12 h13 h14 h15 h
  split at h
  · next hz =>
    simp only [Option.some.injEq, Prod.mk.injEq] at h
    obtain ⟨rfl, rfl⟩ := h
    obtain ⟨e1, b1⟩ := takeLe_some (by decide) h1
    obtain ⟨e2, b2⟩ := takeLe_some (by decide) h2
    refine ⟨?_, b1, b2, rfl⟩
    rw [e1, e2, takeBit_some h3, (takeLe_some (by decide) h4).1, (takeLe_some (by decide) h5).1, takeNarrow_some h6,
      takeBit_some h7, takeByte_some h8, takeByte_some h9, takeByte_some h10, takeByte_some h11, takeByte_some h12,
      takeBit_some h13, takeByte_some h14, takeByte_some h15]
    simp only [saveRegs, statusFlags, Control.toByte_ofByte, Mask.toByte_ofByte, statusFlags_of_bits _ hz, List.append_assoc,
      List.cons_append, List.nil_append]
  · cases h

theorem loadMems_saveMems {p : Ppu} (h1 : Memory.wf p.oam = true) (h2 : Memory.below 256 p.oam = true)
    (h3 : Memory.wf p.pal = true) (h4 : Memory.below 32 p.pal = true) (h5 : Memory.wf p.nt = true)
    (h6 : Memory.below 2048 p.nt = true) (q : Ppu) (r : List Byte) :
    loadMems q (saveMems p ++ r) = some ({ q with oam := p.oam, pal := p.pal, nt := p.nt }, r) := by
  simp [loadMems, saveMems, takeMemory_toBytes h1 h2, takeMemory_toBytes h3 h4, takeMemory_toBytes h5 h6]

theorem loadMems_some {q p : Ppu} {bs r : List Byte} (h : loadMems q bs = some (p, r)) :
    bs = saveMems p ++ r ∧ p = { q with oam := p.oam, pal := p.pal, nt := p.nt } ∧
      (Memory.wf p.oam = true ∧ Memory.below 256 p.oam = true) ∧ (Memory.wf p.pal = true ∧ Memory.below 32 p.pal = true) ∧
      Memory.wf p.nt = true ∧ Memory.below 2048 p.nt = true := by
  unfold loadMems at h
  obtain ⟨⟨a1, r1⟩, h1, h⟩ := of_bind_some h
  obtain ⟨⟨a2, r2⟩, h2, h⟩ := of_bind_some h
  obtain ⟨⟨a3, r3⟩, h3, h⟩ := of_bind_some h
  simp only [Option.some.injEq, Prod.mk.injEq] at h1 h2 h3 h
  obtain ⟨rfl, rfl⟩ := h
  obtain ⟨e1, b1⟩ := takeMemory_some h1
  obtain ⟨e2, b2⟩ := takeMemory_some h2
  obtain ⟨e3, b3⟩ := takeMemory_some h3
  refine ⟨?_, rfl, b1, b2, b3⟩
  rw [e1, e2, e3]
  simp [saveMems]

theorem map_single {α : Type} (f : α → Byte) (l : List α) : l.map f = l.flatMap fun x => [f x] := (flatMap_single f l).symm

/-- The sprite buffers from their four arrays of fields. -/
def spritesOf (patterns : Vector (BitVec 32) 8) (xs : Vector Byte 8) (prios : Vector Bool 8) (indices : Vector (BitVec 6) 8) :
    Vector SpriteEntry 8 :=
  Vector.ofFn fun k => { pattern := patterns.get k, x := xs.get k, prio := prios.get k, index := indices.get k }

theorem spritesOf_fields (patterns : Vector (BitVec 32) 8) (xs : Vector Byte 8) (prios : Vector Bool 8)
    (indices : Vector (BitVec 6) 8) :
    (spritesOf patterns xs prios indices).map (fun e => e.pattern) = patterns ∧
      (spritesOf patterns xs prios indices).map (fun e => e.x) = xs ∧
      (spritesOf patterns xs prios indices).map (fun e => e.prio) = prios ∧
      (spritesOf patterns xs prios indices).map (fun e => e.index) = indices := by
  refine ⟨?_, ?_, ?_, ?_⟩ <;> (apply Vector.ext; intro i hi; simp [spritesOf, Vector.get])

theorem spritesOf_map (v : Vector SpriteEntry 8) :
    spritesOf (v.map fun e => e.pattern) (v.map fun e => e.x) (v.map fun e => e.prio) (v.map fun e => e.index) = v := by
  apply Vector.ext
  intro i hi
  simp [spritesOf, Vector.get]

/-- The four arrays of the sprite buffers, each entry's field one after the other. -/
theorem flatMap_sprites {α : Type} (v : Vector SpriteEntry 8) (g : SpriteEntry → α) (enc : α → List Byte) :
    (v.toList.flatMap fun e => enc (g e)) = (v.map g).toList.flatMap enc := by
  rw [Vector.toList_map, List.flatMap_map]

theorem map_sprites {α : Type} (v : Vector SpriteEntry 8) (g : SpriteEntry → α) (enc : α → Byte) :
    (v.toList.map fun e => enc (g e)) = (v.map g).toList.flatMap fun x => [enc x] := by
  rw [flatMap_single, Vector.toList_map, List.map_map]; rfl

theorem savePipe_eq (p : Ppu) :
    savePipe p = p.ntByte :: p.atBits.setWidth 8 :: p.patLo :: p.patHi :: (leBytes 8 p.tileData ++ p.sprCount.setWidth 8 ::
      ((p.sprites.map fun e => e.pattern).toList.flatMap (leBytes 4) ++
        ((p.sprites.map fun e => e.x).toList.flatMap (fun x => [x]) ++
          ((p.sprites.map fun e => e.prio).toList.flatMap (fun x => [bitByte x]) ++
            (p.sprites.map fun e => e.index).toList.flatMap (fun x => [x.setWidth 8]))))) := by
  rw [← flatMap_sprites, ← map_sprites p.sprites (fun e => e.x) (fun x => x), ← map_sprites, ← map_sprites p.sprites (fun e => e.index)]
  simp [savePipe]

theorem loadPipe_savePipe {p : Ppu} (ha : p.atBits.extractLsb' 0 2 = 0) (hc : p.sprCount.toNat ≤ 8) (q : Ppu) (r : List Byte) :
    loadPipe q (savePipe p ++ r) = some ({ q with
      ntByte := p.ntByte, atBits := p.atBits, patLo := p.patLo, patHi := p.patHi, tileData := p.tileData,
      sprCount := p.sprCount, sprites := p.sprites }, r) := by
  have ht := p.tileData.isLt
  have e1 := takeEight_flatMap (one := takeLe 4 32 (2 ^ 32 - 1)) (enc := leBytes 4)
    (fun x r => takeLe_leBytes (by decide) x (by have := x.isLt; omega) r)
  have e2 := takeEight_flatMap (one := takeByte) (enc := fun x => [x]) (fun _ _ => rfl)
  have e3 := takeEight_flatMap (one := takeBit) (enc := fun x => [bitByte x]) takeBit_bitByte
  have e4 := takeEight_flatMap (one := takeNarrow 6) (enc := fun x => [x.setWidth 8]) (takeNarrow_setWidth (by decide))
  rw [savePipe_eq]
  simp only [List.cons_append, List.append_assoc]
  refine (bind_of_eq (takeByte_cons _ _) _).trans ?_
  refine (bind_of_eq (takeNarrow_setWidth (w := 4) (by decide) _ _) _).trans ?_
  refine (bind_of_eq (takeByte_cons _ _) _).trans ?_
  refine (bind_of_eq (takeByte_cons _ _) _).trans ?_
  refine (bind_of_eq (takeLe_leBytes (n := 8) (w := 64) (max := 2 ^ 64 - 1) (by decide) p.tileData (by omega) _) _).trans ?_
  refine (bind_of_eq (takeNarrow_setWidth (w := 4) (by decide) _ _) _).trans ?_
  refine (bind_of_eq (e1 _ _) _).trans ?_
  refine (bind_of_eq (e2 _ _) _).trans ?_
  refine (bind_of_eq (e3 _ _) _).trans ?_
  refine (bind_of_eq (e4 _ _) _).trans ?_
  refine (if_pos ⟨ha, hc⟩).trans ?_
  exact congrArg (fun v => some ({ q with
    ntByte := p.ntByte, atBits := p.atBits, patLo := p.patLo, patHi := p.patHi, tileData := p.tileData,
    sprCount := p.sprCount, sprites := v }, r)) (spritesOf_map p.sprites)

theorem loadPipe_some {q p : Ppu} {bs r : List Byte} (h : loadPipe q bs = some (p, r)) :
    bs = savePipe p ++ r ∧ p.atBits.extractLsb' 0 2 = 0 ∧ p.sprCount.toNat ≤ 8 ∧
      p = { q with
        ntByte := p.ntByte, atBits := p.atBits, patLo := p.patLo, patHi := p.patHi, tileData := p.tileData,
        sprCount := p.sprCount, sprites := p.sprites } := by
  unfold loadPipe at h
  obtain ⟨⟨a1, r1⟩, h1, h⟩ := of_bind_some h
  obtain ⟨⟨a2, r2⟩, h2, h⟩ := of_bind_some h
  obtain ⟨⟨a3, r3⟩, h3, h⟩ := of_bind_some h
  obtain ⟨⟨a4, r4⟩, h4, h⟩ := of_bind_some h
  obtain ⟨⟨a5, r5⟩, h5, h⟩ := of_bind_some h
  obtain ⟨⟨a6, r6⟩, h6, h⟩ := of_bind_some h
  obtain ⟨⟨a7, r7⟩, h7, h⟩ := of_bind_some h
  obtain ⟨⟨a8, r8⟩, h8, h⟩ := of_bind_some h
  obtain ⟨⟨a9, r9⟩, h9, h⟩ := of_bind_some h
  obtain ⟨⟨a10, r10⟩, h10, h⟩ := of_bind_some h
  simp only at h1 h2 h3 h4 h5 h6 h7 h8 h9 h10 h
  split at h
  · next hz =>
    simp only [Option.some.injEq, Prod.mk.injEq] at h
    obtain ⟨rfl, rfl⟩ := h
    refine ⟨?_, hz.1, hz.2, rfl⟩
    have hs := spritesOf_fields a7 a8 a9 a10
    unfold spritesOf at hs
    rw [savePipe_eq]
    simp only [hs.1, hs.2.1, hs.2.2.1, hs.2.2.2]
    rw [takeByte_some h1, takeNarrow_some h2, takeByte_some h3, takeByte_some h4, (takeLe_some (by decide) h5).1, takeNarrow_some h6,
      takeEight_some (enc := leBytes 4) (fun h => (takeLe_some (by decide) h).1) h7,
      takeEight_some (enc := fun x => [x]) (fun h => takeByte_some h) h8,
      takeEight_some (enc := fun x => [bitByte x]) (fun h => takeBit_some h) h9,
      takeEight_some (enc := fun x => [x.setWidth 8]) (fun h => takeNarrow_some h) h10]
    simp
  · cases h

/-! ### The mapper and the cartridge -/

/-- Two sets of registers of one variant. -/
def MapperRegs.sameKind : MapperRegs → MapperRegs → Prop
  | .axrom _, .axrom _ => True
  | .vrc2 rev _, .vrc2 rev' _ => rev = rev'
  | .axrom _, .vrc2 _ _ => False
  | .vrc2 _ _, .axrom _ => False

theorem MapperRegs.sameKind_of_variant {m n : MapperRegs} (h : m.variant = n.variant) : m.sameKind n := by
  rcases m with _ | ⟨_ | _, _⟩ <;> rcases n with _ | ⟨_ | _, _⟩ <;> simp [MapperRegs.variant, MapperRegs.sameKind] at h ⊢

theorem MapperRegs.variant_of_sameKind {m n : MapperRegs} (h : m.sameKind n) : m.variant = n.variant := by
  rcases m with _ | ⟨_ | _, _⟩ <;> rcases n with _ | ⟨_ | _, _⟩ <;> simp [MapperRegs.variant, MapperRegs.sameKind] at h ⊢

theorem saveMapperRegs_vrc2 (rev : Revision) (g : Vrc2Regs) :
    saveMapperRegs (.vrc2 rev g) = g.prgBank0.setWidth 8 :: g.prgBank1.setWidth 8 :: (g.chrReg.toList.flatMap (fun x => [x]) ++
      g.irqReload :: g.irqCounter :: (leBytes 2 g.irqPrescaler ++ [g.irqDiv3.setWidth 8, irqFlags g])) := by
  rw [flatMap_single]; simp [saveMapperRegs]

theorem loadMapperRegs_saveMapperRegs {m n : MapperRegs} (hk : m.sameKind n)
    (hd : ∀ rev g, n = .vrc2 rev g → g.irqPrescaler.toNat ≤ 340 ∧ g.irqDiv3.toNat ≤ 2) (r : List Byte) :
    loadMapperRegs m (saveMapperRegs n ++ r) = some (n, r) := by
  cases n with
  | axrom bank =>
    cases m with
    | vrc2 _ _ => exact absurd hk (by simp [MapperRegs.sameKind])
    | axrom old => simp [loadMapperRegs, saveMapperRegs, takeNarrow_setWidth (w := 3) (by decide)]
  | vrc2 rev g =>
    cases m with
    | axrom _ => exact absurd hk (by simp [MapperRegs.sameKind])
    | vrc2 rev' old =>
      obtain rfl : rev' = rev := hk
      obtain ⟨h1, h2⟩ := hd _ g rfl
      obtain ⟨x, hx, hb⟩ := irqFlags_bits g
      have e2 := takeEight_flatMap (one := takeByte) (enc := fun x => [x]) (fun _ _ => rfl)
      rw [saveMapperRegs_vrc2]
      simp only [loadMapperRegs, List.cons_append, List.append_assoc, takeByte_cons, takeNarrow_setWidth (w := 5) (by decide), e2,
        takeLe_leBytes (n := 2) (w := 9) (by decide) g.irqPrescaler h1, takeNarrow_setWidth (w := 2) (by decide), hx,
        List.nil_append, takeNarrow_setWidth (w := 4) (by decide), bind, Option.bind_some, if_pos h2, hb]

theorem loadMapperRegs_some {m n : MapperRegs} {bs r : List Byte} (h : loadMapperRegs m bs = some (n, r)) :
    bs = saveMapperRegs n ++ r ∧ m.sameKind n ∧
      ∀ rev g, n = .vrc2 rev g → g.irqPrescaler.toNat ≤ 340 ∧ g.irqDiv3.toNat ≤ 2 := by
  cases m with
  | axrom old =>
    unfold loadMapperRegs at h
    obtain ⟨⟨a1, r1⟩, h1, h⟩ := of_bind_some h
    simp only [Option.some.injEq, Prod.mk.injEq] at h
    obtain ⟨rfl, rfl⟩ := h
    exact ⟨by rw [takeNarrow_some h1]; rfl, trivial, by intro _ _ h; cases h⟩
  | vrc2 rev old =>
    unfold loadMapperRegs at h
    obtain ⟨⟨a1, r1⟩, h1, h⟩ := of_bind_some h
    obtain ⟨⟨a2, r2⟩, h2, h⟩ := of_bind_some h
    obtain ⟨⟨a3, r3⟩, h3, h⟩ := of_bind_some h
    obtain ⟨⟨a4, r4⟩, h4, h⟩ := of_bind_some h
    obtain ⟨⟨a5, r5⟩, h5, h⟩ := of_bind_some h
    obtain ⟨⟨a6, r6⟩, h6, h⟩ := of_bind_some h
    obtain ⟨⟨a7, r7⟩, h7, h⟩ := of_bind_some h
    obtain ⟨⟨a8, r8⟩, h8, h⟩ := of_bind_some h
    simp only at h1 h2 h3 h4 h5 h6 h7 h8 h
    split at h
    · next hz =>
      simp only [Option.some.injEq, Prod.mk.injEq] at h
      obtain ⟨rfl, rfl⟩ := h
      obtain ⟨e6, b6⟩ := takeLe_some (by decide) h6
      refine ⟨?_, rfl, ?_⟩
      · rw [saveMapperRegs_vrc2, takeNarrow_some h1, takeNarrow_some h2,
          takeEight_some (enc := fun x => [x]) (fun h => takeByte_some h) h3, takeByte_some h4, takeByte_some h5, e6,
          takeNarrow_some h7, takeNarrow_some h8]
        simp only [irqFlags, irqFlags_of_bits, List.cons_append, List.append_assoc, List.nil_append]
      · intro _ _ h
        cases h
        exact ⟨b6, hz⟩
    · cases h

theorem loadCart_saveCart {p : Params} {c : Cart} (h1 : Memory.wf c.sram = true) (h2 : Memory.below p.sramLen c.sram = true)
    (h3 : Memory.wf c.chrRam = true) (h4 : Memory.below p.chrLen c.chrRam = true) (old : Cart)
    (h5 : p.chrIsRam = false → old.chrRam = c.chrRam) (r : List Byte) : loadCart p old (saveCart p c ++ r) = some (c, r) := by
  cases hr : p.chrIsRam
  · have := h5 hr
    simp [loadCart, saveCart, hr, takeMemory_toBytes h1 h2, this]
  · simp [loadCart, saveCart, hr, takeMemory_toBytes h1 h2, takeMemory_toBytes h3 h4]

theorem loadCart_some {p : Params} {c old : Cart} {bs r : List Byte} (h : loadCart p old bs = some (c, r)) :
    bs = saveCart p c ++ r ∧ (Memory.wf c.sram = true ∧ Memory.below p.sramLen c.sram = true) ∧
      (p.chrIsRam = true → Memory.wf c.chrRam = true ∧ Memory.below p.chrLen c.chrRam = true) ∧
      (p.chrIsRam = false → c.chrRam = old.chrRam) := by
  unfold loadCart at h
  obtain ⟨⟨a1, r1⟩, h1, h⟩ := of_bind_some h
  obtain ⟨e1, b1⟩ := takeMemory_some h1
  cases hr : p.chrIsRam
  · simp only [hr, Bool.false_eq_true, if_false, Option.some.injEq, Prod.mk.injEq] at h
    obtain ⟨rfl, rfl⟩ := h
    exact ⟨by rw [e1]; simp [saveCart, hr], b1, by simp, fun _ => rfl⟩
  · simp only [hr, if_true] at h
    obtain ⟨⟨a2, r2⟩, h2, h⟩ := of_bind_some h
    simp only [Option.some.injEq, Prod.mk.injEq] at h
    obtain ⟨rfl, rfl⟩ := h
    obtain ⟨e2, b2⟩ := takeMemory_some h2
    exact ⟨by rw [e1, e2]; simp [saveCart, hr], b1, fun _ => b2, by simp⟩

/-! ### Lengths -/

theorem length_saveRegs (p : Ppu) : (saveRegs p).length = 19 := by simp [saveRegs]

theorem length_saveMems (p : Ppu) : (saveMems p).length = 2336 := by simp [saveMems]

theorem length_flatMap_toList {α : Type} (v : Vector α 8) (enc : α → List Byte) (n : Nat) (h : ∀ x, (enc x).length = n) :
    (v.toList.flatMap enc).length = 8 * n := by
  have : ∀ l : List α, (l.flatMap enc).length = l.length * n := by
    intro l
    induction l with
    | nil => simp
    | cons a l ih => rw [List.flatMap_cons, List.length_append, ih, h, List.length_cons, Nat.add_one_mul]; omega
  rw [this, Vector.length_toList]

theorem length_savePipe (p : Ppu) : (savePipe p).length = 69 := by
  have h := length_flatMap_toList p.sprites (fun e => leBytes 4 e.pattern) 4 (fun _ => by simp)
  simp [savePipe, h]

theorem length_saveMapperRegs (m : MapperRegs) : (saveMapperRegs m).length = match m with | .axrom _ => 1 | .vrc2 _ _ => 16 := by
  cases m with
  | axrom _ => rfl
  | vrc2 _ g => simp [saveMapperRegs]

/-! ### Where a field stands -/

/-- The bytes `seg` stand at offset `k`. -/
def StandsAt (bs : List Byte) (k : Nat) (seg : List Byte) : Prop := ∃ pre post, bs = pre ++ (seg ++ post) ∧ pre.length = k

theorem StandsAt.whole (bs : List Byte) : StandsAt bs 0 bs := ⟨[], [], by simp, rfl⟩

theorem StandsAt.append {bs : List Byte} {k : Nat} {a b : List Byte} (h : StandsAt bs k (a ++ b)) :
    StandsAt bs k a ∧ StandsAt bs (k + a.length) b := by
  obtain ⟨pre, post, rfl, hk⟩ := h
  exact ⟨⟨pre, b ++ post, by simp only [List.append_assoc], hk⟩,
    ⟨pre ++ a, post, by simp only [List.append_assoc], by rw [List.length_append, hk]⟩⟩

theorem StandsAt.get {bs seg : List Byte} {k j : Nat} (h : StandsAt bs k seg) (hj : j < seg.length) :
    bs.getD (k + j) 0 = seg.getD j 0 := by
  obtain ⟨pre, post, rfl, hk⟩ := h
  simp only [List.getD_eq_getElem?_getD]
  rw [List.getElem?_append_right (by omega), List.getElem?_append_left (by omega), hk, Nat.add_sub_cancel_left]

theorem StandsAt.cons {bs seg : List Byte} {k : Nat} {a : Byte} (h : StandsAt bs k (a :: seg)) :
    bs.getD k 0 = a ∧ StandsAt bs (k + 1) seg :=
  ⟨h.get (j := 0) (by simp), (StandsAt.append (a := [a]) h).2⟩

theorem StandsAt.memory {bs : List Byte} {k n : Nat} {m : Memory} (h : StandsAt bs k (Memory.toBytes n m)) {j : Nat} (hj : j < n) :
    bs.getD (k + j) 0 = Memory.read m j := by
  rw [h.get (by rwa [Memory.length_toBytes])]
  simp [Memory.toBytes, List.getD_eq_getElem?_getD, hj]

/-! ### The whole -/

/-- The length of a snapshot depends on the variant and the parameters alone (46 R350). -/
theorem length_snapshotBytes (s : State) : (snapshotBytes s).length = snapshotLength s.variant s.params := by
  unfold snapshotBytes snapshotLength State.variant saveCart
  simp only [List.length_append, List.length_cons, List.length_nil, length_saveRegs, length_saveMems, length_savePipe, length_saveMapperRegs]
  rcases s.mapper.regs with _ | ⟨_|_,_⟩ <;> cases s.params.chrIsRam <;> simp [MapperRegs.variant] <;> omega

/-- What `RESTORE` accepts is the snapshot of a state of the same block, in range and in canonical form. -/
theorem restoredState_some {s t : State} {bytes : List Byte} (hs : s.inv = true) (h : restoredState s bytes = some t) :
   bytes = snapshotBytes t ∧ t.inv = true ∧ t.params = s.params ∧ t.variant = s.variant ∧ t.fatal = s.fatal ∧ t.io = s.io := by
  unfold restoredState at h
  split at h
  · next hlen =>
    obtain ⟨⟨a1, r1⟩, h1, h⟩ := of_bind_some h
    obtain ⟨⟨a2, r2⟩, h2, h⟩ := of_bind_some h
    obtain ⟨⟨p3, r3⟩, h3, h⟩ := of_bind_some h
    obtain ⟨⟨p4, r4⟩, h4, h⟩ := of_bind_some h
    obtain ⟨⟨p5, r5⟩, h5, h⟩ := of_bind_some h
    obtain ⟨⟨a6, r6⟩, h6, h⟩ := of_bind_some h
    obtain ⟨a7, h7, h⟩ := of_bind_some h
    obtain ⟨⟨a8, r8⟩, h8, h⟩ := of_bind_some h
    obtain ⟨⟨a9, r9⟩, h9, h⟩ := of_bind_some h
    simp only at h1 h2 h3 h4 h5 h6 h7 h8 h9 h
    split at h
    · next hv =>
      cases h
      obtain ⟨rfl, rfl⟩ := hv
      have e1 := takeByte_some h1
      have e2 := takeByte_some h2
      obtain ⟨e3, b31, b32, f3⟩ := loadRegs_some h3
      obtain ⟨e4, f4, b4⟩ := loadMems_some h4
      obtain ⟨e5, b51, b52, f5⟩ := loadPipe_some h5
      have e6 := takeByte_some h6
      have e7 := MirrorMode.ofByte_some h7
      obtain ⟨e8, b8, b82⟩ := loadMapperRegs_some h8
      obtain ⟨e9, b91, b92, b93⟩ := loadCart_some h9
      have hvar := MapperRegs.variant_of_sameKind b8
      have hr : saveRegs p3 = saveRegs p5 := by rw [f5, f4]; rfl
      have hm : saveMems p4 = saveMems p5 := by rw [f5]; rfl
      have hb : bytes = snapshotBytes { params := s.params, ppu := p5, mapper := { mirror := a7, regs := a8 }, cart := a9, fatal := s.fatal, io := s.io } ++ r9 := by
        rw [e1,e2,e3,e4,e5,e6,e7,e8,e9]
        simp [snapshotBytes, State.variant, hr, hm, hvar]
      have hl : r9.length = 0 := by
        have := congrArg List.length hb
        rw [List.length_append, hlen, length_snapshotBytes] at this
        simp only [State.variant, hvar] at this
        omega
      have : r9 = [] := List.length_eq_zero_iff.1 hl
      subst this
      refine ⟨by simpa using hb, ?_, rfl, hvar.symm, rfl, rfl⟩
      rw [f4] at f5
      rw [f3] at f5
      simp [State.inv, State.variant, Ppu.inv, Cart.inv, MapperRegs.inv] at hs ⊢
      rw [← hvar]
      have g1 : p5.scanline = p3.scanline := by rw [f5]
      have g2 : p5.cycle = p3.cycle := by rw [f5]
      have g3 : p5.oam = p4.oam := by rw [f5]
      have g4 : p5.pal = p4.pal := by rw [f5]
      have g5 : p5.nt = p4.nt := by rw [f5]
      rw [g1,g2,g3,g4,g5]
      have hvr : (match a8 with | .axrom _ => true | .vrc2 _ r => decide (r.irqPrescaler.toNat ≤ 340) && decide (r.irqDiv3.toNat ≤ 2)) = true := by
        cases a8 with
        | axrom => rfl
        | vrc2 rev g => have := b82 rev g rfl; simp [this]
      have hcr : Memory.wf a9.chrRam = true ∧ Memory.below (if s.params.chrIsRam then s.params.chrLen else 0) a9.chrRam = true := by
        cases hp : s.params.chrIsRam
        · rw [b93 hp]; simp [hp] at hs; simp [hs]
        · simpa using b92 hp
      refine ⟨⟨⟨hs.1.1.1, ?_⟩, by cases a8 with | axrom _ => rfl | vrc2 _ _ => simpa using hvr⟩, ⟨⟨b91.1, b91.2⟩, hcr.1⟩, hcr.2⟩
      exact ⟨⟨⟨⟨⟨⟨⟨⟨⟨b31,b32⟩,b51⟩,b52⟩,b4.1.1⟩,b4.1.2⟩,b4.2.1.1⟩,b4.2.1.2⟩,b4.2.2.1⟩,b4.2.2.2⟩
    · cases h
  · cases h

/-- `RESTORE` of a snapshot gives its state back, but for `fatal` and the interface. -/
theorem restoredState_snapshotBytes {s s' : State} (hs : s.inv = true) (hs' : s'.inv = true) (hp : s'.params = s.params) (hv : s'.variant = s.variant) :
   restoredState s' (snapshotBytes s) = some { s with fatal := s'.fatal, io := s'.io } := by
  unfold restoredState
  rw [length_snapshotBytes, hp, hv, if_pos rfl]
  simp [State.inv, Ppu.inv, Cart.inv] at hs hs'
  obtain ⟨⟨⟨hpf, ⟨⟨⟨⟨⟨⟨⟨⟨⟨i1, i2⟩, i3⟩, i4⟩, i5⟩, i6⟩, i7⟩, i8⟩, i9⟩, i10⟩⟩, im⟩, ⟨⟨⟨j1, j2⟩, j3⟩, j4⟩⟩ := hs
  have hk := MapperRegs.sameKind_of_variant (m := s'.mapper.regs) (n := s.mapper.regs) hv
  have hreg : ∀ rev g, s.mapper.regs = .vrc2 rev g → g.irqPrescaler.toNat ≤ 340 ∧ g.irqDiv3.toNat ≤ 2 := by
    intro rev g h; rw [h] at im; simpa [MapperRegs.inv] using im
  simp only [snapshotBytes, List.cons_append, List.nil_append, takeByte_cons, bind, Option.bind_some,
    loadRegs_saveRegs i1 i2, loadMems_saveMems i5 i6 i7 i8 i9 i10, loadPipe_savePipe i3 i4, MirrorMode.ofByte_toByte,
    loadMapperRegs_saveMapperRegs hk hreg]
  have hc := loadCart_saveCart (p := s.params) (c := s.cart) j1 j2 j3 (by
    cases h : s.params.chrIsRam <;> rw [h] at j4
    · simp [Memory.below] at *; cases hc : s.cart.chrRam <;> simp_all
    · simpa using j4) s'.cart (by
      intro h
      have e1 : s.cart.chrRam = [] := by
        rw [h] at j4; cases hc : s.cart.chrRam with
        | nil => rfl
        | cons c l => rw [hc] at j4; simp [Memory.below] at j4
      have e2 : s'.cart.chrRam = [] := by
        have := hs'.2.2; rw [hp, h] at this; cases hc : s'.cart.chrRam with
        | nil => rfl
        | cons c l => rw [hc] at this; simp [Memory.below] at this
      rw [e1,e2]) []
  rw [List.append_nil] at hc
  simp only [hc, Option.bind_some]
  rw [← hp]
  simp

end Sys2Proof.Machine
end

