-- ==== Sys2Proof/Laws/Invariant.lean ====
section
/-! SUPPORT. Every shared operation keeps the invariant of Sys2Proof/Safety.lean, its canonical memories among it. -/

namespace Sys2Proof.Machine

/-! ### Indices inside the cartridge -/

/-- A bank index is inside its array when the array is whole banks (20 R99). -/
theorem bankIndex_lt {len size : Nat} (h0 : 0 < len) (hm : len % size = 0) (hs : 0 < size) (r : Nat) {off : Nat} (ho : off < size) :
    bankIndex len size r off < len := by
  unfold bankIndex
  have h1 : len / size * size = len := Nat.div_mul_cancel (Nat.dvd_of_mod_eq_zero hm)
  have h2 : 0 < len / size := Nat.div_pos (Nat.le_of_dvd h0 (Nat.dvd_of_mod_eq_zero hm)) hs
  have h3 := Nat.mod_lt r h2
  calc r % (len / size) * size + off < r % (len / size) * size + size := by omega
    _ = (r % (len / size) + 1) * size := by rw [Nat.add_mul, Nat.one_mul]
    _ ≤ len / size * size := Nat.mul_le_mul_right _ h3
    _ = len := h1

theorem paramsFit_cartridge {m : Variant} {p : Params} (h : paramsFit m p = true) : cartridgeFits m p = true := by
  simp only [paramsFit, Bool.and_eq_true] at h
  simp [h]

theorem paramsFit_sramLen {m : Variant} {p : Params} (h : paramsFit m p = true) : 0 < p.sramLen := by
  simp only [paramsFit, Bool.and_eq_true] at h
  simpa using h.1.1.1.1.1.1.1.1.1.1.1.1.2

/-- Character data is inside CHR (44 R295, 45 R314). -/
theorem chrIndex_lt {s : State} (h : paramsFit s.variant s.params = true) {i : CpuAddr} (hi : i.toNat < 0x2000) :
    chrIndex s i < s.params.chrLen := by
  have hc := paramsFit_cartridge h
  unfold chrIndex
  split
  · next hr => simp [State.variant, hr, MapperRegs.variant, cartridgeFits] at hc; omega
  · next rev r hr =>
    simp [State.variant, hr, cartridgeFits] at hc
    have : 0 < s.params.chrLen ∧ s.params.chrLen % 0x400 = 0 := by
      cases rev <;> simp [MapperRegs.variant] at hc <;> exact ⟨hc.1.2, hc.2⟩
    exact bankIndex_lt this.1 this.2 (by decide) _ (by simp [BitVec.extractLsb'_toNat]; omega)

theorem sramIndex_lt {s : State} (h : paramsFit s.variant s.params = true) (i : CpuAddr) : sramIndex s i < s.params.sramLen :=
  Nat.mod_lt _ (paramsFit_sramLen h)

/-! ### The parts -/

/-- `Ppu.inv` as a structure, one name per range. -/
structure Ppu.Inv (p : Ppu) : Prop where
  scanline : p.scanline.toNat ≤ 261
  cycle : p.cycle.toNat ≤ 340
  atBits : p.atBits.extractLsb' 0 2 = 0
  sprCount : p.sprCount.toNat ≤ 8
  oam : Memory.wf p.oam = true ∧ Memory.below 256 p.oam = true
  pal : Memory.wf p.pal = true ∧ Memory.below 32 p.pal = true
  nt : Memory.wf p.nt = true ∧ Memory.below 2048 p.nt = true

theorem Ppu.inv_iff (p : Ppu) : p.inv = true ↔ p.Inv := by
  constructor
  · intro h
    simp only [Ppu.inv, Bool.and_eq_true, decide_eq_true_eq, beq_iff_eq] at h
    obtain ⟨⟨⟨⟨⟨⟨⟨⟨⟨h1, h2⟩, h3⟩, h4⟩, h5⟩, h6⟩, h7⟩, h8⟩, h9⟩, h10⟩ := h
    exact ⟨h1, h2, h3, h4, ⟨h5, h6⟩, ⟨h7, h8⟩, ⟨h9, h10⟩⟩
  · rintro ⟨h1, h2, h3, h4, ⟨h5, h6⟩, ⟨h7, h8⟩, ⟨h9, h10⟩⟩
    simp only [Ppu.inv, Bool.and_eq_true, decide_eq_true_eq, beq_iff_eq]
    exact ⟨⟨⟨⟨⟨⟨⟨⟨⟨h1, h2⟩, h3⟩, h4⟩, h5⟩, h6⟩, h7⟩, h8⟩, h9⟩, h10⟩

/-- `State.inv` as a structure. -/
structure State.Inv (s : State) : Prop where
  params : paramsFit s.variant s.params = true
  ppu : s.ppu.Inv
  regs : s.mapper.regs.inv = true
  cart : Cart.inv s.params s.cart = true

theorem State.inv_iff (s : State) : s.inv = true ↔ s.Inv := by
  constructor
  · intro h
    simp only [State.inv, Bool.and_eq_true] at h
    exact ⟨h.1.1.1, (Ppu.inv_iff _).1 h.1.1.2, h.1.2, h.2⟩
  · rintro ⟨h1, h2, h3, h4⟩
    simp only [State.inv, Bool.and_eq_true]
    exact ⟨⟨⟨h1, (Ppu.inv_iff _).2 h2⟩, h3⟩, h4⟩

/-- `Cart.inv` by its two memories. -/
theorem Cart.inv_iff (p : Params) (c : Cart) :
    Cart.inv p c = true ↔ (Memory.wf c.sram = true ∧ Memory.below p.sramLen c.sram = true) ∧
      Memory.wf c.chrRam = true ∧ Memory.below (if p.chrIsRam then p.chrLen else 0) c.chrRam = true := by
  simp only [Cart.inv, Bool.and_eq_true, and_assoc]

/-- The state with the interface changed keeps the invariant. -/
theorem State.Inv.io {s : State} (h : s.Inv) (io : Io) : State.Inv { s with io := io } := ⟨h.params, h.ppu, h.regs, h.cart⟩

theorem State.Inv.setPpu {s : State} (h : s.Inv) {p : Ppu} (hp : p.Inv) : (s.setPpu p).Inv := ⟨h.params, hp, h.regs, h.cart⟩

/-! ### Memories -/

theorem inv_chrWrite {s : State} (h : s.Inv) {i : CpuAddr} (hi : i.toNat < 0x2000) (b : Byte) : (chrWrite s i b).Inv := by
  have hc := (Cart.inv_iff _ _).1 h.cart
  unfold chrWrite
  split
  · next hr =>
    refine ⟨h.params, h.ppu, h.regs, (Cart.inv_iff _ _).2 ⟨hc.1, ?_⟩⟩
    have h2 := hc.2
    simp only [hr, if_true] at h2
    simp only [State.setChrRam_params, State.setChrRam_cart, hr, if_true]
    exact ⟨Memory.wf_write h2.1 _ _, Memory.below_write h2.2 (chrIndex_lt h.params hi) _⟩
  · exact ⟨h.params, h.ppu, h.regs, h.cart⟩

theorem inv_ppuWrite {s : State} (h : s.Inv) (a : PpuAddr) (b : Byte) : (ppuWrite s a b).Inv := by
  rcases ppuWrite_cases s a b with ⟨ha, he⟩ | ⟨-, -, he⟩ | ⟨-, he⟩ <;> rw [he]
  · exact inv_chrWrite h (by rw [toNat_setWidth16]; exact ha) b
  · exact h.setPpu { h.ppu with nt := ⟨Memory.wf_write h.ppu.nt.1 _ _, Memory.below_write h.ppu.nt.2 (ntIndex_lt _ _) _⟩ }
  · exact h.setPpu { h.ppu with pal := ⟨Memory.wf_write h.ppu.pal.1 _ _, Memory.below_write h.ppu.pal.2 (palIndex_lt _) _⟩ }

theorem inv_oamPush {p : Ppu} (h : p.Inv) (b : Byte) : (p.oamPush b).Inv :=
  { h with oam := ⟨Memory.wf_write h.oam.1 _ _, Memory.below_write h.oam.2 p.oamAddr.isLt _⟩ }

/-! ### The mapper -/

theorem inv_v2Write {s : State} (h : s.Inv) {rev : Revision} {r : Vrc2Regs} (hr : s.mapper.regs = .vrc2 rev r) (d : Byte)
    (group : BitVec 4) (sub : BitVec 2) :
    (v2Prg0Write s rev r d).mapper.regs.inv = true ∧ (v2MirrorWrite s d).mapper.regs.inv = true ∧
      (v2Prg1Write s rev r d).mapper.regs.inv = true ∧ (v2ChrWrite s rev r group sub d).mapper.regs.inv = true ∧
      (v2IrqLatchLoWrite s rev r d).mapper.regs.inv = true ∧ (v2IrqLatchHiWrite s rev r d).mapper.regs.inv = true ∧
      (v2IrqCtrlWrite s rev r d).mapper.regs.inv = true ∧ (v2IrqAckWrite s rev r).mapper.regs.inv = true := by
  have hi := h.regs
  rw [hr] at hi
  exact ⟨hi, h.regs, hi, hi, hi, hi, rfl, hi⟩

theorem inv_mapperRegWrite {s : State} (h : s.Inv) (i : CpuAddr) (d : Byte) : (mapperRegWrite s i d).mapper.regs.inv = true := by
  unfold mapperRegWrite
  split
  · rfl
  · next rev r hr =>
    obtain ⟨h1, h2, h3, h4, h5, h6, h7, h8⟩ := inv_v2Write h hr d (i.extractLsb' 12 4) (vrc2Sub s.params.vrc2AddrMode rev i)
    unfold v2RegWrite
    simp only
    split
    · exact h1
    · exact h2
    · exact h3
    · split
      · exact h5
      · exact h6
      · exact h7
      · exact h8
    · exact h4

/-- A state that differs in the mapper and the output list alone keeps the invariant when its registers do. -/
theorem State.MapperOnly.inv {s t : State} (h : s.MapperOnly t) (hs : s.Inv) (hr : t.mapper.regs.inv = true) : t.Inv := by
  obtain ⟨m, es, rfl, hv, -⟩ := h
  exact ⟨by rw [State.variant, hv]; exact hs.params, hs.ppu, hr, hs.cart⟩

theorem inv_mapperWrite {s : State} (h : s.Inv) (i : CpuAddr) (b : Byte) : (mapperWrite s i b).Inv := by
  rcases mapperWrite_cases s i b with ⟨hi, he⟩ | ⟨-, -, he⟩ | ⟨-, -, he⟩ | ⟨-, he⟩ <;> rw [he]
  · exact inv_chrWrite h hi b
  · exact h.io _
  · have hc := (Cart.inv_iff _ _).1 h.cart
    exact ⟨h.params, h.ppu, h.regs, (Cart.inv_iff _ _).2
      ⟨⟨Memory.wf_write hc.1.1 _ _, Memory.below_write hc.1.2 (sramIndex_lt h.params i) _⟩, hc.2⟩⟩
  · exact (mapperRegWrite_mapperOnly s i b).inv h (inv_mapperRegWrite h i b)

/-- A tick keeps the dividers in range (45 R331). -/
theorem inv_irqTick {r : Vrc2Regs} (h : r.irqPrescaler.toNat ≤ 340 ∧ r.irqDiv3.toNat ≤ 2) :
    (irqTick r).1.irqPrescaler.toNat ≤ 340 ∧ (irqTick r).1.irqDiv3.toNat ≤ 2 := by
  have hd : ∀ x : BitVec 2, x.toNat ≤ 2 → x + 1 ≠ 3 → (x + 1).toNat ≤ 2 := by decide
  have hp : (r.irqPrescaler + 1).toNat = r.irqPrescaler.toNat + 1 := by
    rw [BitVec.toNat_add]; simp; omega
  unfold irqTick cpuCycleTick clockCounter
  split
  · simp only
    split
    · exact ⟨h.1, Nat.zero_le _⟩
    · split
      · split <;> exact ⟨h.1, Nat.zero_le _⟩
      · split
        · split <;> exact ⟨Nat.zero_le _, Nat.zero_le _⟩
        · next hne => exact ⟨by rw [hp] at hne ⊢; unfold Config.irqPrescale at hne; omega, Nat.zero_le _⟩
  · next hne => exact ⟨h.1, hd _ h.2 hne⟩

theorem inv_mapperTick {s : State} (h : s.Inv) : (mapperTick s).Inv := by
  refine (mapperTick_mapperOnly s).inv h ?_
  have hi := h.regs
  unfold mapperTick
  split
  · exact h.regs
  · next rev r hr =>
    rw [hr] at hi
    simp only [MapperRegs.inv, Bool.and_eq_true, decide_eq_true_eq] at hi
    simp only [State.emitIf_mapper, State.setRegs_mapper, MapperRegs.inv, Bool.and_eq_true, decide_eq_true_eq]
    exact inv_irqTick hi

/-! ### PPU_STEP -/

theorem atSelect_low (v : VramAddr) (b : Byte) : (atSelect v b).extractLsb' 0 2 = 0 := by
  unfold atSelect
  apply BitVec.eq_of_getLsbD_eq
  intro i hi
  rcases (by omega : i = 0 ∨ i = 1) with rfl | rfl <;> simp

theorem inv_advance {p : Ppu} (h : p.Inv) : p.advance.Inv := by
  have h1 := h.scanline
  have h2 := h.cycle
  unfold Ppu.advance
  split
  · exact { h with scanline := Nat.zero_le _, cycle := Nat.zero_le _ }
  · split
    · exact { h with cycle := by simp only [BitVec.toNat_add]; simp; omega }
    · split
      · exact { h with cycle := Nat.zero_le _, scanline := by simp only [BitVec.toNat_add]; simp; omega }
      · exact { h with cycle := Nat.zero_le _, scanline := Nat.zero_le _ }

theorem inv_whenDo {f : State → State} (hf : ∀ s : State, s.ppu.Inv → (f s).ppu.Inv) (c : Bool) {s : State} (h : s.ppu.Inv) :
    (whenDo c f s).ppu.Inv := by
  cases c
  · exact h
  · exact hf s h

theorem inv_shiftAndFetch (c : Nat) (s : State) (h : s.ppu.Inv) : (shiftAndFetch c s).ppu.Inv := by
  rw [shiftAndFetch_eq]
  refine { h with atBits := ?_ }
  simp only [State.setPpu_ppu]
  split
  · exact atSelect_low _ _
  · exact h.atBits

theorem inv_spriteAction (l : Nat) (s : State) (h : s.ppu.Inv) : (spriteAction l s).ppu.Inv := by
  unfold spriteAction evaluateSprites
  split
  · refine { h with sprCount := ?_ }
    simp only [State.setPpu_ppu, BitVec.toNat_ofNat]
    omega
  · exact { h with sprCount := Nat.zero_le _ }

theorem inv_renderActions (l c : Nat) (s : State) (h : s.ppu.Inv) : (renderActions l c s).ppu.Inv := by
  unfold renderActions
  have hs : ∀ (g : VramAddr → VramAddr → VramAddr) (s : State), s.ppu.Inv → (s.scroll g).ppu.Inv := fun _ _ h => { h with }
  have hx : ∀ s : State, s.ppu.Inv → (renderPixel l c s).ppu.Inv := fun _ h => { h with }
  exact inv_whenDo (inv_spriteAction l) _ (inv_whenDo (hs _) _ (inv_whenDo (hs _) _ (inv_whenDo (hs _) _
    (inv_whenDo (hs _) _ (inv_whenDo (inv_shiftAndFetch c) _ (inv_whenDo hx _ h))))))

/-- PPU_STEP keeps the ranges of the PictureProcessor. -/
theorem inv_ppuStep (s : State) (h : s.ppu.Inv) : (ppuStep s).ppu.Inv := by
  have h1 : (nmiCountdown s).ppu.Inv := by rw [nmiCountdown_eq]; exact { h with }
  have h2 : (((nmiCountdown s).setPpu (nmiCountdown s).ppu.advance)).ppu.Inv := inv_advance h1
  have hv : ∀ s : State, s.ppu.Inv → (setVblank s).ppu.Inv := fun _ h => { h with }
  have hc : ∀ s : State, s.ppu.Inv → (clearVblank s).ppu.Inv := fun _ h => { h with }
  unfold ppuStep positionActions
  exact inv_whenDo hc _ (inv_whenDo hv _ (inv_whenDo (inv_renderActions _ _) _ h2))

/-! ### Reset -/

theorem inv_ppuReset {m : Variant} {p : Params} (h : paramsFit m p = true) : (Ppu.reset p).Inv := by
  simp only [paramsFit, Bool.and_eq_true] at h
  obtain ⟨⟨⟨⟨⟨⟨⟨⟨-, h1⟩, h2⟩, h3⟩, h4⟩, h5⟩, h6⟩, -⟩, -⟩ := h
  exact ⟨(by decide : (240 : BitVec 9).toNat ≤ 261), (by decide : (340 : BitVec 9).toNat ≤ 340), rfl, Nat.zero_le _, ⟨h1, h2⟩, ⟨h3, h4⟩, ⟨h5, h6⟩⟩

end Sys2Proof.Machine
end

