-- ==== Sys2Proof/Laws/Irq.lean ====
section
/-! SUPPORT. The five things a tick of the VRC2 counter can do (spec/45 R330, R331), each by one equation. -/

namespace Sys2Proof.Machine

theorem div3_counts : ∀ d : BitVec 2, d + 1 = 3 ↔ d = 2 := by decide

/-- The divide-by-3 has not come round: nothing else moves. -/
theorem irqTick_waits {r : Vrc2Regs} (h : r.irqDiv3 ≠ 2) : irqTick r = ({ r with irqDiv3 := r.irqDiv3 + 1 }, false) := by
  unfold irqTick; rw [if_neg (by rw [div3_counts]; exact h)]

theorem irqTick_counts {r : Vrc2Regs} (h : r.irqDiv3 = 2) : irqTick r = cpuCycleTick { r with irqDiv3 := 0 } := by
  unfold irqTick; rw [if_pos (by rw [div3_counts]; exact h)]

/-- The counter is disabled. -/
theorem irqTick_disabled {r : Vrc2Regs} (h : r.irqDiv3 = 2) (he : r.irqEnable = false) :
    irqTick r = ({ r with irqDiv3 := 0 }, false) := by
  rw [irqTick_counts h]; simp [cpuCycleTick, he]

/-- Cycle-count mode: the counter is clocked. -/
theorem irqTick_cycleMode {r : Vrc2Regs} (h : r.irqDiv3 = 2) (he : r.irqEnable = true) (hm : r.irqCycleMode = true) :
    irqTick r = clockCounter { r with irqDiv3 := 0 } := by
  rw [irqTick_counts h]; simp [cpuCycleTick, he, hm]

theorem prescale_ends : ∀ p : BitVec 9, (p + 1).toNat = Config.irqPrescale ↔ p = 340 := by decide

/-- Scanline-count mode, the prescaler not at its end. -/
theorem irqTick_prescales {r : Vrc2Regs} (h : r.irqDiv3 = 2) (he : r.irqEnable = true) (hm : r.irqCycleMode = false)
    (hp : r.irqPrescaler ≠ 340) : irqTick r = ({ r with irqDiv3 := 0, irqPrescaler := r.irqPrescaler + 1 }, false) := by
  rw [irqTick_counts h]
  unfold cpuCycleTick
  simp only [he, hm]
  rw [if_neg (by simp), if_neg (by simp), if_neg (by rw [prescale_ends]; exact hp)]

/-- Scanline-count mode, the prescaler at its end: the counter is clocked. -/
theorem irqTick_prescaled {r : Vrc2Regs} (h : r.irqDiv3 = 2) (he : r.irqEnable = true) (hm : r.irqCycleMode = false)
    (hp : r.irqPrescaler = 340) : irqTick r = clockCounter { r with irqDiv3 := 0, irqPrescaler := 0 } := by
  rw [irqTick_counts h]
  unfold cpuCycleTick
  simp only [he, hm]
  rw [if_neg (by simp), if_neg (by simp), if_pos (by rw [prescale_ends]; exact hp)]

/-- `ClockCounter` from the boundary and elsewhere (45 R331). -/
theorem clockCounter_eq (r : Vrc2Regs) :
    clockCounter r = ({ r with
      irqCounter := if r.irqCounter = 0xFF then r.irqReload else r.irqCounter + 1
      irqTriggered := r.irqTriggered || r.irqCounter == 0xFF }, r.irqCounter == 0xFF && !r.irqTriggered) := by
  unfold clockCounter Config.irqWrap
  by_cases h : r.irqCounter = 0xFF
  · rw [if_pos h, if_pos h, h]; simp
  · rw [if_neg h, if_neg h, show (r.irqCounter == 0xFF) = false from beq_eq_false_iff_ne.2 h]; simp

/-- MAPPER_TICK on VRC2 in one equation. -/
theorem mapperTick_vrc2 {s : State} {rev : Revision} {r : Vrc2Regs} (h : s.mapper.regs = .vrc2 rev r) :
    mapperTick s = { s with
      mapper := { s.mapper with regs := .vrc2 rev (irqTick r).1 }
      io := { s.io with outputs := s.io.outputs ++ if (irqTick r).2 then [.irqTrigger] else [] } } := by
  simp only [mapperTick, h]
  unfold State.emitIf
  split <;> simp [State.setRegs, State.emit]

/-- A tick reads and writes the counter's own fields alone. -/
theorem irqTick_frame (r : Vrc2Regs) :
    (irqTick r).1 = { r with
      irqDiv3 := (irqTick r).1.irqDiv3, irqPrescaler := (irqTick r).1.irqPrescaler, irqCounter := (irqTick r).1.irqCounter,
      irqTriggered := (irqTick r).1.irqTriggered } := by
  unfold irqTick cpuCycleTick clockCounter
  split
  · simp only
    split
    · rfl
    · split
      · split <;> rfl
      · split
        · split <;> rfl
        · rfl
  · rfl

end Sys2Proof.Machine
end

