-- ==== Sys2Proof/Laws/PerInstr.lean ====
section
/-! SUPPORT. One lemma per constructor of `Instr` for a statement about every instruction as syntax: the kind field of its
word (spec/30 R120). -/

namespace Sys2Proof.Laws

/-- The kind of an instruction's word: 0 BUS, 1 CLK, 2 SYS (30 R120). -/
def kindOf : Instr → Nat
  | .ppuStep | .mapperTick => 1
  | .reset | .save | .restore _ => 2
  | .ppuctrlW _ | .ppuctrlR | .ppumaskW _ | .ppumaskR | .ppustatusR | .ppustatusW _ | .oamaddrW _ | .oamaddrR
  | .oamdataR | .oamdataW _ | .ppuscrollW1 _ | .ppuscrollW2 _ | .ppuscrollR | .ppuaddrW1 _ | .ppuaddrW2 _ | .ppuaddrR
  | .ppudataR | .ppudataW _ | .oamdmaW _ _ _ | .notClaimed | .axRegW _ | .v2Prg0W _ | .v2MirrorW _ | .v2Prg1W _
  | .v2IrqLatchLoW _ | .v2IrqLatchHiW _ | .v2IrqCtrlW _ | .v2IrqAckW | .v2ChrW _ _ _ | .mapR _ | .mapW _ _ => 0

/-- The kind field of the word of `i` is its kind, whatever the context. -/
def KindBits.Statement (i : Instr) : Prop := ∀ c, (wordKind (encodeWord c i)).toNat = kindOf i

theorem kind_bus (b : BusFields) : (wordKind (busWord b)).toNat = 0 := by rw [wordKind_busWord]; rfl

theorem KindBits.ppuctrlW (d : Byte) : KindBits.Statement (.ppuctrlW d) := fun _ => kind_bus _
theorem KindBits.ppuctrlR : KindBits.Statement .ppuctrlR := fun _ => kind_bus _
theorem KindBits.ppumaskW (d : Byte) : KindBits.Statement (.ppumaskW d) := fun _ => kind_bus _
theorem KindBits.ppumaskR : KindBits.Statement .ppumaskR := fun _ => kind_bus _
theorem KindBits.ppustatusR : KindBits.Statement .ppustatusR := fun _ => kind_bus _
theorem KindBits.ppustatusW (d : Byte) : KindBits.Statement (.ppustatusW d) := fun _ => kind_bus _
theorem KindBits.oamaddrW (d : Byte) : KindBits.Statement (.oamaddrW d) := fun _ => kind_bus _
theorem KindBits.oamaddrR : KindBits.Statement .oamaddrR := fun _ => kind_bus _
theorem KindBits.oamdataR : KindBits.Statement .oamdataR := fun _ => kind_bus _
theorem KindBits.oamdataW (d : Byte) : KindBits.Statement (.oamdataW d) := fun _ => kind_bus _
theorem KindBits.ppuscrollW1 (d : Byte) : KindBits.Statement (.ppuscrollW1 d) := fun _ => kind_bus _
theorem KindBits.ppuscrollW2 (d : Byte) : KindBits.Statement (.ppuscrollW2 d) := fun _ => kind_bus _
theorem KindBits.ppuscrollR : KindBits.Statement .ppuscrollR := fun _ => kind_bus _
theorem KindBits.ppuaddrW1 (d : Byte) : KindBits.Statement (.ppuaddrW1 d) := fun _ => kind_bus _
theorem KindBits.ppuaddrW2 (d : Byte) : KindBits.Statement (.ppuaddrW2 d) := fun _ => kind_bus _
theorem KindBits.ppuaddrR : KindBits.Statement .ppuaddrR := fun _ => kind_bus _
theorem KindBits.ppudataR : KindBits.Statement .ppudataR := fun _ => kind_bus _
theorem KindBits.ppudataW (d : Byte) : KindBits.Statement (.ppudataW d) := fun _ => kind_bus _
theorem KindBits.oamdmaW (page : Byte) (odd : Bool) (bus : List Byte) : KindBits.Statement (.oamdmaW page odd bus) := fun _ => kind_bus _
theorem KindBits.notClaimed : KindBits.Statement .notClaimed := fun _ => kind_bus _
theorem KindBits.axRegW (d : Byte) : KindBits.Statement (.axRegW d) := fun _ => kind_bus _
theorem KindBits.v2Prg0W (d : Byte) : KindBits.Statement (.v2Prg0W d) := fun _ => kind_bus _
theorem KindBits.v2MirrorW (d : Byte) : KindBits.Statement (.v2MirrorW d) := fun _ => kind_bus _
theorem KindBits.v2Prg1W (d : Byte) : KindBits.Statement (.v2Prg1W d) := fun _ => kind_bus _
theorem KindBits.v2IrqLatchLoW (d : Byte) : KindBits.Statement (.v2IrqLatchLoW d) := fun _ => kind_bus _
theorem KindBits.v2IrqLatchHiW (d : Byte) : KindBits.Statement (.v2IrqLatchHiW d) := fun _ => kind_bus _
theorem KindBits.v2IrqCtrlW (d : Byte) : KindBits.Statement (.v2IrqCtrlW d) := fun _ => kind_bus _
theorem KindBits.v2IrqAckW : KindBits.Statement .v2IrqAckW := fun _ => kind_bus _
theorem KindBits.v2ChrW (group : BitVec 4) (sub : BitVec 2) (d : Byte) : KindBits.Statement (.v2ChrW group sub d) := fun _ => kind_bus _
theorem KindBits.mapR (addr : CpuAddr) : KindBits.Statement (.mapR addr) := fun _ => kind_bus _
theorem KindBits.mapW (addr : CpuAddr) (d : Byte) : KindBits.Statement (.mapW addr d) := fun _ => kind_bus _
theorem KindBits.ppuStep : KindBits.Statement .ppuStep := fun _ => by simp [encodeWord, kindOf, wordKind]
theorem KindBits.mapperTick : KindBits.Statement .mapperTick := fun _ => by simp [encodeWord, kindOf, wordKind]
theorem KindBits.reset : KindBits.Statement .reset := fun _ => by simp [encodeWord, kindOf, wordKind]
theorem KindBits.save : KindBits.Statement .save := fun _ => by simp [encodeWord, kindOf, wordKind]
theorem KindBits.restore (bytes : List Byte) : KindBits.Statement (.restore bytes) := fun _ => by simp [encodeWord, kindOf, wordKind]

end Sys2Proof.Laws
end

