-- ==== Sys2Proof/Tests/Slice0.lean ====
section
/-! SUPPORT. Tests of the model: the checks of WellFormed, one word of the spec for every instruction, one step of every
instruction against the vectors of spec/95 (part and row named in each comment), and a witness for every statement that
has hypotheses. -/

namespace Sys2Proof.Tests

open Sys2Proof Sys2Proof.Machine

/-! ### Small blocks -/

/-- A VRC2b block right after reset. -/
def vb : State := State.reset

/-- A VRC2a block right after reset. -/
def va : State := State.powerOn .vrc2a Config.params

/-- An AxROM block right after reset, of four program banks, character ROM. -/
def ax : State := State.powerOn .axrom { Config.params with
  prg := [(0x8004, 0x14), (0x10004, 0x24)], prgLen := 0x20000, chrIsRam := false }

/-- A block with a change to its PictureProcessor. -/
def State.withPpu (s : State) (f : Ppu → Ppu) : State := { s with ppu := f s.ppu }

/-- A VRC2b block with the given registers. -/
def withRegs (r : Vrc2Regs) : State := { vb with mapper := { vb.mapper with regs := .vrc2 .b r } }

/-- The registers of VRC2. -/
def regsOf (s : State) : Vrc2Regs :=
  match s.mapper.regs with
  | .vrc2 _ r => r
  | .axrom _ => Vrc2Regs.zero

/-- The next state of an outcome. -/
def nextOf (o : Host.Outcome State Fault Refusal) : Option State :=
  match o with
  | .next t => some t
  | _ => none

/-- One step on a word delivered to `s`, and a part of the state it answers. -/
def after {α : Type} (s : State) (w : BitVec 28) (f : State → α) : Option α := (nextOf (step (s.deliver ⟨w, []⟩))).map f

/-- What the decoder gives, an invalid word as none. -/
def read (c : DecodeCtx) (w : BitVec 28) : Option Instr :=
  match decode c ⟨w, []⟩ with
  | .ok i => some i
  | .error _ => none

def ctxAx : DecodeCtx := ⟨.axrom, .fixedF003, false⟩
def ctxA : DecodeCtx := ⟨.vrc2a, .fixedF003, false⟩
def ctxB : DecodeCtx := ⟨.vrc2b, .fixedF003, false⟩
def ctxB1 : DecodeCtx := ⟨.vrc2b, .fixedF003, true⟩

/-! ### WellFormed refuses -/

theorem test_wf_chr_group_low : (Instr.v2ChrW 0xA 0 0).wf = false := by decide
theorem test_wf_chr_group_high : (Instr.v2ChrW 0xF 0 0).wf = false := by decide
theorem test_wf_map_read_low : (Instr.mapR 0x401F).wf = false := by decide
theorem test_wf_map_write_low : (Instr.mapW 0x401F 0).wf = false := by decide
theorem test_wf_map_write_high : (Instr.mapW 0x8000 0).wf = false := by decide
theorem test_wf_dma_answers : ∀ b, (Instr.oamdmaW 2 false (List.replicate 257 b)).wf = false := by
  intro b; simp only [Instr.wf, List.length_replicate]; decide
theorem test_applies_axrom : (Instr.axRegW 0).applies ctxB = false := by decide
theorem test_applies_vrc2 : (Instr.v2Prg0W 0).applies ctxAx = false := by decide
theorem test_applies_w_clear : (Instr.ppuscrollW2 0).applies ctxB = false := by decide
theorem test_applies_w_set : (Instr.ppuaddrW1 0).applies ctxB1 = false := by decide
theorem test_construct_refuses : (State.construct? .axrom { Config.params with prgLen := 0x6000 }).isNone = true := by decide
theorem test_construct_refuses_delay : (State.construct? .vrc2b { Config.params with nmiDelay := 0 }).isNone = true := by decide
theorem test_construct_reset : State.construct? Config.variant Config.params = some State.reset := rfl

/-! ### One word for every instruction (spec/95 part 2.1 and part 3; 30 R120, R121) -/

theorem test_word_ppuctrlW : read ctxB 0x1200080 = some (.ppuctrlW 0x80) := by decide
theorem test_word_ppuctrlR : read ctxB 0x0200000 = some .ppuctrlR := by decide
theorem test_word_ppumaskW : read ctxB 0x120011E = some (.ppumaskW 0x1E) := by decide
theorem test_word_ppumaskR : read ctxB 0x0200100 = some .ppumaskR := by decide
theorem test_word_ppustatusR : read ctxB 0x0200200 = some .ppustatusR := by decide
theorem test_word_ppustatusW : read ctxB 0x12002A5 = some (.ppustatusW 0xA5) := by decide
theorem test_word_oamaddrW : read ctxB 0x1200300 = some (.oamaddrW 0x00) := by decide
theorem test_word_oamaddrR : read ctxB 0x0200300 = some .oamaddrR := by decide
theorem test_word_oamdataR : read ctxB 0x0200400 = some .oamdataR := by decide
theorem test_word_oamdataW : read ctxB 0x1200477 = some (.oamdataW 0x77) := by decide
theorem test_word_ppuscrollW1 : read ctxB 0x120057D = some (.ppuscrollW1 0x7D) := by decide
theorem test_word_ppuscrollW2 : read ctxB1 0x120055E = some (.ppuscrollW2 0x5E) := by decide
theorem test_word_ppuscrollR : read ctxB 0x0200500 = some .ppuscrollR := by decide
theorem test_word_ppuaddrW1 : read ctxB 0x13FFE12 = some (.ppuaddrW1 0x12) := by decide
theorem test_word_ppuaddrW2 : read ctxB1 0x13FFE12 = some (.ppuaddrW2 0x12) := by decide
theorem test_word_ppuaddrR : read ctxB 0x0200600 = some .ppuaddrR := by decide
theorem test_word_ppudataR : read ctxB 0x0200700 = some .ppudataR := by decide
theorem test_word_ppudataW : read ctxB 0x1200741 = some (.ppudataW 0x41) := by decide
theorem test_word_oamdmaW : read ctxB 0x3401402 = some (.oamdmaW 0x02 true []) := by decide
theorem test_word_notClaimed : read ctxB 0x0401600 = some .notClaimed := by decide
theorem test_word_axRegW : read ctxAx 0x1FFFF13 = some (.axRegW 0x13) := by decide
theorem test_word_v2Prg0W : read ctxB 0x1800013 = some (.v2Prg0W 0x13) := by decide
theorem test_word_v2MirrorW : read ctxB 0x1900001 = some (.v2MirrorW 0x01) := by decide
theorem test_word_v2Prg1W : read ctxB 0x1A003F3 = some (.v2Prg1W 0xF3) := by decide
theorem test_word_v2IrqLatchLoW : read ctxB 0x1F0000E = some (.v2IrqLatchLoW 0x0E) := by decide
theorem test_word_v2IrqLatchHiW : read ctxB 0x1F0010F = some (.v2IrqLatchHiW 0x0F) := by decide
theorem test_word_v2IrqLatchHiW_a : read ctxA 0x1F00202 = some (.v2IrqLatchHiW 0x02) := by decide
theorem test_word_v2IrqCtrlW : read ctxB 0x1F00207 = some (.v2IrqCtrlW 0x07) := by decide
theorem test_word_v2IrqAckW : read ctxB 0x1F00300 = some .v2IrqAckW := by decide
theorem test_word_v2ChrW : read ctxB 0x1C00207 = some (.v2ChrW 0xC 2 0x07) := by decide
theorem test_word_v2ChrW_a : read ctxA 0x1C00207 = some (.v2ChrW 0xC 1 0x07) := by decide
theorem test_word_mapR : read ctxB 0x05FFF00 = some (.mapR 0x5FFF) := by decide
theorem test_word_mapW : read ctxB 0x16000AA = some (.mapW 0x6000 0xAA) := by decide
theorem test_word_ppuStep : read ctxB 0x4000000 = some .ppuStep := by decide
theorem test_word_mapperTick : read ctxB 0x4000001 = some .mapperTick := by decide
theorem test_word_reset : read ctxB 0x8000000 = some .reset := by decide
theorem test_word_save : read ctxB 0x8000001 = some .save := by decide
theorem test_word_restore : read ctxB 0x8000002 = some (.restore []) := by decide
theorem test_words_invalid : [0xC000000, 0x4000002, 0x8000003, 0x8000004, 0x6000000].map (read ctxB) = List.replicate 5 none := by decide
theorem test_table_word : decodeTableWord 28 0x1200080 = some (.ppuctrlW 0x80) := by decide
theorem test_sub_heuristic : vrc2Sub .heuristicF00F .a 0xB009 = 1 ∧ vrc2Sub .fixedF003 .a 0xB009 = 2 := by decide

/-! ### One step of every instruction (spec/95) -/

-- 2.2, row 1
theorem test_ppuctrlW : after (State.withPpu vb fun p => { p with t := 0x7FFF }) 0x1200001
    (fun s => (s.ppu.t, s.ppu.ctrl.ntSelect, s.ppu.latch)) = some (0x77FF, 1, 0x01) := by decide
-- 2.2, rows 3 and 4: latch 1E
theorem test_ppuctrlR : after (State.withPpu vb fun p => { p with latch := 0x1E }) 0x0200000 (·.io.result) = some (some 0x1E) := by decide
theorem test_ppumaskW : after vb 0x120011E (fun s => (s.ppu.mask.showBg, s.ppu.mask.showLeftSpr, s.ppu.mask.grayscale)) =
    some (true, true, false) := by decide
theorem test_ppumaskR : after (State.withPpu vb fun p => { p with latch := 0x1E }) 0x0200100 (·.io.result) = some (some 0x1E) := by decide
-- part 1, T2, row 1
theorem test_ppustatusR : after (State.withPpu vb fun p => { p with nmiOccurred := true, sprOverflow := true, latch := 0xFF, w := true })
    0x0200200 (fun s => (s.io.result, s.ppu.nmiOccurred, s.ppu.w, s.ppu.sprOverflow)) = some (some 0xBF, false, false, true) := by decide
-- 2.2, row 5
theorem test_ppustatusW : after vb 0x12002A5 (·.ppu.latch) = some 0xA5 := by decide
theorem test_oamaddrW : after vb 0x12003FF (·.ppu.oamAddr) = some 0xFF := by decide
theorem test_oamaddrR : after (State.withPpu vb fun p => { p with latch := 0x1E }) 0x0200300 (·.io.result) = some (some 0x1E) := by decide
-- part 1, T3
theorem test_oamdataR : after (State.withPpu vb fun p => { p with oam := [(0x10, 0x5A)], oamAddr := 0x10 }) 0x0200400
    (fun s => (s.io.result, s.ppu.oamAddr)) = some (some 0x5A, 0x10) := by decide
theorem test_oamdataW : after (State.withPpu vb fun p => { p with oamAddr := 0xFF }) 0x1200477
    (fun s => (s.ppu.oam, s.ppu.oamAddr)) = some ([(0xFF, 0x77)], 0x00) := by decide
-- 2.2, rows 6 to 8
theorem test_ppuscrollW1 : after vb 0x120057D (fun s => (s.ppu.t, s.ppu.x, s.ppu.w)) = some (0x000F, 5, true) := by decide
theorem test_ppuscrollW2 : after (State.withPpu vb fun p => { p with t := 0x000F, x := 5, w := true }) 0x120055E
    (fun s => (s.ppu.t, s.ppu.x, s.ppu.w)) = some (0x616F, 5, false) := by decide
theorem test_ppuscrollR : after (State.withPpu vb fun p => { p with latch := 0x1E }) 0x0200500 (·.io.result) = some (some 0x1E) := by decide
-- part 1, T1, rows 2 and 3
theorem test_ppuaddrW1 : after (State.withPpu vb fun p => { p with t := 0x7FFF }) 0x1200600 (fun s => (s.ppu.t, s.ppu.v, s.ppu.w)) =
    some (0x00FF, 0, true) := by decide
theorem test_ppuaddrW2 : after (State.withPpu vb fun p => { p with t := 0x3FFF, w := true }) 0x12006AB
    (fun s => (s.ppu.t, s.ppu.v, s.ppu.w)) = some (0x3FAB, 0x3FAB, false) := by decide
theorem test_ppuaddrR : after (State.withPpu vb fun p => { p with latch := 0x1E }) 0x0200600 (·.io.result) = some (some 0x1E) := by decide
-- 2.2, rows 11 and 12
theorem test_ppudataR_buffered : after (State.withPpu vb fun p => { p with nt := [(0x005, 0x41)], v := 0x2005, readBuffer := 0x99 }) 0x0200700
    (fun s => (s.io.result, s.ppu.readBuffer, s.ppu.v)) = some (some 0x99, 0x41, 0x2006) := by decide
theorem test_ppudataR_palette : after (State.withPpu vb fun p =>
      { p with pal := [(1, 0x2A)], nt := [(0x701, 0x77)], v := 0x3F01, readBuffer := 0x11 }) 0x0200700
    (fun s => (s.io.result, s.ppu.readBuffer, s.ppu.v)) = some (some 0x2A, 0x77, 0x3F02) := by decide
-- 2.2, rows 13 and 17
theorem test_ppudataW_palette : after (State.withPpu vb fun p => { p with v := 0x3F10 }) 0x120072C (fun s => (s.ppu.pal, s.ppu.v)) =
    some ([(0, 0x2C)], 0x3F11) := by decide
theorem test_ppudataW_rom : after (State.withPpu ax fun p => { p with v := 0x0123 }) 0x1200755
    (fun s => (s.io.outputs, s.cart.chrRam, s.ppu.v)) = some ([.log "AxROM" 0x0123 0x55], [], 0x0124) := by decide
-- 2.2, rows 19 and 20, with two answers delivered and the other bytes free
theorem test_oamdmaW_stall : (nextOf (exec (.oamdmaW 2 true []) (State.withPpu vb fun p => { p with oamAddr := 0xFE }))).map
    (fun s => (s.io.outputs, s.io.busReads)) = some ([.stallRequest 514], 256) := by
  simp only [exec, execOamdmaW_eq]; rfl
theorem test_oamdmaW_wraps : (((Ppu.reset Config.params).oamPush 0).oamPush 1).oam = [(1, 1)] ∧
    (Ppu.oamPush { Ppu.reset Config.params with oamAddr := 0xFF } 7).oamAddr = 0 := by decide
theorem test_notClaimed : after vb 0x0401600 (·.io.result) = some none := by decide
-- part 1, T6, rows 1 and 3; 2.7, row 1
theorem test_axRegW : after ax 0x1800013 (fun s => (s.mapper, s.io.outputs)) =
    some ({ mirror := .single1, regs := .axrom 3 }, [.bankSwitch 0x8000 0xFFFF]) := by decide
theorem test_axRegW_same : after { ax with mapper := { mirror := .single1, regs := .axrom 3 } } 0x1800003 (fun s => (s.mapper, s.io.outputs)) =
    some ({ mirror := .single0, regs := .axrom 3 }, []) := by decide
-- 2.8, rows 1, 3 and 4
theorem test_v2Prg0W : after vb 0x1800005 (fun s => ((regsOf s).prgBank0, s.io.outputs)) = some (0x05, [.bankSwitch 0x8000 0x9FFF]) := by decide
theorem test_v2MirrorW : after vb 0x1900001 (·.mapper.mirror) = some .horizontal := by decide
theorem test_v2Prg1W : after vb 0x1A003F3 (fun s => ((regsOf s).prgBank1, s.io.outputs)) = some (0x13, [.bankSwitch 0xA000 0xBFFF]) := by decide
-- 2.8, rows 5 and 7; part 3, P3
theorem test_v2ChrW : after vb 0x1C00207 (fun s => (regsOf s).chrReg.toList) = some [0, 0, 0, 7, 0, 0, 0, 0] := by decide
theorem test_v2ChrW_a : after va 0x1C00207 (fun s => (regsOf s).chrReg.toList) = some [0, 0, 0x70, 0, 0, 0, 0, 0] := by decide
theorem test_v2IrqLatchLoW : after vb 0x1F0000E (fun s => (regsOf s).irqReload) = some 0x0E := by decide
theorem test_v2IrqLatchHiW : after (withRegs { Vrc2Regs.zero with irqReload := 0x0E }) 0x1F0010F
    (fun s => (regsOf s).irqReload) = some 0xFE := by decide
-- 2.8, last row
theorem test_v2IrqCtrlW : after (withRegs { Vrc2Regs.zero with irqReload := 0x10, irqCounter := 0x55, irqDiv3 := 2, irqPrescaler := 100 }) 0x1F00201
    (fun s => ((regsOf s).irqEnable, (regsOf s).irqEnableOnAck, (regsOf s).irqCounter, (regsOf s).irqDiv3, (regsOf s).irqPrescaler)) =
    some (false, true, 0x55, 0, 0) := by decide
-- part 3, P3, rows 7 and 12
theorem test_v2IrqAckW : after (withRegs { Vrc2Regs.zero with irqTriggered := true, irqEnableOnAck := true }) 0x1F00300
    (fun s => ((regsOf s).irqTriggered, (regsOf s).irqEnable, s.io.outputs)) = some (false, true, [.irqCancel]) := by decide
-- 2.7, rows 1 and 3
theorem test_mapR : after { ax with mapper := { mirror := .single0, regs := .axrom 6 } } 0x0800400 (·.io.result) = some (some 0x24) := by decide
theorem test_mapR_low : after ax 0x05FFF00 (·.io.result) = some (some 0x5F) := by decide
-- 2.7, rows 4 and 5
theorem test_mapW : after ax 0x17FFFBB (·.cart.sram) = some [(0x1FFF, 0xBB)] := by decide
theorem test_mapW_low : after ax 0x1500012 (fun s => (s.io.outputs, s.cart.sram)) = some ([.log "AxROM" 0x5000 0x12], []) := by decide
-- part 1, T9 and T8, row 1
theorem test_ppuStep_vblank : after (State.withPpu vb fun p => { p with scanline := 241, cycle := 0 }) 0x4000000
    (fun s => (s.ppu.scanline, s.ppu.cycle, s.ppu.nmiOccurred, s.io.outputs)) = some (241, 1, true, [.framePresent]) := by decide
theorem test_ppuStep_skip : after (State.withPpu vb fun p => { p with scanline := 261, cycle := 339, mask := { Mask.zero with showBg := true } })
    0x4000000 (fun s => (s.ppu.scanline, s.ppu.cycle, s.ppu.f)) = some (0, 0, true) := by decide
-- part 1, T7, row 3
theorem test_mapperTick : after (withRegs { Vrc2Regs.zero with irqCounter := 0x0A, irqPrescaler := 340, irqDiv3 := 2, irqEnable := true }) 0x4000001
    (fun s => ((regsOf s).irqCounter, (regsOf s).irqPrescaler, (regsOf s).irqDiv3)) = some (0x0B, 0, 0) := by decide
theorem test_mapperTick_axrom : nextOf (exec .mapperTick ax) = some ax := by decide
-- part 1, T9
theorem test_reset : after (State.withPpu vb fun p => { p with v := 5, latch := 9 }) 0x8000000
    (fun s => (s.ppu.scanline, s.ppu.cycle, s.ppu.f, s.ppu.v, s.ppu.latch)) = some (240, 340, false, 0, 0) := by decide
-- 2.9: the first seven bytes and the length
theorem test_save : (snapshotBytes ax).take 7 = [0x01, 0x00, 0xF0, 0x00, 0x54, 0x01, 0x00] ∧ (snapshotBytes ax).length = 10620 :=
  ⟨rfl, by rw [length_snapshotBytes]; rfl⟩
theorem test_restore_malformed : after vb 0x8000002 (fun s => (s.io.condition, s.ppu.cycle)) = some (some .malformedSnapshot, 340) := by decide
theorem test_restore : restoredState (State.withPpu ax fun p => { p with v := 5, latch := 9 }) (snapshotBytes ax) = some ax :=
  restoredState_snapshotBytes (by decide) (by decide) rfl rfl

/-! ### The scroll and pixel functions (spec/95 parts 2.4, 2.5, 2.6) -/

theorem test_incX : [0x001E, 0x001F, 0x041F, 0x7BFF, 0x7FFF].map incX = [0x001F, 0x0400, 0x0000, 0x7FE0, 0x7BE0] := by decide
theorem test_incY : [0x6000, 0x7000, 0x73A0, 0x7BA0, 0x73E0, 0x73C0, 0x7FFF].map incY =
    [0x7000, 0x0020, 0x0800, 0x0000, 0x0000, 0x03E0, 0x0C1F] := by decide
theorem test_copies : copyX 0x7FFF 0 = 0x7BE0 ∧ copyX 0 0x7FFF = 0x041F ∧ copyY 0 0x7FFF = 0x7BE0 ∧ copyY 0x7FFF 0 = 0x041F := by decide
theorem test_attribute_fetch : [0x0002, 0x03BF, 0x2BDF, 0x0C63, 0x7FFF].map (fun v => (atFetchAddr v, atShift v)) =
    [(0x23C0, 2), (0x23FF, 2), (0x2BFF, 6), (0x2FC0, 6), (0x2FFF, 6)] := by decide
theorem test_storeTile : (Ppu.storeTile { Ppu.reset Config.params with atBits := 0x4, patLo := 0xCC, patHi := 0xAA, tileData := 0x23456789ABCDEF00 }).tileData =
    0x23456789FFEDFF64 := by decide
theorem test_composite : composite 6 5 false = 0x15 ∧ composite 6 5 true = 0x06 ∧ composite 8 8 false = 0 ∧ composite 0 5 true = 0x15 := by decide
theorem test_ntIndex : [0x27C5, 0x2BFF, 0x2FFF, 0x3EFF].map (ntIndex .horizontal) = [0x3C5, 0x7FF, 0x7FF, 0x6FF] := by decide
theorem test_palIndex : [0x00, 0x04, 0x10, 0x14, 0x18, 0x1C, 0x11, 0x1F].map palIndex = [0x00, 0x04, 0x00, 0x04, 0x08, 0x0C, 0x11, 0x1F] := by decide

/-! ### Reset -/

theorem test_reset_inv : State.reset.inv = true := by decide
theorem test_reset_memories : Memory.wf State.reset.ppu.oam && Memory.wf State.reset.ppu.pal && Memory.wf State.reset.ppu.nt &&
    Memory.wf State.reset.cart.sram && Memory.wf State.reset.cart.chrRam = true := by decide
theorem test_small_blocks_inv : va.inv = true ∧ ax.inv = true := by decide

/-! ### Witnesses: a state and operands that meet the hypotheses of each statement, at the ends of each range -/

/-- A block at a position, the mask given. -/
def atPos (l c : Nat) (mask : Mask) : State :=
  State.withPpu vb fun p => { p with scanline := BitVec.ofNat 9 l, cycle := BitVec.ofNat 9 c, mask := mask }

/-- Both layers shown, no left clip. -/
def maskOn : Mask := Mask.ofByte 0x1E

/-- The stimulus of a word without bytes. -/
def stim (w : BitVec 28) : Stimulus := ⟨w, []⟩

theorem test_witness_DecodeEncodeRoundTrip :
    ((Instr.mapR 0x4020).wf && (Instr.mapR 0x4020).applies ctxB && (Instr.mapR 0xFFFF).wf && (Instr.mapW 0x4020 1).wf &&
      (Instr.mapW 0x7FFF 1).wf && (Instr.v2ChrW 0xB 0 1).wf && (Instr.v2ChrW 0xE 3 1).wf && (Instr.v2ChrW 0xE 3 1).applies ctxA &&
      (Instr.axRegW 0xFF).applies ctxAx && (Instr.ppuaddrW2 1).applies ctxB1 && (Instr.oamdmaW 2 true [1, 2]).wf) = true := by decide
theorem test_witness_DecodedStimulusIsWellFormed : decode ctxB (stim 0x1E00300) = .ok (.v2ChrW 0xE 3 0) := rfl
theorem test_witness_DecodeFollowsTheOpcodeTable : ctxB.addrMode = .fixedF003 ∧ tableLookup ctxB 0x1E00300 = some "V2_CHR_W" ∧
    tableLookup ctxA 0x1F00202 = some "V2_IRQ_LATCH_HI_W" ∧ tableLookup ctxB 0xC000000 = none := by decide
theorem test_witness_ReservedWordsAreInvalid : [0xC000000, 0x4000002, 0x6000000, 0x8000003, 0x8000004, 0xA000000].map (read ctxB) = List.replicate 6 none ∧
    [0x0000000, 0x3FFFFFF, 0x4000000, 0x4000001, 0x8000000, 0x8000002].all (fun w => (read ctxB w).isSome) = true := by decide
theorem test_witness_StepRunsTheDecodedStimulus :
    (vb.deliver (stim 0x1200080)).io.stimuli = stim 0x1200080 :: [] ∧ vb.fatal = none ∧
      decode (vb.deliver (stim 0x1200080)).decodeCtx (stim 0x1200080) = .ok (.ppuctrlW 0x80) := ⟨rfl, rfl, rfl⟩
theorem test_witness_StepStopsOnlyOnFatalOrReserved :
    vb.io.stimuli = [] ∧ step { vb.deliver (stim 0) with fatal := some ("AxROM", 7) } = .fault (.contractViolation "AxROM" 7) ∧
      step (vb.deliver (stim 0xC000000)) = .refused (.invalidWord .reservedKind) ∧ exec .notClaimed vb = .next vb := ⟨rfl, rfl, rfl, rfl⟩
theorem test_witness_StepKeepsTheInvariant :
    (vb.deliver (stim 0x4000000)).inv = true ∧ (nextOf (step (vb.deliver (stim 0x4000000)))).isSome = true := by decide
theorem test_witness_StepKeepsRomAndMapperVariant : (nextOf (step (va.deliver (stim 0x1F00202)))).map (·.variant) = some .vrc2a := by decide
theorem test_witness_PositionMovesOnlyByStepResetRestore : ∃ t, exec (.ppumaskW 8) vb = .next t ∧ t.ppu.cycle = 340 := ⟨_, rfl, rfl⟩
theorem test_witness_MirrorIsSetOnlyByTheMapper :
    (Instr.axRegW 0x10).wf = true ∧ ∃ t, exec (.axRegW 0x10) ax = .next t ∧ t.mapper.mirror ≠ ax.mapper.mirror :=
  ⟨rfl, _, rfl, by decide⟩
theorem test_witness_ReadsHaveNoOtherSideEffect :
    (∃ t, exec (.mapR 0x4020) vb = .next t) ∧ (∃ t, exec .ppustatusR vb = .next t) ∧ ∃ t, exec .ppudataR vb = .next t :=
  ⟨⟨_, rfl⟩, ⟨_, rfl⟩, ⟨_, rfl⟩⟩
theorem test_witness_AliasedPaletteCellsAreNeverWritten :
    vb.inv = true ∧ ∃ t, exec (.ppudataW 7) (State.withPpu vb fun p => { p with v := 0x3F10 }) = .next t ∧ Memory.read t.ppu.pal 16 = 0 :=
  ⟨by decide, _, rfl, by decide⟩
theorem test_witness_IrqTriggerAndCancelAlternate :
    (∃ t, exec .mapperTick (withRegs { Vrc2Regs.zero with irqCounter := 0xFF, irqDiv3 := 2, irqEnable := true, irqCycleMode := true }) = .next t ∧
      t.io.outputs = [.irqTrigger] ∧ t.irqAsserted = true) ∧
    ∃ t, exec .v2IrqAckW (withRegs { Vrc2Regs.zero with irqTriggered := true }) = .next t ∧ t.io.outputs = [.irqCancel] ∧ t.irqAsserted = false :=
  ⟨⟨_, rfl, by decide, by decide⟩, ⟨_, rfl, by decide, by decide⟩⟩
theorem test_witness_EventsOfOneStimulus :
    (∃ t, exec .ppuStep (atPos 241 0 maskOn) = .next t ∧ t.io.outputs = [.framePresent]) ∧ (Instr.mapW 0x4020 1).wf = true ∧
      ∃ t, exec (.mapW 0x4020 1) vb = .next t ∧ t.io.outputs = [.log "VRC2b" 0x4020 1] :=
  ⟨⟨_, rfl, by decide⟩, by decide, ⟨_, rfl, by decide⟩⟩
theorem test_witness_ResetWritesTheResetValues : ax.variant = .axrom ∧ vb.mapper.regs = .vrc2 .b Vrc2Regs.zero := by decide
theorem test_witness_SnapshotLaws : vb.inv = true ∧ (State.withPpu vb fun p => { p with latch := 9 }).inv = true ∧
    ∀ s : State, s.inv = true → s.params = vb.params → s.variant = vb.variant → snapshotBytes s ≠ [] :=
  ⟨by decide, by decide, by intro s _ _ _; simp [snapshotBytes]⟩
theorem test_witness_SnapshotOffsets : ax.mapper.regs = .axrom 0 ∧ vb.mapper.regs = .vrc2 .b Vrc2Regs.zero ∧
    0x1FFF < vb.params.sramLen ∧ vb.params.chrIsRam = true ∧ 0x1FFF < vb.params.chrLen ∧ ax.params.chrIsRam = false := by decide
theorem test_witness_OamDataWriteResult : vb.inv = true ∧ vb.ppu.oamAddr.toNat = 0 := by decide
theorem test_witness_AddressPairLaw : vb.ppu.w = false ∧ vb.fatal = none ∧
    ((vb.deliver ⟨writeWord 0x2006 0xAB, []⟩).deliver ⟨writeWord 0x2006 0xFF, []⟩).io.stimuli =
      ⟨writeWord 0x2006 0xFF, []⟩ :: ⟨writeWord 0x2006 0xAB, []⟩ :: [] := ⟨rfl, rfl, rfl⟩
theorem test_witness_DataReadResult : (0x3EFF : VramAddr).toNat % 0x4000 < 0x3F00 ∧ 0x3F00 ≤ (0x7F00 : VramAddr).toNat % 0x4000 ∧
    0x3F00 ≤ (0x3FFF : VramAddr).toNat % 0x4000 := by decide
theorem test_witness_DataWriteResult : vb.inv = true ∧ ax.inv = true ∧ vb.params.chrIsRam = true ∧ ax.params.chrIsRam = false ∧
    [(0x1FFF : VramAddr), 0x2000, 0x3EFF, 0x3F00, 0x7FFF].map (fun v => (Ppu.dataAddr { vb.ppu with v := v }).toNat) =
      [0x1FFF, 0x2000, 0x3EFF, 0x3F00, 0x3FFF] := by decide
theorem test_witness_OamDmaResult : vb.inv = true ∧ (0 : Nat) < 256 ∧ 255 < 256 := by decide
theorem test_witness_NametableMirroring : 0x2000 ≤ (0x2000 : PpuAddr).toNat ∧ (0x3EFF : PpuAddr).toNat < 0x3F00 ∧
    (0x3EFF : PpuAddr).toNat / 0x400 % 4 = 3 := by decide
theorem test_witness_PaletteWriteReadsBack : (State.withPpu vb fun p => { p with v := 0x3F10 }).inv = true ∧
    ∃ t, exec (.ppudataW 0x15) (State.withPpu vb fun p => { p with v := 0x3F10 }) = .next t ∧
      ppuRead t 0x3F00 = 0x15 ∧ ppuRead t 0x3FF0 = 0x15 ∧ ppuRead t 0x3F14 = 0 := ⟨by decide, _, rfl, by decide⟩
theorem test_witness_MapperReadResult : ax.inv = true ∧ va.inv = true ∧ ax.mapper.regs = .axrom 0 ∧
    [(0x4020 : CpuAddr), 0x5FFF, 0x6000, 0x7FFF, 0x8000, 0x9FFF, 0xA000, 0xBFFF, 0xC000, 0xDFFF, 0xE000, 0xFFFF].all (fun a => (Instr.mapR a).wf) = true := by
  decide
theorem test_witness_MapperWriteResult : ax.inv = true ∧
    [(0x4020 : CpuAddr), 0x5FFF, 0x6000, 0x7FFF].all (fun a => (Instr.mapW a 1).wf) = true := by decide
theorem test_witness_AxRomRegisterWrite : ax.mapper.regs = .axrom 0 ∧ 0x8000 ≤ (0x8000 : CpuAddr).toNat ∧ 0x8000 ≤ (0xFFFF : CpuAddr).toNat := by decide
theorem test_witness_Vrc2Writes : vb.mapper.regs = .vrc2 .b Vrc2Regs.zero ∧ va.mapper.regs = .vrc2 .a Vrc2Regs.zero ∧
    (Instr.v2ChrW 0xB 0 0xFF).wf = true ∧ (Instr.v2ChrW 0xE 3 0xFF).wf = true := by decide
theorem test_witness_CharacterDataIsBanked : (0x1FFF : PpuAddr).toNat < 0x2000 ∧ (7 : Fin 8).val = (0x1FFF : PpuAddr).toNat / 0x400 ∧
    ax.mapper.regs = .axrom 0 ∧ va.mapper.regs = .vrc2 .a Vrc2Regs.zero := by decide
theorem test_witness_RegisterWritesAreMapperWrites : 0x8000 ≤ (0x8000 : CpuAddr).toNat ∧ 0x8000 ≤ (0xFFFF : CpuAddr).toNat ∧
    va.mapper.regs = .vrc2 .a Vrc2Regs.zero ∧ vb.mapper.regs = .vrc2 .b Vrc2Regs.zero := by decide
/-- 30 R144: under heuristic_F00F `raw` is the larger pair, 2 at both addresses, which revision A swaps to 1. -/
theorem test_heuristic_sub :
    decode ⟨.vrc2a, .heuristicF00F, false⟩ (stim (writeWord 0xB009 0x0A)) = .ok (.v2ChrW 0xB 1 0x0A) ∧
      decode ⟨.vrc2b, .heuristicF00F, false⟩ (stim (writeWord 0xF006 0x02)) = .ok (.v2IrqCtrlW 0x02) ∧
      decode ⟨.vrc2b, .fixedF003, false⟩ (stim (writeWord 0xF00D 0x02)) = .ok (.v2IrqLatchHiW 0x02) := ⟨rfl, rfl, rfl⟩
theorem test_witness_RegistersOfAnotherVariantAreRefused : ax.mapper.regs = .axrom 0 ∧ vb.mapper.regs = .vrc2 .b Vrc2Regs.zero := by decide
theorem test_witness_Vrc2TickResult :
    (withRegs { Vrc2Regs.zero with irqDiv3 := 2, irqEnable := true, irqPrescaler := 340, irqCounter := 0xFF }).inv = true ∧
      (withRegs { Vrc2Regs.zero with irqDiv3 := 2, irqEnable := true, irqCycleMode := true, irqCounter := 0xFE }).inv = true ∧
      (withRegs { Vrc2Regs.zero with irqDiv3 := 1, irqEnable := true }).inv = true := by decide
theorem test_witness_ScanlineModeCountsEvery1023Ticks : ∃ r : Vrc2Regs, (withRegs { Vrc2Regs.zero with irqEnable := true }).mapper.regs = .vrc2 .b r ∧
    r.irqEnable = true ∧ r.irqCycleMode = false ∧ r.irqDiv3 = 0 ∧ r.irqPrescaler = 0 := ⟨_, rfl, rfl, rfl, rfl, rfl⟩
theorem test_witness_PpuStepMovesThePosition : (atPos 261 339 maskOn).inv = true ∧ (atPos 261 339 maskOn).ppu.f = false ∧
    (atPos 261 340 maskOn).ppu.dot = 89341 ∧ (atPos 0 0 Mask.zero).inv = true := by decide
theorem test_witness_DisabledStepRendersNothing : vb.ppu.mask.showBg = false ∧ vb.ppu.mask.showSpr = false ∧
    ([(240, 0), (241, 0), (261, 0), (261, 340)].map fun p : Nat × Nat =>
      (nextOf (exec .ppuStep (atPos p.1 p.2 Mask.zero))).map fun t => (t.ppu.scanline.toNat, t.ppu.cycle.toNat, t.io.outputs)) =
      [some (240, 1, []), some (241, 1, [.framePresent]), some (261, 1, []), some (0, 0, [])] := by decide
theorem test_witness_Vblank : (atPos 241 0 maskOn).arrivesAt 241 1 ∧ (atPos 261 0 Mask.zero).arrivesAt 261 1 := by
  unfold State.arrivesAt; decide
theorem test_witness_NmiIsRaisedWhenTheDelayEnds : ∃ s : State, s.ppu.nmiDelay.toNat = 254 + 1 ∧ s.ppu.ctrl.nmiOutput = true ∧
    s.ppu.nmiOccurred = true ∧ s.ppu.cycle.toNat ≤ 340 ∧ 241 * 341 + 1 ≤ s.ppu.dot ∧ s.ppu.dot + (254 + 1) < 261 * 341 + 1 :=
  ⟨State.withPpu (atPos 241 1 maskOn) fun p => { p with nmiDelay := 255, nmiOccurred := true, ctrl := { Control.zero with nmiOutput := true } }, by decide⟩
theorem test_witness_Rendering : (atPos 239 255 maskOn).arrivesAt 239 256 ∧ (atPos 0 0 maskOn).arrivesAt 0 1 ∧
    (atPos 261 335 maskOn).arrivesAt 261 336 ∧ (atPos 261 279 maskOn).arrivesAt 261 280 ∧ (atPos 261 303 maskOn).arrivesAt 261 304 ∧
    (atPos 239 256 maskOn).arrivesAt 239 257 ∧ (atPos 0 320 maskOn).arrivesAt 0 321 ∧ (atPos 0 0 maskOn).ppu.renderingEnabled = true := by
  unfold State.arrivesAt; decide
theorem test_witness_SpriteEvaluation : (atPos 0 256 maskOn).arrivesAt 0 257 ∧ (atPos 239 256 maskOn).arrivesAt 239 257 ∧
    (atPos 240 256 maskOn).arrivesAt 240 257 ∧ (atPos 261 256 maskOn).arrivesAt 261 257 ∧
    (atPos 240 256 maskOn).ppu.renderingEnabled = true := by
  unfold State.arrivesAt; decide
theorem test_witness_RenderingActsOnlyAtItsPositions :
    ([(239, 340), (260, 340), (261, 339), (261, 340), (240, 256), (261, 256), (261, 0), (260, 0)].map fun p : Nat × Nat =>
      (nextOf (exec .ppuStep (atPos p.1 p.2 maskOn))).map fun t => (t.ppu.scanline.toNat, t.ppu.cycle.toNat)) =
      [some (240, 0), some (261, 0), some (0, 0), some (0, 0), some (240, 257), some (261, 257), some (261, 1), some (260, 1)] ∧
    (atPos 240 256 maskOn).ppu.renderingEnabled = true ∧
    ([(240, 0), (241, 0), (239, 256), (239, 0)].map fun p : Nat × Nat =>
      (nextOf (exec .ppuStep (atPos p.1 p.2 maskOn))).map (·.io.outputs)) =
      [some [], some [.framePresent], some [], some [.pixelWrite 0 239 0 0]] := by decide
theorem test_witness_Sprites : (qualifying (State.withPpu vb fun p => { p with oam := [(0, 5), (1, 4), (3, 2)] }).ppu 5)[0]? = some 0 ∧
    (qualifying vb.ppu 5)[7]? = some 7 ∧
    (shownSprite (State.withPpu (atPos 5 2 maskOn) fun p => { p with
      sprCount := 1, sprites := Vector.replicate 8 { SpriteEntry.zero with pattern := 0x11111111, x := 2 } }).ppu 9).isSome = true := by decide

end Sys2Proof.Tests
end

section
/-! The PPU register interface (spec/40): the Status read, the OAMData read and write, and the second Address write. -/

namespace Sys2Proof.Machine

/-! ### The Status byte and the NMI line -/

theorem getLsbD_bitAt (n : Nat) (b : Bool) {k : Nat} (hk : k < 8) : (bitAt n b).getLsbD k = (decide (k = n) && b) := by
  rw [bitAt, BitVec.getLsbD_shiftLeft, BitVec.getLsbD_setWidth, BitVec.getLsbD_ofBool]
  have hkn : (!decide (k < n) && decide (k - n = 0)) = decide (k = n) := by
    rw [← decide_not, ← Bool.decide_and]
    exact decide_eq_decide.2 (by omega)
  have hw : k - n < 8 := by omega
  simp only [hk, hw, decide_true, Bool.true_and, ← Bool.and_assoc, hkn]

/-- The Status byte bit by bit (30 R128): the flags at bits 7, 6 and 5, the latch below. -/
theorem getLsbD_statusByte (p : Ppu) {k : Nat} (hk : k < 8) :
    (statusByte p).getLsbD k =
      if k = 7 then p.nmiOccurred else if k = 6 then p.spr0Hit else if k = 5 then p.sprOverflow
      else p.latch.getLsbD k := by
  simp only [statusByte, BitVec.getLsbD_or, getLsbD_bitAt _ _ hk, BitVec.getLsbD_setWidth, BitVec.getLsbD_extractLsb',
    Nat.zero_add, hk, decide_true, Bool.true_and]
  by_cases hlow : k < 5
  · simp [hlow, show k ≠ 7 by omega, show k ≠ 6 by omega, show k ≠ 5 by omega]
  · obtain rfl | rfl | rfl : k = 5 ∨ k = 6 ∨ k = 7 := by omega
    all_goals simp

/-- Re-evaluating a low NMI line starts no delay (41 R215): only a rising edge does. -/
theorem Ppu.nmiChange_of_nmiLine_low {p : Ppu} (h : p.nmiLine = false) (delay : Nat) :
    p.nmiChange delay = { p with nmiPrevious := false } := by
  simp [Ppu.nmiChange, h]

theorem exec_ppustatusR (s : State) : exec .ppustatusR s = .next { s with
    ppu := { s.ppu with nmiOccurred := false, nmiPrevious := false, w := false }
    io := { s.io with result := some (statusByte s.ppu) } } := by
  have hlow : Ppu.nmiLine { s.ppu with nmiOccurred := false } = false := Bool.and_false _
  show execPpustatusR s = _
  rw [execPpustatusR, Ppu.nmiChange_of_nmiLine_low hlow]
  rfl

/-- Settles O23: clearing `nmi_occurred` holds the line low, so the delay is kept, and the byte is read bit by bit. -/
theorem statusReadResult : Obligations.StatusReadResult := fun s =>
  ⟨_, statusByte s.ppu, exec_ppustatusR s, rfl, fun _ hk => getLsbD_statusByte s.ppu hk⟩

/-! ### OAMData -/

/-- Settles O26: the meaning returns the byte at `oam_addr` and writes nothing but the result. -/
theorem oamDataReadResult : Obligations.OamDataReadResult := fun _ => rfl

theorem Ppu.toNat_oamAddr_oamPush (p : Ppu) (b : Byte) : (p.oamPush b).oamAddr.toNat = (p.oamAddr.toNat + 1) % 256 := by
  rw [Ppu.oamPush_oamAddr, BitVec.toNat_add]; rfl

/-- What OAM holds after a push: the byte at the address of before, every other byte as it was (40 R168). -/
theorem Ppu.read_oam_oamPush {p : Ppu} (h : Memory.wf p.oam = true) (b : Byte) (a : Nat) :
    Memory.read (p.oamPush b).oam a = if p.oamAddr.toNat = a then b else Memory.read p.oam a := by
  rw [Ppu.oamPush_oam, Memory.read_write h]

theorem exec_oamdataW (d : Byte) (s : State) :
    exec (.oamdataW d) s = .next (s.setPpu (Ppu.oamPush { s.ppu with latch := d } d)) := rfl

/-- Settles O27: the write is one push of OAM with the latch loaded; the canonical form the invariant gives lets the store
be read back. -/
theorem oamDataWriteResult : Obligations.OamDataWriteResult := by
  intro d s hinv
  have hwf : Memory.wf s.ppu.oam = true := ((State.inv_iff s).1 hinv).ppu.oam.1
  have hread := Ppu.read_oam_oamPush (p := { s.ppu with latch := d }) hwf d
  refine ⟨_, exec_oamdataW d s, rfl, Ppu.toNat_oamAddr_oamPush _ d, ?stored, ?others⟩
  case stored => exact (hread _).trans (if_pos rfl)
  case others => exact fun a ha => (hread a).trans (if_neg ha.symm)

/-! ### The second Address write -/

/-- The second Address write puts the byte below the upper seven bits of `t` (40 R173). -/
theorem tAfterAddr2_eq_append (t : VramAddr) (d : Byte) : tAfterAddr2 t d = t.extractLsb' 8 7 ++ d := by
  have hmask : ∀ i, i < 15 → (0x7F00 : VramAddr).getLsbD i = !decide (i < 8) := by decide
  apply BitVec.eq_of_getLsbD_eq
  intro i hi
  rw [tAfterAddr2, BitVec.getLsbD_or, BitVec.getLsbD_and, hmask i hi, BitVec.getLsbD_setWidth, BitVec.getLsbD_append]
  by_cases hlow : i < 8
  · simp [hi, hlow]
  · simp [hlow, show i - 8 < 7 by omega, show 8 + (i - 8) = i by omega, BitVec.getLsbD_of_ge d i (by omega)]

theorem toNat_tAfterAddr2 (t : VramAddr) (d : Byte) : (tAfterAddr2 t d).toNat = t.toNat / 256 * 256 + d.toNat := by
  have ht : t.toNat / 256 < 128 := by have := t.isLt; omega
  rw [tAfterAddr2_eq_append, BitVec.toNat_append, ← Nat.shiftLeft_add_eq_or_of_lt d.isLt, BitVec.extractLsb'_toNat,
    Nat.shiftRight_eq_div_pow, Nat.shiftLeft_eq]
  show t.toNat / 256 % 128 * 256 + d.toNat = _
  rw [Nat.mod_eq_of_lt ht]

theorem exec_ppuaddrW2 (d : Byte) (s : State) : exec (.ppuaddrW2 d) s = .next { s with
    ppu := { s.ppu with latch := d, t := tAfterAddr2 s.ppu.t d, v := tAfterAddr2 s.ppu.t d, w := false } } := rfl

/-- Settles O29: `t` and `v` both take the value whose number `toNat_tAfterAddr2` gives. -/
theorem secondAddressWriteResult : Obligations.SecondAddressWriteResult := fun d s =>
  ⟨_, exec_ppuaddrW2 d s, rfl, toNat_tAfterAddr2 s.ppu.t d, rfl⟩

end Sys2Proof.Machine
end

section
/-! The tick of the AxROM mapper (spec/44). -/

namespace Sys2Proof.Machine

theorem exec_mapperTick (s : State) : exec .mapperTick s = .next (mapperTick s) := rfl

/-- MAPPER_TICK on AxROM in one equation, beside `mapperTick_vrc2`: there is no counter to tick (44 R297). -/
theorem mapperTick_axrom {s : State} {bank : BitVec 3} (h : s.mapper.regs = .axrom bank) : mapperTick s = s := by
  simp only [mapperTick, h]

/-- Settles O46: the tick answers the state itself, outputs included. -/
theorem axRomTickDoesNothing : Obligations.AxRomTickDoesNothing := fun s bank h => by
  rw [exec_mapperTick, mapperTick_axrom h]

end Sys2Proof.Machine
end

section
/-! The IRQ acknowledge of the VRC2 mapper (spec/45). -/

namespace Sys2Proof.Machine

/-- A conditional emission as one record update: only the output list may grow. -/
theorem State.emitIf_eq (s : State) (c : Bool) (e : Event) :
    s.emitIf c e = { s with io := { s.io with outputs := s.io.outputs ++ if c then [e] else [] } } := by
  cases c
  case false => simp
  case true => rfl

/-- The acknowledge in one equation (45 R324): the emission and the register update touch different parts of the state. -/
theorem v2IrqAckWrite_eq (s : State) (rev : Revision) (r : Vrc2Regs) :
    v2IrqAckWrite s rev r = { s with
      mapper := { s.mapper with regs := .vrc2 rev { r with irqTriggered := false, irqEnable := r.irqEnableOnAck } }
      io := { s.io with outputs := s.io.outputs ++ if r.irqTriggered then [.irqCancel] else [] } } := by
  rw [v2IrqAckWrite, State.emitIf_eq]
  rfl

theorem exec_v2IrqAckW {s : State} {rev : Revision} {r : Vrc2Regs} (h : s.mapper.regs = .vrc2 rev r) :
    exec .v2IrqAckW s = .next (v2IrqAckWrite s rev r) :=
  onVrc2_eq h

/-- Settles O43: on VRC2 the instruction is the acknowledge write, which emits exactly when the latch was set. -/
theorem vrc2IrqAcknowledge : Obligations.Vrc2IrqAcknowledge := fun s rev r h => by
  rw [exec_v2IrqAckW h, v2IrqAckWrite_eq]

end Sys2Proof.Machine
end

section
/-! SAVE and RESTORE (spec/46): what the two instructions do, and which byte sequences RESTORE accepts. -/

namespace Sys2Proof.Machine

theorem exec_save (s : State) : exec .save s = .next (s.emit (.snapshot (snapshotBytes s))) := rfl

theorem exec_restore_of_some {s t : State} {bytes : List Byte} (h : restoredState s bytes = some t) :
    exec (.restore bytes) s = .next t := by
  show execRestore bytes s = _
  rw [execRestore, h]

theorem exec_restore_of_none {s : State} {bytes : List Byte} (h : restoredState s bytes = none) :
    exec (.restore bytes) s = .next (s.raise .malformedSnapshot) := by
  show execRestore bytes s = _
  rw [execRestore, h]

/-- A sequence that is no snapshot of a state of the block is rejected (46 R350): whatever passes the checks of 46 R353 is
the snapshot of the very state it restores. -/
theorem restoredState_eq_none {s' : State} {bytes : List Byte} (hs' : s'.inv = true)
    (hno : ∀ s : State, s.inv = true → s.params = s'.params → s.variant = s'.variant → snapshotBytes s ≠ bytes) :
    restoredState s' bytes = none := by
  cases hres : restoredState s' bytes with
  | none => rfl
  | some t =>
    obtain ⟨hbytes, hinv, hparams, hvariant, -, -⟩ := restoredState_some hs' hres
    exact absurd hbytes.symm (hno t hinv hparams hvariant)

/-- Settles O19: the readers undo the writers (`restoredState_snapshotBytes`), and accept nothing the writers cannot write
(`restoredState_eq_none`). -/
theorem snapshotLaws : Obligations.SnapshotLaws := by
  refine ⟨exec_save, length_snapshotBytes, ?roundTrip, ?rejects⟩
  case roundTrip =>
    exact fun s s' hs hs' hp hv => exec_restore_of_some (restoredState_snapshotBytes hs hs' hp hv)
  case rejects =>
    exact fun s' bytes hs' hno => exec_restore_of_none (restoredState_eq_none hs' hno)

end Sys2Proof.Machine
end

section
/-! The decoder (spec/30): the round trip with the encoder, what a decoded stimulus is, and the reserved words. -/

namespace Sys2Proof

/-! ### Words by kind (30 R120) -/

theorem decode_bus (c : DecodeCtx) {S : BitVec 28} (h : (wordKind S).toNat = 0) (bytes : List Byte) :
    decode c { word := S, bytes := bytes } = .ok (decodeBus c (busFields (wordBody S)) bytes) := by
  simp only [decode, h]

theorem decode_clk (c : DecodeCtx) {S : BitVec 28} (h : (wordKind S).toNat = 1) (bytes : List Byte) :
    decode c { word := S, bytes := bytes } = decodeClk (wordBody S) := by
  simp only [decode, h]

theorem decode_sys (c : DecodeCtx) {S : BitVec 28} (h : (wordKind S).toNat = 2) (bytes : List Byte) :
    decode c { word := S, bytes := bytes } = decodeSys (wordBody S) bytes := by
  simp only [decode, h]

theorem decode_reserved (c : DecodeCtx) {S : BitVec 28} (h : (wordKind S).toNat = 3) (bytes : List Byte) :
    decode c { word := S, bytes := bytes } = .error .reservedKind := by
  simp only [decode, h]

/-! ### BUS words by address -/

/-- A write to the register window, mirrored every 8 addresses (30 R125, 20 R83). -/
theorem decode_regWrite (c : DecodeCtx) {a : CpuAddr} (h : 0x2000 ≤ a.toNat ∧ a.toNat < 0x4000) (d : Byte) (bytes : List Byte) :
    decode c { word := writeWord a d, bytes := bytes } = .ok (decodeRegWrite c.w (a.extractLsb' 0 3) d) := by
  rw [decode_writeWord, decodeBus_eq, if_pos h, if_pos rfl]

/-- A read from the register window. -/
theorem decode_regRead (c : DecodeCtx) {a : CpuAddr} (h : 0x2000 ≤ a.toNat ∧ a.toNat < 0x4000) (bytes : List Byte) :
    decode c { word := readWord a, bytes := bytes } = .ok (decodeRegRead (a.extractLsb' 0 3)) := by
  rw [decode_readWord, decodeBus_eq, if_pos h, if_neg (by simp)]

/-- A write at or above 0x8000 is a mapper register write (30 R125). -/
theorem decode_mapperWrite (c : DecodeCtx) {a : CpuAddr} (h : 0x8000 ≤ a.toNat) (d : Byte) (bytes : List Byte) :
    decode c { word := writeWord a d, bytes := bytes } = .ok (decodeMapperWrite c a d) := by
  rw [decode_writeWord, decodeBus_eq]
  simp only
  rw [if_neg (by omega), if_neg (by omega), if_neg (by omega), if_pos trivial, if_pos h]

theorem decode_mapW (c : DecodeCtx) {a : CpuAddr} (h : 0x4020 ≤ a.toNat) (h' : a.toNat < 0x8000) (d : Byte) (bytes : List Byte) :
    decode c { word := writeWord a d, bytes := bytes } = .ok (.mapW a d) := by
  rw [decode_writeWord, decodeBus_eq]
  simp only
  rw [if_neg (by omega), if_neg (by omega), if_neg (by omega), if_pos trivial, if_neg (by omega)]

theorem decode_mapR (c : DecodeCtx) {a : CpuAddr} (h : 0x4020 ≤ a.toNat) (bytes : List Byte) :
    decode c { word := readWord a, bytes := bytes } = .ok (.mapR a) := by
  rw [decode_readWord, decodeBus_eq]
  simp only
  rw [if_neg (by omega), if_neg (by simp), if_neg (by omega), if_neg (by simp)]

/-- The DMA trigger takes the first 256 answers (40 R180). -/
theorem decode_dmaWord (c : DecodeCtx) (page : Byte) (odd : Bool) (bytes : List Byte) :
    decode c { word := busWord { odd := odd, rw := true, addr := 0x4014, data := page }, bytes := bytes } =
      .ok (.oamdmaW page odd (bytes.take 256)) := by
  rw [decode_busWord, decodeBus_eq]
  rfl

/-- The groups 0xB to 0xE are the character registers (30 R143). -/
theorem decodeVrc2Write_chr {group : BitVec 4} (h : 0xB ≤ group.toNat) (h' : group.toNat ≤ 0xE) (sub : BitVec 2) (d : Byte) :
    decodeVrc2Write group sub d = .v2ChrW group sub d := by
  have hne : ∀ k : BitVec 4, k.toNat < 0xB ∨ 0xE < k.toNat → group ≠ k := by rintro k hk rfl; omega
  unfold decodeVrc2Write
  rw [if_neg (hne _ (by decide)), if_neg (hne _ (by decide)), if_neg (hne _ (by decide)), if_neg (hne _ (by decide))]

/-- Settles O1: one case per instruction, each by the lemma of the address range its word stands in. -/
theorem decodeEncodeRoundTrip : Obligations.DecodeEncodeRoundTrip := by
  intro c i hwf happ
  have regW : ∀ {a : CpuAddr}, 0x2000 ≤ a.toNat ∧ a.toNat < 0x4000 → ∀ d, _ := fun h d => decode_regWrite c h d []
  have regR : ∀ {a : CpuAddr}, 0x2000 ≤ a.toNat ∧ a.toNat < 0x4000 → _ := fun h => decode_regRead c h []
  have vrc2 : ∀ group : BitVec 4, 8 ≤ group.toNat → c.variant ≠ .axrom → ∀ sub d, _ :=
    fun group hg hc sub d => decode_vrc2 c hc group hg sub d []
  cases i with
  | ppuctrlW d => exact regW (a := 0x2000) (by decide) d
  | ppuctrlR => exact regR (a := 0x2000) (by decide)
  | ppumaskW d => exact regW (a := 0x2001) (by decide) d
  | ppumaskR => exact regR (a := 0x2001) (by decide)
  | ppustatusR => exact regR (a := 0x2002) (by decide)
  | ppustatusW d => exact regW (a := 0x2002) (by decide) d
  | oamaddrW d => exact regW (a := 0x2003) (by decide) d
  | oamaddrR => exact regR (a := 0x2003) (by decide)
  | oamdataR => exact regR (a := 0x2004) (by decide)
  | oamdataW d => exact regW (a := 0x2004) (by decide) d
  | ppuscrollW1 d =>
    have hw : c.w = false := by simpa [Instr.applies] using happ
    have h := regW (a := 0x2005) (by decide) d
    rw [hw] at h; exact h
  | ppuscrollW2 d =>
    have hw : c.w = true := happ
    have h := regW (a := 0x2005) (by decide) d
    rw [hw] at h; exact h
  | ppuscrollR => exact regR (a := 0x2005) (by decide)
  | ppuaddrW1 d =>
    have hw : c.w = false := by simpa [Instr.applies] using happ
    have h := regW (a := 0x2006) (by decide) d
    rw [hw] at h; exact h
  | ppuaddrW2 d =>
    have hw : c.w = true := happ
    have h := regW (a := 0x2006) (by decide) d
    rw [hw] at h; exact h
  | ppuaddrR => exact regR (a := 0x2006) (by decide)
  | ppudataR => exact regR (a := 0x2007) (by decide)
  | ppudataW d => exact regW (a := 0x2007) (by decide) d
  | oamdmaW page odd bus =>
    have hlen : bus.length ≤ 256 := by simpa [Instr.wf] using hwf
    have h := decode_dmaWord c page odd bus
    rw [List.take_of_length_le hlen] at h; exact h
  | notClaimed => exact decode_busWord ..
  | axRegW d =>
    have hv : c.variant = .axrom := by simpa [Instr.applies] using happ
    have h := decode_mapperWrite c (a := 0x8000) (by decide) d []
    rw [decodeMapperWrite, hv] at h; exact h
  | v2Prg0W d => exact vrc2 0x8 (by decide) (by simpa [Instr.applies] using happ) 0 d
  | v2MirrorW d => exact vrc2 0x9 (by decide) (by simpa [Instr.applies] using happ) 0 d
  | v2Prg1W d => exact vrc2 0xA (by decide) (by simpa [Instr.applies] using happ) 0 d
  | v2IrqLatchLoW d => exact vrc2 0xF (by decide) (by simpa [Instr.applies] using happ) 0 d
  | v2IrqLatchHiW d => exact vrc2 0xF (by decide) (by simpa [Instr.applies] using happ) 1 d
  | v2IrqCtrlW d => exact vrc2 0xF (by decide) (by simpa [Instr.applies] using happ) 2 d
  | v2IrqAckW => exact vrc2 0xF (by decide) (by simpa [Instr.applies] using happ) 3 0
  | v2ChrW group sub d =>
    obtain ⟨hlo, hhi⟩ : 0xB ≤ group.toNat ∧ group.toNat ≤ 0xE := by simpa [Instr.wf] using hwf
    have h := vrc2 group (by omega) (by simpa [Instr.applies] using happ) sub d
    rw [decodeVrc2Write_chr hlo hhi] at h; exact h
  | mapR a => exact decode_mapR c (by simpa [Instr.wf] using hwf) []
  | mapW a d =>
    obtain ⟨hlo, hhi⟩ : 0x4020 ≤ a.toNat ∧ a.toNat < 0x8000 := by simpa [Instr.wf] using hwf
    exact decode_mapW c hlo hhi d []
  | ppuStep => exact decode_clk c (S := 0x4000000) (by decide) []
  | mapperTick => exact decode_clk c (S := 0x4000001) (by decide) []
  | reset => exact decode_sys c (S := 0x8000000) (by decide) []
  | save => exact decode_sys c (S := 0x8000001) (by decide) []
  | restore bytes => exact decode_sys c (S := 0x8000002) (by decide) bytes

/-! ### What the decoder gives -/

/-- The instruction is one a stimulus can spell in the context. -/
def Instr.fits (c : DecodeCtx) (i : Instr) : Prop := i.wf = true ∧ i.applies c = true

theorem decodeRegRead_fits (c : DecodeCtx) (reg : BitVec 3) : (decodeRegRead reg).fits c := by
  unfold decodeRegRead
  split <;> exact ⟨rfl, rfl⟩

theorem decodeRegWrite_fits (c : DecodeCtx) (reg : BitVec 3) (d : Byte) : (decodeRegWrite c.w reg d).fits c := by
  unfold decodeRegWrite
  split
  case h_6 =>
    split
    · next hw => exact ⟨rfl, hw⟩
    · next hw => exact ⟨rfl, by simpa [Instr.applies] using hw⟩
  case h_7 =>
    split
    · next hw => exact ⟨rfl, hw⟩
    · next hw => exact ⟨rfl, by simpa [Instr.applies] using hw⟩
  all_goals exact ⟨rfl, rfl⟩

theorem chrGroup_range : ∀ group : BitVec 4, 8 ≤ group.toNat → group ≠ 0x8 → group ≠ 0x9 → group ≠ 0xA → group ≠ 0xF →
    0xB ≤ group.toNat ∧ group.toNat ≤ 0xE := by decide

theorem decodeVrc2Write_fits {c : DecodeCtx} (hc : c.variant ≠ .axrom) {group : BitVec 4} (hg : 8 ≤ group.toNat) (sub : BitVec 2)
    (d : Byte) : (decodeVrc2Write group sub d).fits c := by
  have happ : (c.variant != .axrom) = true := by simpa using hc
  unfold decodeVrc2Write
  split
  · exact ⟨rfl, happ⟩
  · split
    · exact ⟨rfl, happ⟩
    · split
      · exact ⟨rfl, happ⟩
      · split
        · split <;> exact ⟨rfl, happ⟩
        · next h8 h9 hA hF => exact ⟨by simpa [Instr.wf] using chrGroup_range group hg h8 h9 hA hF, happ⟩

/-- The group of an address at or above 0x8000 is 8 or more (30 R143). -/
theorem toNat_group (a : CpuAddr) : (a.extractLsb' 12 4).toNat = a.toNat / 0x1000 := by
  have := a.isLt
  simp only [BitVec.extractLsb'_toNat, Nat.shiftRight_eq_div_pow]
  omega

theorem decodeMapperWrite_fits (c : DecodeCtx) {a : CpuAddr} (ha : 0x8000 ≤ a.toNat) (d : Byte) :
    (decodeMapperWrite c a d).fits c := by
  have hg : 8 ≤ (a.extractLsb' 12 4).toNat := by rw [toNat_group]; omega
  unfold decodeMapperWrite
  split
  · next hv => exact ⟨rfl, by simp [Instr.applies, hv]⟩
  · next hv => exact decodeVrc2Write_fits (by rw [hv]; decide) hg _ d
  · next hv => exact decodeVrc2Write_fits (by rw [hv]; decide) hg _ d

theorem decodeBus_fits (c : DecodeCtx) (b : BusFields) (bytes : List Byte) : (decodeBus c b bytes).fits c := by
  rw [decodeBus_eq]
  split
  · split
    · exact decodeRegWrite_fits c _ _
    · exact decodeRegRead_fits c _
  · split
    · exact ⟨decide_eq_true (by rw [List.length_take]; exact Nat.min_le_left ..), rfl⟩
    · split
      · exact ⟨rfl, rfl⟩
      · next hlo =>
        split
        · split
          · next hhi => exact decodeMapperWrite_fits c hhi _
          · next hhi => exact ⟨by simp only [Instr.wf, Bool.and_eq_true, decide_eq_true_eq]; omega, rfl⟩
        · exact ⟨by simp only [Instr.wf, decide_eq_true_eq]; omega, rfl⟩

theorem decodeClk_fits {c : DecodeCtx} {body : BitVec 26} {i : Instr} (h : decodeClk body = .ok i) : i.fits c := by
  unfold decodeClk at h
  split at h
  · cases h
  · split at h <;> (cases h; exact ⟨rfl, rfl⟩)

theorem decodeSys_fits {c : DecodeCtx} {body : BitVec 26} {bytes : List Byte} {i : Instr} (h : decodeSys body bytes = .ok i) :
    i.fits c := by
  unfold decodeSys at h
  split at h
  · cases h
  · split at h
    case h_4 => cases h
    all_goals (cases h; exact ⟨rfl, rfl⟩)

/-- Settles O2: by the kind of the word, then along the decoder of that kind. -/
theorem decodedStimulusIsWellFormed : Obligations.DecodedStimulusIsWellFormed := by
  intro c st i h
  unfold decode at h
  split at h
  · cases h; exact decodeBus_fits c _ _
  · exact decodeClk_fits h
  · exact decodeSys_fits h
  · cases h

/-! ### The reserved words -/

theorem toNat_wordKind (S : BitVec 28) : (wordKind S).toNat = S.toNat / 2 ^ 26 := by
  have := S.isLt
  simp only [wordKind, BitVec.extractLsb'_toNat, Nat.shiftRight_eq_div_pow]
  omega

/-- A field of the body is the field of the word. -/
theorem toNat_extractLsb'_wordBody (S : BitVec 28) {i n : Nat} (h : i + n ≤ 26) :
    ((wordBody S).extractLsb' i n).toNat = S.toNat / 2 ^ i % 2 ^ n := by
  simp only [wordBody, BitVec.extractLsb'_toNat, Nat.shiftRight_eq_div_pow, Nat.pow_zero, Nat.div_one]
  obtain ⟨k, hk⟩ := Nat.exists_eq_add_of_le h
  rw [hk, Nat.add_assoc, Nat.pow_add, Nat.mod_mul_right_div_self, Nat.pow_add, Nat.mod_mul_right_mod]

theorem decodeClk_error_iff (body : BitVec 26) : (∃ why, decodeClk body = .error why) ↔ body.extractLsb' 1 25 ≠ 0 := by
  unfold decodeClk
  split
  · next h => exact ⟨fun _ => h, fun _ => ⟨_, rfl⟩⟩
  · next h => exact ⟨by split <;> simp, fun hne => absurd hne h⟩

theorem decodeSys_error_iff (body : BitVec 26) (bytes : List Byte) :
    (∃ why, decodeSys body bytes = .error why) ↔ (body.extractLsb' 0 2).toNat = 3 ∨ body.extractLsb' 2 24 ≠ 0 := by
  have hlt := (body.extractLsb' 0 2).isLt
  unfold decodeSys
  split
  · next h => exact ⟨fun _ => .inr h, fun _ => ⟨_, rfl⟩⟩
  · next h =>
    split
    case h_4 h0 h1 h2 =>
      simp only [imp_false] at h0 h1 h2
      exact ⟨fun _ => .inl (by omega), fun _ => ⟨_, rfl⟩⟩
    all_goals (next hk => rw [hk]; exact ⟨by simp, fun h' => by simp at h'; exact absurd h' h⟩)

/-- Settles O4: by the kind of the word. -/
theorem reservedWordsAreInvalid : Obligations.ReservedWordsAreInvalid := by
  intro c S bytes
  have hk := toNat_wordKind S
  have hlt := S.isLt
  rcases (by omega : S.toNat / 2 ^ 26 = 0 ∨ S.toNat / 2 ^ 26 = 1 ∨ S.toNat / 2 ^ 26 = 2 ∨ S.toNat / 2 ^ 26 = 3) with h | h | h | h
    <;> rw [h] at hk ⊢
  · rw [decode_bus c hk]; simp
  · rw [decode_clk c hk, decodeClk_error_iff, BitVec.toNat_ne, toNat_extractLsb'_wordBody S (by decide)]; simp
  · rw [decode_sys c hk, decodeSys_error_iff, BitVec.toNat_ne, toNat_extractLsb'_wordBody S (by decide), toNat_extractLsb'_wordBody S (by decide)]
    simp
  · rw [decode_reserved c hk]; simp

/-- Settles O5: each word by evaluation of the decoder. -/
theorem wordsOfTheSpecDecode : Obligations.WordsOfTheSpecDecode := by
  refine ⟨fun c => ?_, fun c => ?_, fun c => ?_, fun c => ?_, fun c => ?_, ?_, ?_, ?_, fun c => ?_, fun c => ?_⟩
  · exact decode_bus c (by decide) []
  · exact decode_bus c (by decide) []
  · exact decode_bus c (by decide) []
  · exact decode_bus c (by decide) []
  · exact decode_bus c (by decide) []
  · rfl
  · rfl
  · rfl
  · exact decode_clk c (by decide) []
  · exact decode_sys c (by decide) []

end Sys2Proof
end

section
/-! The decoder against the opcode table (spec/30 R154): the table sees only the masked bits of a word, so a lookup is moved
to the few words that carry those bits alone. -/

namespace Sys2Proof

/-! ### Masks -/

theorem eq_append_three {h m l : Nat} (x : BitVec (h + m + l)) :
    x = x.extractLsb' (m + l) h ++ x.extractLsb' l m ++ x.extractLsb' 0 l := by
  apply BitVec.eq_of_getLsbD_eq
  intro i hi
  simp only [BitVec.getLsbD_append, BitVec.getLsbD_extractLsb']
  by_cases h1 : i < l
  · simp [h1]
  · by_cases h2 : i - l < m
    · simp [h1, h2, show l + (i - l) = i by omega]
    · simp [h1, h2, show i - l - m < h by omega, show m + l + (i - l - m) = i by omega]

/-- A mask of the top `h` and the low `l` bits. -/
theorem and_outer {h m l : Nat} (x : BitVec (h + m + l)) :
    x &&& (BitVec.allOnes h ++ 0#m ++ BitVec.allOnes l) = x.extractLsb' (m + l) h ++ 0#m ++ x.extractLsb' 0 l := by
  conv => lhs; rw [eq_append_three x]
  rw [BitVec.and_append, BitVec.and_append, BitVec.and_allOnes, BitVec.and_zero, BitVec.and_allOnes]

/-- A mask of the top `h` bits. -/
theorem and_top {h l : Nat} (x : BitVec (h + l)) : x &&& (BitVec.allOnes h ++ 0#l) = x.extractLsb' l h ++ 0#l := by
  have hx : x = x.extractLsb' l h ++ x.extractLsb' 0 l := by
    rw [BitVec.extractLsb'_append_extractLsb'_eq_extractLsb' (by omega), BitVec.extractLsb'_eq_self]
  conv => lhs; rw [hx]
  rw [BitVec.and_append, BitVec.and_allOnes, BitVec.and_zero]

theorem and_region (a : CpuAddr) : a &&& 0xE000 = a.extractLsb' 13 3 ++ 0#13 := and_top (h := 3) (l := 13) a

theorem and_ioPage (a : CpuAddr) : a &&& 0xFFE0 = a.extractLsb' 5 11 ++ 0#5 := and_top (h := 11) (l := 5) a

theorem and_regWindow (a : CpuAddr) : a &&& 0xE007 = a.extractLsb' 13 3 ++ 0#10 ++ a.extractLsb' 0 3 :=
  and_outer (h := 3) (m := 10) (l := 3) a

theorem and_vrc2Reg (a : CpuAddr) : a &&& 0xF003 = a.extractLsb' 12 4 ++ 0#10 ++ a.extractLsb' 0 2 :=
  and_outer (h := 4) (m := 10) (l := 2) a

/-! ### Lookups -/

/-- The row applies in the context and matches the word. -/
def TableRow.takes (c : DecodeCtx) (S : BitVec 28) (r : TableRow) : Bool :=
  decide (c.variant ∈ r.variants) && decide (c.w ∈ r.whenW) && (S &&& r.mask == r.value)

/-- A word whose bits under `M` are `V` does not contradict the row there. -/
def TableRow.allows (M V : BitVec 28) (r : TableRow) : Bool := r.value &&& M == V &&& r.mask

theorem tableLookup_eq (c : DecodeCtx) (S : BitVec 28) :
    tableLookup c S = (opcodeTable.find? (TableRow.takes c S)).map (·.mnemonic) := rfl

theorem TableRow.allows_of_takes {c : DecodeCtx} {S M V : BitVec 28} (hV : S &&& M = V) {r : TableRow} (h : r.takes c S = true) :
    r.allows M V = true := by
  simp only [TableRow.takes, Bool.and_eq_true, beq_iff_eq] at h
  rw [TableRow.allows, beq_iff_eq, ← h.2, ← hV, BitVec.and_assoc, BitVec.and_assoc, BitVec.and_comm r.mask]

/-- Two tests that agree on a list find the same element of it. -/
theorem find?_congr_of_mem {α : Type} {f g : α → Bool} {l : List α} (h : ∀ x ∈ l, f x = g x) : l.find? f = l.find? g := by
  induction l with
  | nil => rfl
  | cons x l ih =>
    rw [List.find?_cons, List.find?_cons, h x List.mem_cons_self, ih fun y hy => h y (List.mem_cons_of_mem _ hy)]

/-- The rows that contradict the known bits may be left out. -/
theorem tableLookup_filter (c : DecodeCtx) {S M V : BitVec 28} (hV : S &&& M = V) :
    tableLookup c S = ((opcodeTable.filter (TableRow.allows M V)).find? (TableRow.takes c S)).map (·.mnemonic) := by
  rw [tableLookup_eq, List.find?_filter]
  congr 1
  refine find?_congr_of_mem fun r _ => ?_
  rw [Bool.eq_iff_iff, decide_eq_true_eq]
  exact ⟨fun h => ⟨TableRow.allows_of_takes hV h, h⟩, fun h => h.2⟩

/-- Where the known bits are all that the rows left ask for, the other bits do not count. -/
theorem tableLookup_known (c : DecodeCtx) {S M V : BitVec 28} (hV : S &&& M = V)
    (h : ∀ r ∈ opcodeTable, r.allows M V = true → r.mask &&& M = r.mask) : tableLookup c S = tableLookup c V := by
  have hVV : V &&& M = V := by rw [← hV, BitVec.and_assoc, BitVec.and_self]
  rw [tableLookup_filter c hV, tableLookup_filter c hVV]
  congr 1
  refine find?_congr_of_mem fun r hr => ?_
  obtain ⟨hmem, hallows⟩ := List.mem_filter.1 hr
  have hm : S &&& r.mask = V &&& r.mask := by
    rw [← h r hmem hallows, BitVec.and_comm r.mask M, ← BitVec.and_assoc, ← BitVec.and_assoc, hV, hVV]
  rw [TableRow.takes, TableRow.takes, hm]

/-! ### BUS words -/

theorem getLsbD_ge_26_of_bus {S : BitVec 28} (h : (wordKind S).toNat = 0) {i : Nat} (hi : 26 ≤ i) : S.getLsbD i = false := by
  by_cases hlt : i < 28
  · have h0 : wordKind S = 0 := BitVec.eq_of_toNat_eq h
    have := congrArg (·.getLsbD (i - 26)) h0
    simpa [wordKind, show i - 26 < 2 by omega, show 26 + (i - 26) = i by omega] using this
  · exact BitVec.getLsbD_of_ge _ _ (by omega)

/-- A BUS word is the word of its fields. -/
theorem busWord_busFields {S : BitVec 28} (h : (wordKind S).toNat = 0) : busWord (busFields (wordBody S)) = S := by
  apply BitVec.eq_of_getLsbD_eq
  intro i hi
  rw [getLsbD_busWord]
  simp only [busFields, wordBody, BitVec.getLsbD_extractLsb']
  split
  · next h8 => simp [h8, show i < 26 by omega]
  · split
    · next h8 h24 => simp [show i - 8 < 16 by omega, show 8 + (i - 8) = i by omega, show i < 26 by omega]
    · split
      · next h24 => simp [h24]
      · split
        · next h25 => simp [h25]
        · exact (getLsbD_ge_26_of_bus h (by omega)).symm

/-- The mask of the kind, of `rw` if `m` says so, and of the address bits `am`. -/
def busMask (m : Bool) (am : CpuAddr) : BitVec 28 := 0xC000000 ||| busWord { odd := false, rw := m, addr := am, data := 0 }

theorem busWord_and_busMask (b : BusFields) (m : Bool) (am : CpuAddr) :
    busWord b &&& busMask m am = busWord { odd := false, rw := b.rw && m, addr := b.addr &&& am, data := 0 } := by
  have hk : ∀ i, i < 28 → (0xC000000 : BitVec 28).getLsbD i = decide (26 ≤ i) := by decide
  apply BitVec.eq_of_getLsbD_eq
  intro i hi
  simp only [busMask, BitVec.getLsbD_and, BitVec.getLsbD_or, hk i hi, getLsbD_busWord]
  rcases (by omega : i < 8 ∨ (8 ≤ i ∧ i < 24) ∨ i = 24 ∨ i = 25 ∨ 26 ≤ i) with h | ⟨h, h'⟩ | h | h | h
  · simp [h, show ¬ 26 ≤ i by omega]
  · simp [h', show ¬ i < 8 by omega, show ¬ 26 ≤ i by omega]
  · simp [h]
  · simp [h]
  · simp [show ¬ i < 8 by omega, show ¬ i < 24 by omega, show i ≠ 24 by omega, show i ≠ 25 by omega]

/-- A BUS row that asks for address bits and perhaps for `rw`. -/
theorem busWord_takes (b : BusFields) (m : Bool) (am : CpuAddr) (rw : Bool) (a : CpuAddr) :
    (busWord b &&& busMask m am == busWord { odd := false, rw := rw, addr := a, data := 0 }) =
      ((b.rw && m) == rw && b.addr &&& am == a) := by
  rw [busWord_and_busMask, Bool.eq_iff_iff]
  simp only [beq_iff_eq, Bool.and_eq_true]
  constructor
  · intro h
    have h := congrArg (fun S => busFields (wordBody S)) h
    simpa only [busFields_busWord, BusFields.mk.injEq, true_and, and_true] using h
  · rintro ⟨h1, h2⟩
    rw [h1, h2]

/-- A row that applies in every context: it asks for `rw` if `m` says so, and for the address bits `am`. -/
def TableRow.bus (mnemonic : String) (rw : Bool) (a : CpuAddr) (m : Bool) (am : CpuAddr) : TableRow where
  mnemonic := mnemonic
  variants := [.axrom, .vrc2a, .vrc2b]
  whenW := [false, true]
  value := busWord { odd := false, rw := rw, addr := a, data := 0 }
  mask := busMask m am

theorem TableRow.takes_bus (c : DecodeCtx) (b : BusFields) (mnemonic : String) (rw : Bool) (a : CpuAddr) (m : Bool) (am : CpuAddr) :
    (TableRow.bus mnemonic rw a m am).takes c (busWord b) = ((b.rw && m) == rw && b.addr &&& am == a) := by
  have hv : c.variant ∈ [Variant.axrom, .vrc2a, .vrc2b] := by cases c.variant <;> decide
  have hw : c.w ∈ [false, true] := by cases c.w <;> decide
  rw [TableRow.takes, TableRow.bus, busWord_takes, Bool.eq_iff_iff]
  simp only [Bool.and_eq_true, decide_eq_true_eq, hv, hw, true_and]

/-! ### The regions of the address space -/

/-- The bits that name a region of 8 KB: the direction and `addr[15:13]`. -/
theorem busWord_region (b : BusFields) {k : Nat} (hk : k < 8) (h : b.addr.toNat / 0x2000 = k) :
    busWord b &&& busMask true 0xE000 = busWord { odd := false, rw := b.rw, addr := BitVec.ofNat 3 k ++ 0#13, data := 0 } := by
  rw [busWord_and_busMask, and_region, (topBits_eq _ k hk).2 h,
    Bool.and_true]

/-- The last rows, which ask for the direction alone. -/
def mapRow (rw : Bool) : TableRow := TableRow.bus (if rw then "MAP_W" else "MAP_R") rw 0 true 0

theorem mapRow_takes (c : DecodeCtx) (b : BusFields) : (mapRow b.rw).takes c (busWord b) = true := by
  simp [mapRow, TableRow.takes_bus]

theorem tableLookup_low (c : DecodeCtx) {b : BusFields} (h : b.addr.toNat < 0x2000) :
    tableLookup c (busWord b) = some "NOT_CLAIMED" := by
  have hrows : ∀ rw, opcodeTable.filter (TableRow.allows (busMask true 0xE000)
      (busWord { odd := false, rw := rw, addr := BitVec.ofNat 3 0 ++ 0#13, data := 0 })) =
        [TableRow.bus "NOT_CLAIMED" false 0 false 0xE000, mapRow rw] := by decide
  have hz : b.addr &&& 0xE000 = 0 := by rw [and_region, (topBits_eq _ 0 (by decide)).2 (by omega)]; rfl
  rw [tableLookup_filter c (busWord_region b (k := 0) (by decide) (by omega)), hrows, List.find?_cons_of_pos]
  · rfl
  · rw [TableRow.takes_bus, hz]; simp

/-- The row of the DMA trigger. -/
def dmaRow : TableRow := TableRow.bus "OAMDMA_W" true 0x4014 true 0xFFFF

theorem dmaRow_takes (c : DecodeCtx) {b : BusFields} (hrw : b.rw = true) :
    dmaRow.takes c (busWord b) = decide (b.addr.toNat = 0x4014) := by
  have hall : b.addr &&& 0xFFFF = b.addr := BitVec.and_allOnes
  rw [dmaRow, TableRow.takes_bus, hrw, hall, Bool.eq_iff_iff, decide_eq_true_eq]
  simp [← BitVec.toNat_inj]

/-- The row of the unclaimed I/O registers. -/
def ioRow : TableRow := TableRow.bus "NOT_CLAIMED" false 0x4000 false 0xFFE0

theorem ioRow_takes (c : DecodeCtx) {b : BusFields} (h : 0x4000 ≤ b.addr.toNat) :
    ioRow.takes c (busWord b) = decide (b.addr.toNat < 0x4020) := by
  have hmid := midBits_eq b.addr
  have heq : b.addr.extractLsb' 5 11 ++ 0#5 = 0x200#11 ++ 0#5 ↔ b.addr.toNat < 0x4020 := by
    rw [BitVec.append_left_inj, hmid]; omega
  rw [ioRow, TableRow.takes_bus, and_ioPage, Bool.eq_iff_iff, decide_eq_true_eq, ← heq]
  simp

theorem tableLookup_io (c : DecodeCtx) {b : BusFields} (h : b.addr.toNat / 0x2000 = 2) :
    tableLookup c (busWord b) = some (if b.rw = true ∧ b.addr.toNat = 0x4014 then "OAMDMA_W"
      else if b.addr.toNat < 0x4020 then "NOT_CLAIMED" else if b.rw then "MAP_W" else "MAP_R") := by
  have hrows : ∀ rw, opcodeTable.filter (TableRow.allows (busMask true 0xE000)
      (busWord { odd := false, rw := rw, addr := BitVec.ofNat 3 2 ++ 0#13, data := 0 })) =
        (if rw then [dmaRow] else []) ++ [ioRow, mapRow rw] := by decide
  rw [tableLookup_filter c (busWord_region b (by decide) h), hrows]
  have hio := ioRow_takes c (b := b) (by omega)
  have hmap := mapRow_takes c b
  cases hrw : b.rw <;> rw [hrw] at hmap
  case false =>
    by_cases hlt : b.addr.toNat < 0x4020 <;> simp [hio, hlt, hmap] <;> rfl
  case true =>
    have hdma := dmaRow_takes c hrw
    by_cases h4014 : b.addr.toNat = 0x4014
    · simp [hdma, h4014]; rfl
    · by_cases hlt : b.addr.toNat < 0x4020 <;> simp [hdma, h4014, hio, hlt, hmap] <;> rfl

theorem tableLookup_ram (c : DecodeCtx) {b : BusFields} (h : b.addr.toNat / 0x2000 = 3) :
    tableLookup c (busWord b) = some (if b.rw then "MAP_W" else "MAP_R") := by
  have hrows : ∀ rw, opcodeTable.filter (TableRow.allows (busMask true 0xE000)
      (busWord { odd := false, rw := rw, addr := BitVec.ofNat 3 3 ++ 0#13, data := 0 })) = [mapRow rw] := by decide
  rw [tableLookup_filter c (busWord_region b (by decide) h), hrows, List.find?_cons_of_pos (mapRow_takes c b)]
  rfl

theorem tableLookup_rom_read (c : DecodeCtx) {b : BusFields} (hrw : b.rw = false) (h : 0x8000 ≤ b.addr.toNat) :
    tableLookup c (busWord b) = some "MAP_R" := by
  have hrows : ∀ k : Fin 4, opcodeTable.filter (TableRow.allows (busMask true 0xE000)
      (busWord { odd := false, rw := false, addr := BitVec.ofNat 3 (4 + k) ++ 0#13, data := 0 })) = [mapRow false] := by decide
  have hk : b.addr.toNat / 0x2000 - 4 < 4 := by have := b.addr.isLt; omega
  have hreg := busWord_region b (k := 4 + (b.addr.toNat / 0x2000 - 4)) (by omega) (by omega)
  have hmap := mapRow_takes c b
  rw [hrw] at hreg hmap
  rw [tableLookup_filter c hreg, hrows ⟨_, hk⟩, List.find?_cons_of_pos hmap]
  rfl

/-! ### Registers: words that carry only the bits the rows ask for -/

/-- The bits a PPU register is chosen by: the direction, `addr[15:13]` and `addr[2:0]`. -/
def regWord (rw : Bool) (reg : BitVec 3) : BitVec 28 :=
  busWord { odd := false, rw := rw, addr := 1#3 ++ 0#10 ++ reg, data := 0 }

theorem tableLookup_regWord (c : DecodeCtx) : ∀ (rw : Bool) (reg : BitVec 3),
    tableLookup c (regWord rw reg) = some (if rw then decodeRegWrite c.w reg 0 else decodeRegRead reg).mnemonic := by
  obtain ⟨variant, mode, w⟩ := c
  show ∀ rw reg, tableLookup ⟨variant, .fixedF003, w⟩ (regWord rw reg) = some (if rw then decodeRegWrite w reg 0 else _).mnemonic
  cases variant <;> cases w <;> decide

theorem decodeRegWrite_mnemonic (w : Bool) (reg : BitVec 3) (d : Byte) :
    (decodeRegWrite w reg d).mnemonic = (decodeRegWrite w reg 0).mnemonic := by
  unfold decodeRegWrite
  split <;> (try split) <;> rfl

theorem tableLookup_regWindow (c : DecodeCtx) {b : BusFields} (h : b.addr.toNat / 0x2000 = 1) :
    tableLookup c (busWord b) = some (if b.rw then decodeRegWrite c.w (b.addr.extractLsb' 0 3) b.data
      else decodeRegRead (b.addr.extractLsb' 0 3)).mnemonic := by
  have hrows : ∀ (rw : Bool) (reg : BitVec 3), ∀ r ∈ opcodeTable, r.allows (busMask true 0xE007) (regWord rw reg) = true →
      r.mask &&& busMask true 0xE007 = r.mask := by decide
  have hV : busWord b &&& busMask true 0xE007 = regWord b.rw (b.addr.extractLsb' 0 3) := by
    rw [busWord_and_busMask, and_regWindow, (topBits_eq _ 1 (by decide)).2 h, Bool.and_true]; rfl
  rw [tableLookup_known c hV (hrows _ _), tableLookup_regWord]
  cases b.rw
  · rfl
  · exact congrArg some (decodeRegWrite_mnemonic ..).symm

/-- The bits a VRC2 register is chosen by under fixed_F003: `addr[15:12]` and `addr[1:0]`. -/
def vrc2Word (group : BitVec 4) (sub : BitVec 2) : BitVec 28 :=
  busWord { odd := false, rw := true, addr := group ++ 0#10 ++ sub, data := 0 }

theorem vrc2Word_fields : ∀ (group : BitVec 4) (sub : BitVec 2),
    (group ++ 0#10 ++ sub : CpuAddr).extractLsb' 12 4 = group ∧ (group ++ 0#10 ++ sub : CpuAddr).extractLsb' 0 2 = sub := by
  decide

/-- Under fixed_F003 a mapper register is read off `addr[15:12]` and `addr[1:0]` (30 R143, R144). -/
theorem decodeMapperWrite_known {c : DecodeCtx} (hc : c.addrMode = .fixedF003) {a a' : CpuAddr}
    (hg : a'.extractLsb' 12 4 = a.extractLsb' 12 4) (hs : a'.extractLsb' 0 2 = a.extractLsb' 0 2) (d : Byte) :
    decodeMapperWrite c a' d = decodeMapperWrite c a d := by
  simp only [decodeMapperWrite, vrc2Sub, vrc2Raw, hc, hg, hs]

theorem decodeVrc2Write_mnemonic (group : BitVec 4) (sub : BitVec 2) (d : Byte) :
    (decodeVrc2Write group sub d).mnemonic = (decodeVrc2Write group sub 0).mnemonic := by
  unfold decodeVrc2Write
  split
  · rfl
  · split
    · rfl
    · split
      · rfl
      · split
        · split <;> rfl
        · rfl

theorem decodeMapperWrite_mnemonic (c : DecodeCtx) (a : CpuAddr) (d : Byte) :
    (decodeMapperWrite c a d).mnemonic = (decodeMapperWrite c a 0).mnemonic := by
  unfold decodeMapperWrite
  split
  · rfl
  · exact decodeVrc2Write_mnemonic ..
  · exact decodeVrc2Write_mnemonic ..

theorem tableLookup_vrc2Word {c : DecodeCtx} (hc : c.addrMode = .fixedF003) : ∀ (group : BitVec 4) (sub : BitVec 2), 8 ≤ group.toNat →
    tableLookup c (vrc2Word group sub) = some (decodeMapperWrite c (group ++ 0#10 ++ sub) 0).mnemonic := by
  obtain ⟨variant, mode, w⟩ := c
  obtain rfl : mode = .fixedF003 := hc
  cases variant <;> cases w <;> decide

theorem tableLookup_mapperWrite {c : DecodeCtx} (hc : c.addrMode = .fixedF003) {b : BusFields} (hrw : b.rw = true)
    (h : 0x8000 ≤ b.addr.toNat) : tableLookup c (busWord b) = some (decodeMapperWrite c b.addr b.data).mnemonic := by
  have hrows : ∀ (group : BitVec 4) (sub : BitVec 2), 8 ≤ group.toNat → ∀ r ∈ opcodeTable,
      r.allows (busMask true 0xF003) (vrc2Word group sub) = true → r.mask &&& busMask true 0xF003 = r.mask := by decide
  have hg : 8 ≤ (b.addr.extractLsb' 12 4).toNat := by rw [toNat_group]; omega
  have hV : busWord b &&& busMask true 0xF003 = vrc2Word (b.addr.extractLsb' 12 4) (b.addr.extractLsb' 0 2) := by
    rw [busWord_and_busMask, and_vrc2Reg, hrw]; rfl
  rw [tableLookup_known c hV (hrows _ _ hg), tableLookup_vrc2Word hc _ _ hg, decodeMapperWrite_mnemonic c b.addr b.data]
  obtain ⟨hgroup, hsub⟩ := vrc2Word_fields (b.addr.extractLsb' 12 4) (b.addr.extractLsb' 0 2)
  rw [decodeMapperWrite_known hc hgroup hsub]

/-- On a BUS word the table gives the row of the decoder's instruction. -/
theorem tableLookup_busWord {c : DecodeCtx} (hc : c.addrMode = .fixedF003) (b : BusFields) (bytes : List Byte) :
    tableLookup c (busWord b) = some (decodeBus c b bytes).mnemonic := by
  have hlt := b.addr.isLt
  rcases (by omega : b.addr.toNat / 0x2000 = 0 ∨ b.addr.toNat / 0x2000 = 1 ∨ b.addr.toNat / 0x2000 = 2 ∨
    b.addr.toNat / 0x2000 = 3 ∨ 0x8000 ≤ b.addr.toNat) with h | h | h | h | h
  · rw [decodeBus_eq, if_neg (by omega), if_neg (by omega), if_pos (by omega), tableLookup_low c (by omega)]; rfl
  · rw [decodeBus_eq, if_pos (by omega), tableLookup_regWindow c h]
  · rw [decodeBus_eq, if_neg (by omega), if_neg (c := 0x8000 ≤ b.addr.toNat) (by omega), tableLookup_io c h]
    split
    · rfl
    · split
      · rfl
      · split <;> rfl
  · rw [decodeBus_eq, if_neg (by omega), if_neg (by omega), if_neg (by omega), if_neg (c := 0x8000 ≤ b.addr.toNat) (by omega),
      tableLookup_ram c h]
    split <;> rfl
  · rw [decodeBus_eq, if_neg (by omega), if_neg (by omega), if_neg (by omega), if_pos h]
    cases hrw : b.rw
    · rw [tableLookup_rom_read c hrw h]; rfl
    · rw [tableLookup_mapperWrite hc hrw h]; rfl

/-! ### The other kinds -/

theorem and_kind (S : BitVec 28) : S &&& 0xC000000 = wordKind S ++ 0#26 := and_top (h := 2) (l := 26) S

theorem tableLookup_kind (c : DecodeCtx) {S : BitVec 28} {k : BitVec 2} (h : (wordKind S).toNat = k.toNat) :
    tableLookup c S = ((opcodeTable.filter (TableRow.allows 0xC000000 (k ++ 0#26))).find? (TableRow.takes c S)).map (·.mnemonic) :=
  tableLookup_filter c (by rw [and_kind, BitVec.eq_of_toNat_eq h])

/-- A row of one word. -/
def TableRow.word (mnemonic : String) (value : BitVec 28) : TableRow :=
  { mnemonic := mnemonic, variants := [.axrom, .vrc2a, .vrc2b], whenW := [false, true], value := value, mask := 0xFFFFFFF }

theorem TableRow.takes_word (c : DecodeCtx) (S : BitVec 28) (mnemonic : String) (value : BitVec 28) :
    (TableRow.word mnemonic value).takes c S = decide (S.toNat = value.toNat) := by
  have hv : c.variant ∈ [Variant.axrom, .vrc2a, .vrc2b] := by cases c.variant <;> decide
  have hw : c.w ∈ [false, true] := by cases c.w <;> decide
  have hm : S &&& 0xFFFFFFF = S := BitVec.and_allOnes
  rw [TableRow.takes, TableRow.word, hm, Bool.eq_iff_iff]
  simp only [Bool.and_eq_true, decide_eq_true_eq, hv, hw, true_and, beq_iff_eq, BitVec.toNat_inj]

/-- The mnemonic of what a decoder gives, none for a refusal. -/
def mnemonicOf : Except InvalidWord Instr → Option String
  | .ok i => some i.mnemonic
  | .error _ => none

/-- `decodeClk` by number. -/
theorem decodeClk_wordBody (S : BitVec 28) :
    decodeClk (wordBody S) =
      if S.toNat / 2 % 2 ^ 25 ≠ 0 then .error .clkBits else if S.toNat % 2 = 1 then .ok .mapperTick else .ok .ppuStep := by
  have hbit : (wordBody S).getLsbD 0 = decide (S.toNat % 2 = 1) := by
    simp [wordBody, BitVec.getLsbD, Nat.testBit_zero]
  unfold decodeClk
  simp only [BitVec.toNat_ne, toNat_extractLsb'_wordBody S (i := 1) (n := 25) (by decide), hbit, decide_eq_true_eq]
  rfl

theorem tableLookup_clk (c : DecodeCtx) {S : BitVec 28} (h : (wordKind S).toNat = 1) :
    mnemonicOf (decodeClk (wordBody S)) = tableLookup c S := by
  have hrows : opcodeTable.filter (TableRow.allows 0xC000000 (1#2 ++ 0#26)) =
      [TableRow.word "PPU_STEP" 0x4000000, TableRow.word "MAPPER_TICK" 0x4000001] := by decide
  rw [tableLookup_kind c (k := 1#2) h, hrows, decodeClk_wordBody]
  simp only [List.find?_cons, List.find?_nil, TableRow.takes_word, BitVec.reduceToNat]
  rw [toNat_wordKind] at h
  split
  · next hbits => rw [decide_eq_false (by omega), decide_eq_false (by omega)]; rfl
  · split
    · rw [decide_eq_false (by omega), decide_eq_true (by omega)]; rfl
    · rw [decide_eq_true (by omega)]; rfl

theorem tableLookup_sys (c : DecodeCtx) {S : BitVec 28} (h : (wordKind S).toNat = 2) (bytes : List Byte) :
    mnemonicOf (decodeSys (wordBody S) bytes) = tableLookup c S := by
  have hrows : opcodeTable.filter (TableRow.allows 0xC000000 (2#2 ++ 0#26)) =
      [TableRow.word "RESET" 0x8000000, TableRow.word "SAVE" 0x8000001, TableRow.word "RESTORE" 0x8000002] := by decide
  have hcode : ((wordBody S).extractLsb' 0 2).toNat = S.toNat % 4 :=
    (toNat_extractLsb'_wordBody S (by decide)).trans (congrArg (· % 4) (Nat.div_one _))
  have hbits : (wordBody S).extractLsb' 2 24 ≠ 0 ↔ S.toNat / 4 % 2 ^ 24 ≠ 0 := by
    rw [BitVec.toNat_ne, toNat_extractLsb'_wordBody S (by decide)]; rfl
  rw [tableLookup_kind c (k := 2#2) h, hrows]
  simp only [List.find?_cons, List.find?_nil, TableRow.takes_word, BitVec.reduceToNat]
  rw [toNat_wordKind] at h
  unfold decodeSys
  simp only [hbits, hcode]
  split
  · rw [decide_eq_false (by omega), decide_eq_false (by omega), decide_eq_false (by omega)]; rfl
  · split
    · rw [decide_eq_true (by omega)]; rfl
    · rw [decide_eq_false (by omega), decide_eq_true (by omega)]; rfl
    · rw [decide_eq_false (by omega), decide_eq_false (by omega), decide_eq_true (by omega)]; rfl
    · next h0 h1 h2 =>
      simp only [imp_false] at h0 h1 h2
      rw [decide_eq_false (by omega), decide_eq_false (by omega), decide_eq_false (by omega)]; rfl

theorem tableLookup_reserved (c : DecodeCtx) {S : BitVec 28} (h : (wordKind S).toNat = 3) : tableLookup c S = none := by
  have hrows : opcodeTable.filter (TableRow.allows 0xC000000 (3#2 ++ 0#26)) = [] := by decide
  rw [tableLookup_kind c (k := 3#2) h, hrows]
  rfl

/-- Settles O3: by the kind of the word; a BUS word is the word of its fields. -/
theorem decodeFollowsTheOpcodeTable : Obligations.DecodeFollowsTheOpcodeTable := by
  intro c st hc
  show mnemonicOf (decode c { word := st.word, bytes := st.bytes }) = _
  have hlt := (wordKind st.word).isLt
  rcases (by omega : (wordKind st.word).toNat = 0 ∨ (wordKind st.word).toNat = 1 ∨ (wordKind st.word).toNat = 2 ∨
    (wordKind st.word).toNat = 3) with h | h | h | h
  · rw [decode_bus c h]
    conv => rhs; rw [← busWord_busFields h, tableLookup_busWord hc _ st.bytes]
    rfl
  · rw [decode_clk c h, tableLookup_clk c h]
  · rw [decode_sys c h, tableLookup_sys c h]
  · rw [decode_reserved c h, tableLookup_reserved c h]; rfl

end Sys2Proof
end

section
/-! PPU_STEP (spec/41): its events, and that it commutes with MAPPER_TICK. -/

namespace Sys2Proof.Machine

theorem exec_ppuStep (s : State) : exec .ppuStep s = .next (ppuStep s) := rfl

/-! ### The position arrived at -/

/-- The actions of a step run at the position it ends at. -/
theorem ppuStep_eq_positionActions (s : State) :
    ppuStep s = positionActions (ppuStep s).ppu.scanline.toNat (ppuStep s).ppu.cycle.toNat s.arrived := by
  obtain ⟨hl, hc, -⟩ := positionActions_position s.arrived.ppu.scanline.toNat s.arrived.ppu.cycle.toNat s.arrived
  rw [← ppuStep_eq] at hl hc
  rw [hl, hc, ← ppuStep_eq]

theorem State.arrivesAt.ppuStep {s : State} {l c : Nat} (h : s.arrivesAt l c) :
    (ppuStep s).ppu.scanline.toNat = l ∧ (ppuStep s).ppu.cycle.toNat = c := by
  obtain ⟨⟨hl, hc, hle⟩, hs⟩ := h
  obtain ⟨h1, h2, -⟩ := ppuStep_position s
  rw [h1, h2, Ppu.advance_inside hs (by omega)]
  refine ⟨hl, ?_⟩
  simp only [BitVec.toNat_add, BitVec.reduceToNat]
  omega

/-- What a pixel depends on is not changed by the countdown and the advance. -/
theorem arrived_ppu (s : State) :
    s.arrived.ppu = { s.ppu with
      scanline := s.arrived.ppu.scanline, cycle := s.arrived.ppu.cycle, f := s.arrived.ppu.f, nmiDelay := s.countedDelay } := by
  have h := congrArg (·.ppu) s.arrived_eq
  exact h

theorem arrived_outputs (s : State) : s.arrived.io.outputs = s.io.outputs ++ s.nmiEvents := by
  have h := congrArg (·.io.outputs) s.arrived_eq
  exact h

/-- The reads of the new position's actions are those of the state before. -/
theorem sameSpace_arrived (s : State) : s.SameSpace s.arrived := by
  rw [s.arrived_eq]
  exact .ofPpu rfl rfl rfl rfl rfl

theorem ppuRead_arrived (s : State) (a : PpuAddr) : ppuRead s.arrived a = ppuRead s a := ppuRead_congr (sameSpace_arrived s) a

theorem arrived_renderingEnabled (s : State) : s.arrived.ppu.renderingEnabled = s.ppu.renderingEnabled := by
  rw [arrived_ppu]; rfl

/-! ### The events -/

/-- The pixel of a position, where there is one (41 R200, 42 R255). -/
def pixelEvents (p : Ppu) (l c : Nat) : List Event :=
  if p.renderingEnabled && (visibleLine l && visibleCycle c) then
    [.pixelWrite (BitVec.ofNat 8 (c - 1)) (BitVec.ofNat 8 l) (pixelIndex p (c - 1)) ((palRead p (pixelIndex p (c - 1))).setWidth 6)]
  else []

theorem positionActions_outputs (l c : Nat) (s : State) :
    (positionActions l c s).io.outputs = s.io.outputs ++ pixelEvents s.ppu l c ++ frameEvents l c := by
  obtain ⟨-, -, -, -, -, -, h⟩ := positionActions_render l c s
  have hframe : (if (l == 241 && c == 1) = true then [Event.framePresent] else []) = frameEvents l c := by
    simp only [frameEvents, Bool.and_eq_true, beq_iff_eq]
  rw [h, hframe]
  congr 1
  unfold pixelEvents
  cases s.ppu.renderingEnabled
  · simp
  · rw [whenDo_true, renderActions_io, Bool.true_and]
    split
    · rw [renderPixel_eq]
    · simp

/-- NmiRaise if it is due, the pixel, FramePresent, in this order (41 R200, 60 R365). -/
theorem ppuStep_outputs (s : State) :
    (ppuStep s).io.outputs = s.io.outputs ++ s.nmiEvents ++
      pixelEvents s.ppu (ppuStep s).ppu.scanline.toNat (ppuStep s).ppu.cycle.toNat ++
      frameEvents (ppuStep s).ppu.scanline.toNat (ppuStep s).ppu.cycle.toNat := by
  have hpix : ∀ l c, pixelEvents s.arrived.ppu l c = pixelEvents s.ppu l c := by intro l c; rw [arrived_ppu]; rfl
  have h := positionActions_outputs (ppuStep s).ppu.scanline.toNat (ppuStep s).ppu.cycle.toNat s.arrived
  rw [← ppuStep_eq_positionActions, arrived_outputs, hpix] at h
  exact h

/-! ### Two blocks that show the same picture -/

/-- Two states whose PictureProcessors are equal and whose PPU address spaces read alike. -/
structure State.Twin (s t : State) : Prop where
  space : s.SameSpace t
  ppu : t.ppu = s.ppu

namespace State.Twin

theorem setPpu {s t : State} (h : s.Twin t) (p : Ppu) : (s.setPpu p).Twin (t.setPpu p) where
  space := { params := h.space.params, mirror := h.space.mirror, chr := h.space.chr, chrRam := h.space.chrRam, nt := rfl, pal := rfl }
  ppu := rfl

theorem emit {s t : State} (h : s.Twin t) (e : Event) : (s.emit e).Twin (t.emit e) :=
  ⟨⟨h.space.params, h.space.mirror, h.space.chr, h.space.chrRam, h.space.nt, h.space.pal⟩, h.ppu⟩

theorem whenDo {s t : State} (h : s.Twin t) {f : State → State} (hf : ∀ {s t : State}, s.Twin t → (f s).Twin (f t)) (c : Bool) :
    (whenDo c f s).Twin (whenDo c f t) := by
  cases c
  · exact h
  · exact hf h

theorem ppuRead {s t : State} (h : s.Twin t) (a : PpuAddr) : ppuRead t a = ppuRead s a := ppuRead_congr h.space a

end State.Twin

theorem twin_renderPixel (l c : Nat) {s t : State} (h : s.Twin t) : (renderPixel l c s).Twin (renderPixel l c t) := by
  unfold renderPixel
  rw [h.ppu]
  exact State.Twin.emit (h.setPpu _) _

theorem twin_shiftAndFetch (c : Nat) {s t : State} (h : s.Twin t) : (shiftAndFetch c s).Twin (shiftAndFetch c t) := by
  rw [shiftAndFetch_eq, shiftAndFetch_eq, h.ppu]
  simp only [h.ppuRead]
  exact h.setPpu _

theorem twin_scroll (g : VramAddr → VramAddr → VramAddr) {s t : State} (h : s.Twin t) : (s.scroll g).Twin (t.scroll g) := by
  unfold State.scroll
  rw [h.ppu]
  exact h.setPpu _

theorem twin_spriteScan {s t : State} (h : s.Twin t) (l : Nat) : spriteScan t l = spriteScan s l := by
  have hentry : ∀ n, spriteEntry t l n = spriteEntry s l n := by
    intro n
    simp only [spriteEntry, fetchSpritePattern, h.ppu, h.ppuRead]
  have hscan : scanEntry t l = scanEntry s l := by
    funext acc n
    simp only [scanEntry, hentry, h.ppu]
  rw [spriteScan, spriteScan, hscan, h.ppu]

theorem twin_spriteAction (l : Nat) {s t : State} (h : s.Twin t) : (spriteAction l s).Twin (spriteAction l t) := by
  unfold spriteAction evaluateSprites
  split
  · simp only [twin_spriteScan h, h.ppu]
    exact h.setPpu _
  · rw [h.ppu]
    exact h.setPpu _

theorem twin_renderActions (l c : Nat) {s t : State} (h : s.Twin t) : (renderActions l c s).Twin (renderActions l c t) := by
  unfold renderActions
  exact ((((((h.whenDo (twin_renderPixel l c) _).whenDo (twin_shiftAndFetch c) _).whenDo (twin_scroll _) _).whenDo
    (twin_scroll _) _).whenDo (twin_scroll _) _).whenDo (twin_scroll _) _).whenDo (twin_spriteAction l) _

theorem twin_setVblank {s t : State} (h : s.Twin t) : (setVblank s).Twin (setVblank t) := by
  unfold setVblank
  rw [h.ppu, h.space.params]
  exact (h.emit _).setPpu _

theorem twin_clearVblank {s t : State} (h : s.Twin t) : (clearVblank s).Twin (clearVblank t) := by
  unfold clearVblank
  rw [h.ppu, h.space.params]
  exact h.setPpu _

theorem twin_positionActions (l c : Nat) {s t : State} (h : s.Twin t) : (positionActions l c s).Twin (positionActions l c t) := by
  unfold positionActions
  rw [h.ppu]
  exact ((h.whenDo (twin_renderActions l c) _).whenDo twin_setVblank _).whenDo twin_clearVblank _

theorem twin_nmiCountdown {s t : State} (h : s.Twin t) : (nmiCountdown s).Twin (nmiCountdown t) := by
  unfold nmiCountdown
  rw [h.ppu]
  split
  · exact h
  · unfold State.emitIf
    split
    · exact State.Twin.emit (h.setPpu _) _
    · exact h.setPpu _

theorem twin_ppuStep {s t : State} (h : s.Twin t) : (ppuStep s).Twin (ppuStep t) := by
  have h1 := twin_nmiCountdown h
  have h2 : s.arrived.Twin t.arrived := by
    unfold State.arrived
    rw [h1.ppu]
    exact h1.setPpu _
  rw [ppuStep_eq, ppuStep_eq, h2.ppu]
  exact twin_positionActions _ _ h2

/-! ### A tick beside a step -/

/-- A tick leaves the character banks, so the PPU address space reads as before (45 R330). -/
theorem twin_mapperTick (s : State) : s.Twin (mapperTick s) := by
  cases hr : s.mapper.regs with
  | axrom bank =>
    rw [mapperTick_axrom hr]
    exact ⟨.ofPpu rfl rfl rfl rfl rfl, rfl⟩
  | vrc2 rev r =>
    have hchr : (irqTick r).1.chrReg = r.chrReg := by rw [irqTick_frame]
    rw [mapperTick_vrc2 hr]
    refine ⟨⟨rfl, rfl, fun i => ?_, rfl, rfl, rfl⟩, rfl⟩
    simp only [chrIndex, hr, hchr]

theorem mapperTick_congr {s t : State} (h : t.mapper = s.mapper) : (mapperTick t).mapper = (mapperTick s).mapper := by
  cases hr : s.mapper.regs with
  | axrom bank => rw [mapperTick_axrom hr, mapperTick_axrom (by rw [h, hr]), h]
  | vrc2 rev r => rw [mapperTick_vrc2 hr, mapperTick_vrc2 (by rw [h, hr] : t.mapper.regs = .vrc2 rev r), h]

/-- The event of a tick. -/
def tickEvents (m : Mapper) : List Event :=
  match m.regs with
  | .axrom _ => []
  | .vrc2 _ r => if (irqTick r).2 then [.irqTrigger] else []

/-- A tick in one equation, on either mapper. -/
theorem mapperTick_eq (s : State) :
    mapperTick s = { s with
      mapper := (mapperTick s).mapper, io := { s.io with outputs := s.io.outputs ++ tickEvents s.mapper } } := by
  cases hr : s.mapper.regs with
  | axrom bank => simp [mapperTick_axrom hr, tickEvents, hr]
  | vrc2 rev r => simp only [mapperTick_vrc2 hr, tickEvents, hr]

@[simp] theorem mapperTick_ppu (s : State) : (mapperTick s).ppu = s.ppu := by rw [mapperTick_eq]
@[simp] theorem mapperTick_params (s : State) : (mapperTick s).params = s.params := by rw [mapperTick_eq]
@[simp] theorem mapperTick_cart (s : State) : (mapperTick s).cart = s.cart := by rw [mapperTick_eq]
@[simp] theorem mapperTick_fatal (s : State) : (mapperTick s).fatal = s.fatal := by rw [mapperTick_eq]

theorem mapperTick_io (s : State) : (mapperTick s).io = { s.io with outputs := s.io.outputs ++ tickEvents s.mapper } := by
  rw [mapperTick_eq]

@[simp] theorem ppuStep_params (s : State) : (ppuStep s).params = s.params := by rw [ppuStep_frame]
@[simp] theorem ppuStep_mapper (s : State) : (ppuStep s).mapper = s.mapper := by rw [ppuStep_frame]
@[simp] theorem ppuStep_cart (s : State) : (ppuStep s).cart = s.cart := by rw [ppuStep_frame]
@[simp] theorem ppuStep_fatal (s : State) : (ppuStep s).fatal = s.fatal := by rw [ppuStep_frame]

theorem ppuStep_io (s : State) : (ppuStep s).io = { s.io with outputs := (ppuStep s).io.outputs } := by
  conv => lhs; rw [ppuStep_frame]

theorem State.eq_of_fields {s t : State} (params : s.params = t.params) (ppu : s.ppu = t.ppu) (mapper : s.mapper = t.mapper)
    (cart : s.cart = t.cart) (fatal : s.fatal = t.fatal) (io : s.io = t.io) : s = t := by
  cases s; cases t; simp only at *; simp only [params, ppu, mapper, cart, fatal, io]

/-- PPU_STEP leaves the mapper, the cartridge, the parameters and the queue alone (41 R200). -/
theorem ppuStep_onlyPpuAndOutputs (s : State) : s.onlyPpuAndOutputs (ppuStep s) :=
  State.eq_of_fields (ppuStep_params s) rfl (ppuStep_mapper s) (ppuStep_cart s) (ppuStep_fatal s) (ppuStep_io s)

/-- A step after a tick shows the same picture and emits the same events as the step alone. -/
theorem ppuStep_mapperTick_outputs (s : State) : ∃ es, (ppuStep s).io.outputs = s.io.outputs ++ es ∧
    (ppuStep (mapperTick s)).io.outputs = (mapperTick s).io.outputs ++ es := by
  have hppu := (twin_ppuStep (twin_mapperTick s)).ppu
  have hs := ppuStep_outputs s
  have ht := ppuStep_outputs (mapperTick s)
  rw [hppu, mapperTick_ppu, State.nmiEvents, State.nmiDue, mapperTick_ppu] at ht
  simp only [List.append_assoc] at hs ht
  exact ⟨_, hs, ht⟩

/-- Settles O17: a tick leaves what a step reads (`twin_mapperTick`), and a step leaves the mapper. -/
theorem ppuStepAndMapperTickCommute : Obligations.PpuStepAndMapperTickCommute := by
  intro s
  refine ⟨_, _, _, _, exec_ppuStep s, exec_mapperTick _, exec_mapperTick s, exec_ppuStep _, ?state, ?events⟩
  case state =>
    have hppu := (twin_ppuStep (twin_mapperTick s)).ppu
    refine State.eq_of_fields (by simp) (by simp [hppu]) ?_ (by simp) (by simp) ?_
    · rw [mapperTick_congr (ppuStep_mapper s)]; simp
    · rw [mapperTick_io, ppuStep_io s, ppuStep_io (mapperTick s), mapperTick_io s]
  case events =>
    obtain ⟨es, hs, ht⟩ := ppuStep_mapperTick_outputs s
    simp only [mapperTick_io, ppuStep_mapper] at ht ⊢
    rw [ht, hs, List.append_assoc, List.append_assoc]
    exact List.perm_append_comm.append_left _

end Sys2Proof.Machine
end

section
/-! What one instruction can do, said once (`Effect`), and the rules about every step that follow from it. -/

namespace Sys2Proof.Machine

/-! ### The effect of an instruction -/

/-- What an access of a PPU register keeps of the PictureProcessor: the position, the palette and the ranges. -/
structure Ppu.Access (p q : Ppu) : Prop where
  scanline : q.scanline = p.scanline
  cycle : q.cycle = p.cycle
  f : q.f = p.f
  pal : q.pal = p.pal
  inv : p.Inv → q.Inv

/-- A write of a mapper register, on the variant that has it (44 R293, 45 R315 to R324). -/
inductive RegWrite (s : State) : Instr → State → Prop
  | axrom {bank} (h : s.mapper.regs = .axrom bank) (d : Byte) : RegWrite s (.axRegW d) (axRegWrite s bank d)
  | prg0 {rev r} (h : s.mapper.regs = .vrc2 rev r) (d : Byte) : RegWrite s (.v2Prg0W d) (v2Prg0Write s rev r d)
  | mirror {rev r} (h : s.mapper.regs = .vrc2 rev r) (d : Byte) : RegWrite s (.v2MirrorW d) (v2MirrorWrite s d)
  | prg1 {rev r} (h : s.mapper.regs = .vrc2 rev r) (d : Byte) : RegWrite s (.v2Prg1W d) (v2Prg1Write s rev r d)
  | latchLo {rev r} (h : s.mapper.regs = .vrc2 rev r) (d : Byte) : RegWrite s (.v2IrqLatchLoW d) (v2IrqLatchLoWrite s rev r d)
  | latchHi {rev r} (h : s.mapper.regs = .vrc2 rev r) (d : Byte) : RegWrite s (.v2IrqLatchHiW d) (v2IrqLatchHiWrite s rev r d)
  | ctrl {rev r} (h : s.mapper.regs = .vrc2 rev r) (d : Byte) : RegWrite s (.v2IrqCtrlW d) (v2IrqCtrlWrite s rev r d)
  | ack {rev r} (h : s.mapper.regs = .vrc2 rev r) : RegWrite s .v2IrqAckW (v2IrqAckWrite s rev r)
  | chr {rev r} (h : s.mapper.regs = .vrc2 rev r) (group : BitVec 4) (sub : BitVec 2) (d : Byte) :
    RegWrite s (.v2ChrW group sub d) (v2ChrWrite s rev r group sub d)

/-- What an instruction that answers a next state does to the state. -/
inductive Effect (s : State) : Instr → State → Prop
  | access {i p} (hp : s.ppu.Access p) (r : Option Byte) : Effect s i { s with ppu := p, io := { s.io with result := r } }
  | dma {p} (hp : s.ppu.Access p) (page : Byte) (odd : Bool) (bus : List Byte) : Effect s (.oamdmaW page odd bus) { s with
      ppu := p
      io := { s.io with outputs := s.io.outputs ++ [.stallRequest (513 + odd.toNat)], busReads := s.io.busReads + 256 } }
  | dataWrite (d : Byte) : Effect s (.ppudataW d) ((dataStore s d).setPpu (dataStore s d).ppu.incV)
  | regWrite {i t} (h : RegWrite s i t) : Effect s i t
  | mapWrite (a : CpuAddr) (d : Byte) : Effect s (.mapW a d) (mapperWrite s a d)
  | ppuStep : Effect s .ppuStep (ppuStep s)
  | mapperTick : Effect s .mapperTick (mapperTick s)
  | reset : Effect s .reset { s with ppu := Ppu.reset s.params, mapper := Mapper.reset s.variant }
  | save : Effect s .save (s.emit (.snapshot (snapshotBytes s)))
  | restored {bs t} (h : restoredState s bs = some t) : Effect s (.restore bs) t
  | malformed (bs : List Byte) : Effect s (.restore bs) (s.raise .malformedSnapshot)

theorem Ppu.Access.refl (p : Ppu) : p.Access p := ⟨rfl, rfl, rfl, rfl, id⟩

/-- An access that writes none of the fields the invariant speaks of. -/
theorem Ppu.Access.of_eq {p q : Ppu} (h : q = { p with
    v := q.v, t := q.t, x := q.x, w := q.w, latch := q.latch, readBuffer := q.readBuffer, ctrl := q.ctrl, mask := q.mask,
    nmiOccurred := q.nmiOccurred, nmiPrevious := q.nmiPrevious, nmiDelay := q.nmiDelay, oamAddr := q.oamAddr }) : p.Access q := by
  rw [h]
  exact ⟨rfl, rfl, rfl, rfl, fun hp => { hp with }⟩

theorem Ppu.Access.oamPush (p : Ppu) (b : Byte) : p.Access (p.oamPush b) := ⟨rfl, rfl, rfl, rfl, fun hp => inv_oamPush hp b⟩

theorem Ppu.Access.trans {p q r : Ppu} (h : p.Access q) (h' : q.Access r) : p.Access r :=
  ⟨h'.scanline.trans h.scanline, h'.cycle.trans h.cycle, h'.f.trans h.f, h'.pal.trans h.pal, fun hp => h'.inv (h.inv hp)⟩

theorem Ppu.Access.foldl_oamPush (f : Nat → Byte) (p : Ppu) (is : List Nat) :
    p.Access (is.foldl (fun q i => q.oamPush (f i)) p) := by
  induction is generalizing p with
  | nil => exact .refl p
  | cons i is ih => exact (Ppu.Access.oamPush p (f i)).trans (ih _)

theorem Ppu.Access.dmaCopy (s : State) (page : Byte) (bus : List Byte) (p : Ppu) : p.Access (dmaCopy s page bus p) :=
  .foldl_oamPush (busAnswer s page bus) p (List.range 256)

theorem effect_oamdmaW {page : Byte} {odd : Bool} {bus : List Byte} {s t : State} (h : execOamdmaW page odd bus s = .next t) :
    Effect s (.oamdmaW page odd bus) t := by
  rw [execOamdmaW_eq] at h
  have hoam := fun hp => ((Ppu.Access.dmaCopy s page bus
    (if s.params.dmaWriteUpdatesLatch then { s.ppu with latch := page } else s.ppu)).inv hp).oam
  generalize (Machine.dmaCopy s page bus (if s.params.dmaWriteUpdatesLatch then { s.ppu with latch := page } else s.ppu)).oam = m
    at h hoam
  have hlatch : s.ppu.Inv → Ppu.Inv (if s.params.dmaWriteUpdatesLatch then { s.ppu with latch := page } else s.ppu) := by
    intro hp
    split
    · exact { hp with }
    · exact hp
  cases h
  exact .dma (p := { s.ppu with latch := _, oam := m })
    ⟨rfl, rfl, rfl, rfl, fun hp => { hp with oam := hoam (hlatch hp) }⟩ page odd bus

/-- Every instruction that answers a next state does one of the effects. -/
theorem effect_of_exec {i : Instr} {s t : State} (h : exec i s = .next t) : Effect s i t := by
  cases i with
  | ppuctrlW d => cases h; exact .access (.of_eq rfl) s.io.result
  | ppuctrlR => cases h; exact .access (.refl _) _
  | ppumaskW d => cases h; exact .access (.of_eq rfl) s.io.result
  | ppumaskR => cases h; exact .access (.refl _) _
  | ppustatusR => cases h; exact .access (.of_eq rfl) _
  | ppustatusW d => cases h; exact .access (.of_eq rfl) s.io.result
  | oamaddrW d => cases h; exact .access (.of_eq rfl) s.io.result
  | oamaddrR => cases h; exact .access (.refl _) _
  | oamdataR => cases h; exact .access (.refl _) _
  | oamdataW d => cases h; exact .access (Ppu.Access.trans (.of_eq rfl) (.oamPush { s.ppu with latch := d } d)) s.io.result
  | ppuscrollW1 d => cases h; exact .access (.of_eq rfl) s.io.result
  | ppuscrollW2 d => cases h; exact .access (.of_eq rfl) s.io.result
  | ppuscrollR => cases h; exact .access (.refl _) _
  | ppuaddrW1 d => cases h; exact .access (.of_eq rfl) s.io.result
  | ppuaddrW2 d => cases h; exact .access (.of_eq rfl) s.io.result
  | ppuaddrR => cases h; exact .access (.refl _) _
  | ppudataR => cases h; exact .access (.of_eq rfl) _
  | ppudataW d => cases h; exact .dataWrite d
  | oamdmaW page odd bus => exact effect_oamdmaW h
  | notClaimed => cases h; exact .access (.refl _) _
  | axRegW d =>
    change execAxRegW d s = _ at h
    unfold execAxRegW at h
    split at h
    · next hr => cases h; exact .regWrite (.axrom hr d)
    · cases h
  | v2Prg0W d => obtain ⟨rev, r, hr, rfl⟩ := onVrc2_next h; exact .regWrite (.prg0 hr d)
  | v2MirrorW d => obtain ⟨rev, r, hr, rfl⟩ := onVrc2_next h; exact .regWrite (.mirror hr d)
  | v2Prg1W d => obtain ⟨rev, r, hr, rfl⟩ := onVrc2_next h; exact .regWrite (.prg1 hr d)
  | v2IrqLatchLoW d => obtain ⟨rev, r, hr, rfl⟩ := onVrc2_next h; exact .regWrite (.latchLo hr d)
  | v2IrqLatchHiW d => obtain ⟨rev, r, hr, rfl⟩ := onVrc2_next h; exact .regWrite (.latchHi hr d)
  | v2IrqCtrlW d => obtain ⟨rev, r, hr, rfl⟩ := onVrc2_next h; exact .regWrite (.ctrl hr d)
  | v2IrqAckW => obtain ⟨rev, r, hr, rfl⟩ := onVrc2_next h; exact .regWrite (.ack hr)
  | v2ChrW group sub d => obtain ⟨rev, r, hr, rfl⟩ := onVrc2_next h; exact .regWrite (.chr hr group sub d)
  | mapR a =>
    change execMapR a s = _ at h
    rw [execMapR_eq] at h
    cases h; exact .access (.refl _) _
  | mapW a d =>
    change execMapW a d s = _ at h
    rw [execMapW_eq] at h
    cases h; exact .mapWrite a d
  | ppuStep => cases h; exact .ppuStep
  | mapperTick => cases h; exact .mapperTick
  | reset => cases h; exact .reset
  | save => cases h; exact .save
  | restore bs =>
    change execRestore bs s = _ at h
    unfold execRestore at h
    split at h
    · next hr => cases h; exact .restored hr
    · cases h; exact .malformed bs

theorem RegWrite.mapperOnly {i : Instr} {s t : State} (h : RegWrite s i t) : s.MapperOnly t := by
  cases h with
  | axrom hr d =>
    have h := mapperRegWrite_mapperOnly s 0x8000 d
    rw [mapperRegWrite, hr] at h; exact h
  | prg0 hr d => exact (v2Write_mapperOnly hr d 0 0).1
  | mirror hr d => exact (v2Write_mapperOnly hr d 0 0).2.1
  | prg1 hr d => exact (v2Write_mapperOnly hr d 0 0).2.2.1
  | chr hr group sub d => exact (v2Write_mapperOnly hr d group sub).2.2.2.1
  | latchLo hr d => exact (v2Write_mapperOnly hr d 0 0).2.2.2.2.1
  | latchHi hr d => exact (v2Write_mapperOnly hr d 0 0).2.2.2.2.2.1
  | ctrl hr d => exact (v2Write_mapperOnly hr d 0 0).2.2.2.2.2.2.1
  | ack hr => exact (v2Write_mapperOnly hr 0 0 0).2.2.2.2.2.2.2

theorem RegWrite.inv {i : Instr} {s t : State} (h : RegWrite s i t) (hs : s.Inv) : t.Inv := by
  refine h.mapperOnly.inv hs ?_
  cases h with
  | axrom hr d => rfl
  | prg0 hr d => exact (inv_v2Write hs hr d 0 0).1
  | mirror hr d => exact (inv_v2Write hs hr d 0 0).2.1
  | prg1 hr d => exact (inv_v2Write hs hr d 0 0).2.2.1
  | chr hr group sub d => exact (inv_v2Write hs hr d group sub).2.2.2.1
  | latchLo hr d => exact (inv_v2Write hs hr d 0 0).2.2.2.2.1
  | latchHi hr d => exact (inv_v2Write hs hr d 0 0).2.2.2.2.2.1
  | ctrl hr d => exact (inv_v2Write hs hr d 0 0).2.2.2.2.2.2.1
  | ack hr => exact (inv_v2Write hs hr 0 0 0).2.2.2.2.2.2.2

/-! ### The step -/

/-- A step waits, or runs the instruction it decodes (00 R7; log 1). -/
theorem step_cases {s t : State} (h : step s = .next t) :
    t = s ∨ ∃ st rest i, s.io.stimuli = st :: rest ∧ s.fatal = none ∧ decode s.decodeCtx st = .ok i ∧ exec i (s.take rest) = .next t := by
  unfold step at h
  split at h
  · cases h; exact .inl rfl
  · next st rest hst =>
    split at h
    · cases h
    · next hf =>
      split at h
      · cases h
      · next i hi => exact .inr ⟨st, rest, i, hst, hf, hi, h⟩

/-- Settles O6: the three conditions of `step` hold, so `exec` runs on the state with the stimulus taken off. -/
theorem stepRunsTheDecodedStimulus : Obligations.StepRunsTheDecodedStimulus := by
  intro s st rest i hst hf hi
  have h : step s = exec i (s.take rest) := by
    unfold step
    simp only [hst, hf, hi]
  exact h

/-! ### The invariant -/

theorem inv_dataStore {s : State} (h : s.Inv) (d : Byte) : (dataStore s d).Inv :=
  inv_ppuWrite (h.setPpu (p := { s.ppu with latch := d }) { h.ppu with }) _ d

theorem inv_reset {s : State} (h : s.Inv) : State.Inv { s with ppu := Ppu.reset s.params, mapper := Mapper.reset s.variant } where
  params := by
    have hv : (Mapper.reset s.variant).regs.variant = s.variant := by cases s.variant <;> rfl
    show paramsFit (Mapper.reset s.variant).regs.variant s.params = true
    rw [hv]; exact h.params
  ppu := inv_ppuReset h.params
  regs := by show (Mapper.reset s.variant).regs.inv = true; cases s.variant <;> rfl
  cart := h.cart

theorem Effect.inv {i : Instr} {s t : State} (he : Effect s i t) (h : s.Inv) : t.Inv := by
  cases he with
  | access hp r => exact ⟨h.params, hp.inv h.ppu, h.regs, h.cart⟩
  | dma hp page odd bus => exact ⟨h.params, hp.inv h.ppu, h.regs, h.cart⟩
  | dataWrite d => exact (inv_dataStore h d).setPpu { (inv_dataStore h d).ppu with }
  | regWrite hw => exact hw.inv h
  | mapWrite a d => exact inv_mapperWrite h a d
  | ppuStep =>
    have hp := inv_ppuStep s h.ppu
    rw [ppuStep_onlyPpuAndOutputs s]
    exact ⟨h.params, hp, h.regs, h.cart⟩
  | mapperTick => exact inv_mapperTick h
  | reset => exact inv_reset h
  | save => exact h.io _
  | restored hr =>
    obtain ⟨-, hinv, -⟩ := restoredState_some ((State.inv_iff s).2 h) hr
    exact (State.inv_iff t).1 hinv
  | malformed bs => exact h.io _

/-- Settles O9: each effect keeps the ranges, the canonical form and the sizes. -/
theorem stepKeepsTheInvariant : Obligations.StepKeepsTheInvariant := by
  intro s t hinv h
  have hs := (State.inv_iff s).1 hinv
  obtain rfl | ⟨st, rest, i, -, -, -, hexec⟩ := step_cases h
  · exact hinv
  · exact (State.inv_iff t).2 ((effect_of_exec hexec).inv (hs.io _))

/-- Settles O8: the blank cartridge fits, and every field of the reset state is in its range. -/
theorem resetStateMeetsTheInvariant : Obligations.ResetStateMeetsTheInvariant := by
  have h : State.reset.Inv := ⟨by decide, inv_ppuReset (m := .vrc2b) (by decide), rfl, rfl⟩
  exact (State.inv_iff _).2 h

/-! ### The parameters, the variant, the fatal mark -/

theorem loadMapperRegs_variant {m n : MapperRegs} {bs r : List Byte} (h : loadMapperRegs m bs = some (n, r)) : n.variant = m.variant :=
  (MapperRegs.variant_of_sameKind (loadMapperRegs_some h).2.1).symm

/-- RESTORE keeps the parameters, the variant, `fatal` and the interface (46 R353). -/
theorem restoredState_keeps {s t : State} {bytes : List Byte} (h : restoredState s bytes = some t) :
    t.params = s.params ∧ t.variant = s.variant ∧ t.fatal = s.fatal ∧ t.io = s.io := by
  unfold restoredState at h
  split at h
  · obtain ⟨⟨version, _⟩, -, h⟩ := of_bind_some h
    obtain ⟨⟨code, _⟩, -, h⟩ := of_bind_some h
    obtain ⟨⟨ppu, _⟩, -, h⟩ := of_bind_some h
    obtain ⟨⟨ppu, _⟩, -, h⟩ := of_bind_some h
    obtain ⟨⟨ppu, _⟩, -, h⟩ := of_bind_some h
    obtain ⟨⟨mirrorByte, _⟩, -, h⟩ := of_bind_some h
    obtain ⟨mirror, -, h⟩ := of_bind_some h
    obtain ⟨⟨regs, _⟩, hregs, h⟩ := of_bind_some h
    obtain ⟨⟨cart, _⟩, -, h⟩ := of_bind_some h
    simp only at h
    split at h
    · cases h; exact ⟨rfl, loadMapperRegs_variant hregs, rfl, rfl⟩
    · cases h
  · cases h

/-- What every instruction keeps (00 R3, R6, 60 R371). -/
structure State.SameBlock (s t : State) : Prop where
  params : t.params = s.params
  variant : t.variant = s.variant
  fatal : t.fatal = s.fatal

theorem State.MapperOnly.sameBlock {s t : State} (h : s.MapperOnly t) : s.SameBlock t := by
  obtain ⟨m, es, rfl, hv, -⟩ := h
  exact ⟨rfl, hv, rfl⟩

theorem sameBlock_chrWrite (s : State) (i : CpuAddr) (b : Byte) : s.SameBlock (chrWrite s i b) := by
  obtain ⟨m, es, he, -⟩ := chrWrite_frame s i b
  rw [he]
  exact ⟨rfl, rfl, rfl⟩

theorem sameBlock_ppuWrite (s : State) (a : PpuAddr) (b : Byte) : s.SameBlock (ppuWrite s a b) := by
  obtain ⟨-, he⟩ | ⟨-, -, he⟩ | ⟨-, he⟩ := ppuWrite_cases s a b <;> rw [he]
  · exact sameBlock_chrWrite s _ b
  · exact ⟨rfl, rfl, rfl⟩
  · exact ⟨rfl, rfl, rfl⟩

theorem sameBlock_mapperWrite (s : State) (i : CpuAddr) (b : Byte) : s.SameBlock (mapperWrite s i b) := by
  obtain ⟨-, he⟩ | ⟨-, -, he⟩ | ⟨-, -, he⟩ | ⟨-, he⟩ := mapperWrite_cases s i b <;> rw [he]
  · exact sameBlock_chrWrite s i b
  · exact ⟨rfl, rfl, rfl⟩
  · exact ⟨rfl, rfl, rfl⟩
  · exact (mapperRegWrite_mapperOnly s i b).sameBlock

theorem Effect.sameBlock {i : Instr} {s t : State} (he : Effect s i t) : s.SameBlock t := by
  cases he with
  | access hp r => exact ⟨rfl, rfl, rfl⟩
  | dma hp page odd bus => exact ⟨rfl, rfl, rfl⟩
  | dataWrite d =>
    obtain ⟨hp, hv, hf⟩ := sameBlock_ppuWrite (s.setPpu { s.ppu with latch := d }) s.ppu.dataAddr d
    exact ⟨hp, hv, hf⟩
  | regWrite hw => exact hw.mapperOnly.sameBlock
  | mapWrite a d => exact sameBlock_mapperWrite s a d
  | ppuStep => exact ⟨ppuStep_params s, by rw [State.variant, ppuStep_mapper]; rfl, ppuStep_fatal s⟩
  | mapperTick => exact (mapperTick_mapperOnly s).sameBlock
  | reset => exact ⟨rfl, by show (Mapper.reset s.variant).regs.variant = _; cases s.variant <;> rfl, rfl⟩
  | save => exact ⟨rfl, rfl, rfl⟩
  | restored hr =>
    obtain ⟨hp, hv, hf, -⟩ := restoredState_keeps hr
    exact ⟨hp, hv, hf⟩
  | malformed bs => exact ⟨rfl, rfl, rfl⟩

/-- Settles O10: every effect stays on the block it starts from. -/
theorem stepKeepsRomAndMapperVariant : Obligations.StepKeepsRomAndMapperVariant := by
  intro s t h
  obtain rfl | ⟨st, rest, i, -, -, -, hexec⟩ := step_cases h
  · exact ⟨rfl, rfl⟩
  · obtain ⟨hp, hv, -⟩ := (effect_of_exec hexec).sameBlock
    exact ⟨hp, hv⟩

/-! ### A decoded stimulus always completes -/

theorem vrc2_of_variant {s : State} (h : s.variant ≠ .axrom) : ∃ rev r, s.mapper.regs = .vrc2 rev r := by
  cases hr : s.mapper.regs with
  | axrom bank => exact absurd (by rw [State.variant, hr]; rfl) h
  | vrc2 rev r => exact ⟨rev, r, rfl⟩

theorem axrom_of_variant {s : State} (h : s.variant = .axrom) : ∃ bank, s.mapper.regs = .axrom bank := by
  cases hr : s.mapper.regs with
  | axrom bank => exact ⟨bank, rfl⟩
  | vrc2 rev r => rw [State.variant, hr] at h; cases rev <;> cases h

/-- An instruction whose row applies in the state's context answers a next state (30 R154). -/
theorem exec_next_of_applies {i : Instr} {s : State} (h : i.applies s.decodeCtx = true) : ∃ t, exec i s = .next t := by
  have vrc2 : ∀ (name : String) (f : Revision → Vrc2Regs → State), (s.variant != .axrom) = true → ∃ t, onVrc2 name s f = .next t := by
    intro name f hv
    obtain ⟨rev, r, hr⟩ := vrc2_of_variant (s := s) (by simpa using hv)
    exact ⟨_, onVrc2_eq hr⟩
  cases i with
  | axRegW d =>
    obtain ⟨bank, hr⟩ := axrom_of_variant (s := s) (beq_iff_eq.1 h)
    exact ⟨axRegWrite s bank d, by show execAxRegW d s = _; rw [execAxRegW, hr]⟩
  | v2Prg0W d => exact vrc2 _ _ h
  | v2MirrorW d => exact vrc2 _ _ h
  | v2Prg1W d => exact vrc2 _ _ h
  | v2IrqLatchLoW d => exact vrc2 _ _ h
  | v2IrqLatchHiW d => exact vrc2 _ _ h
  | v2IrqCtrlW d => exact vrc2 _ _ h
  | v2IrqAckW => exact vrc2 _ _ h
  | v2ChrW group sub d => exact vrc2 _ _ h
  | mapR a => exact ⟨_, execMapR_eq a s⟩
  | mapW a d => exact ⟨_, execMapW_eq a d s⟩
  | restore bs =>
    cases hr : restoredState s bs with
    | some t => exact ⟨t, exec_restore_of_some hr⟩
    | none => exact ⟨_, exec_restore_of_none hr⟩
  | _ => exact ⟨_, rfl⟩

/-- Settles O7: what a step waits for and stops on is read off `step`; `fatal` is kept by every effect; a decoded
instruction applies in its context, so it completes. -/
theorem stepStopsOnlyOnFatalOrReserved : Obligations.StepStopsOnlyOnFatalOrReserved := by
  refine ⟨?waits, ?fatal, ?reserved, ?keeps, ?completes⟩
  case waits => intro s hst; unfold step; simp only [hst]
  case fatal => intro s st rest name addr hst hf; unfold step; simp only [hst, hf]
  case reserved => intro s st rest why hst hf hd; unfold step; simp only [hst, hf, hd]
  case keeps => intro i s t h; exact (effect_of_exec h).sameBlock.fatal
  case completes =>
    intro s st rest i hst hf hi
    rw [stepRunsTheDecodedStimulus s st rest i hst hf hi]
    exact exec_next_of_applies (s := s.take rest) (decodedStimulusIsWellFormed _ _ _ hi).2

end Sys2Proof.Machine
end

section
/-! What instructions leave alone, and which events they emit (spec/10, spec/60). -/

namespace Sys2Proof.Machine

/-! ### What a write reaches -/

/-- A `PpuWrite` moves no position, touches no mapper, and logs at most. -/
theorem ppuWrite_keeps (s : State) (a : PpuAddr) (b : Byte) :
    (ppuWrite s a b).mapper = s.mapper ∧ (ppuWrite s a b).ppu = { s.ppu with
      nt := (ppuWrite s a b).ppu.nt, pal := (ppuWrite s a b).ppu.pal } ∧
    ((ppuWrite s a b).io.outputs = s.io.outputs ∨ ∃ n i d, (ppuWrite s a b).io.outputs = s.io.outputs ++ [.log n i d]) := by
  obtain ⟨-, he⟩ | ⟨-, -, he⟩ | ⟨-, he⟩ := ppuWrite_cases s a b <;> rw [he]
  · obtain ⟨m, es, hc, ⟨-, -, rfl⟩ | ⟨-, -, rfl⟩⟩ := chrWrite_frame s (a.setWidth 16) b <;> rw [hc]
    · exact ⟨rfl, rfl, .inl (List.append_nil _)⟩
    · exact ⟨rfl, rfl, .inr ⟨_, _, _, rfl⟩⟩
  · exact ⟨rfl, rfl, .inl rfl⟩
  · exact ⟨rfl, rfl, .inl rfl⟩

theorem dataStore_keeps (s : State) (d : Byte) :
    (dataStore s d).mapper = s.mapper ∧ (dataStore s d).ppu = { s.ppu with
      latch := d, nt := (dataStore s d).ppu.nt, pal := (dataStore s d).ppu.pal } ∧
    ((dataStore s d).io.outputs = s.io.outputs ∨ ∃ n i b, (dataStore s d).io.outputs = s.io.outputs ++ [.log n i b]) :=
  ppuWrite_keeps (s.setPpu { s.ppu with latch := d }) s.ppu.dataAddr d

/-- A `MapperWrite` leaves the PictureProcessor alone. -/
theorem mapperWrite_ppu (s : State) (i : CpuAddr) (b : Byte) : (mapperWrite s i b).ppu = s.ppu := by
  obtain ⟨-, he⟩ | ⟨-, -, he⟩ | ⟨-, -, he⟩ | ⟨-, he⟩ := mapperWrite_cases s i b <;> rw [he]
  · obtain ⟨m, es, hc, -⟩ := chrWrite_frame s i b
    rw [hc]
  · rfl
  · rfl
  · obtain ⟨m, es, hm, -⟩ := mapperRegWrite_mapperOnly s i b
    rw [hm]

/-- Below the registers a `MapperWrite` leaves the mapper alone, and logs at most (20 R94 to R98). -/
theorem mapperWrite_keeps (s : State) {i : CpuAddr} (hi : i.toNat < 0x8000) (b : Byte) :
    (mapperWrite s i b).mapper = s.mapper ∧
      ((mapperWrite s i b).io.outputs = s.io.outputs ∨ ∃ n a d, (mapperWrite s i b).io.outputs = s.io.outputs ++ [.log n a d]) := by
  obtain ⟨-, he⟩ | ⟨-, -, he⟩ | ⟨-, -, he⟩ | ⟨h, he⟩ := mapperWrite_cases s i b
  · obtain ⟨m, es, hc, ⟨-, -, rfl⟩ | ⟨-, -, rfl⟩⟩ := chrWrite_frame s i b <;> rw [he, hc]
    · exact ⟨rfl, .inl (List.append_nil _)⟩
    · exact ⟨rfl, .inr ⟨_, _, _, rfl⟩⟩
  · rw [he]; exact ⟨rfl, .inr ⟨_, _, _, rfl⟩⟩
  · rw [he]; exact ⟨rfl, .inl rfl⟩
  · omega

theorem State.MapperOnly.ppu {s t : State} (h : s.MapperOnly t) : t.ppu = s.ppu := by
  obtain ⟨m, es, rfl, -⟩ := h
  rfl

/-! ### The position -/

/-- Settles O11: of the effects only a step, a reset and a restored snapshot write the position. -/
theorem positionMovesOnlyByStepResetRestore : Obligations.PositionMovesOnlyByStepResetRestore := by
  intro i s t h hstep hreset hrestore
  have hppu : ∀ {u : State}, u.ppu = s.ppu → u.ppu.scanline = s.ppu.scanline ∧ u.ppu.cycle = s.ppu.cycle ∧ u.ppu.f = s.ppu.f := by
    intro u hu; rw [hu]; exact ⟨rfl, rfl, rfl⟩
  cases effect_of_exec h with
  | access hp r => exact ⟨hp.scanline, hp.cycle, hp.f⟩
  | dma hp page odd bus => exact ⟨hp.scanline, hp.cycle, hp.f⟩
  | dataWrite d =>
    obtain ⟨-, hp, -⟩ := dataStore_keeps s d
    rw [hp]
    exact ⟨rfl, rfl, rfl⟩
  | regWrite hw => exact hppu hw.mapperOnly.ppu
  | mapWrite a d => exact hppu (mapperWrite_ppu s a d)
  | ppuStep => exact absurd rfl hstep
  | mapperTick => exact hppu (mapperTick_ppu s)
  | reset => exact absurd rfl hreset
  | save => exact hppu rfl
  | restored hr => exact absurd rfl (hrestore _)
  | malformed bs => exact absurd rfl (hrestore bs)

/-! ### The mirror mode -/

theorem RegWrite.mirror_eq {i : Instr} {s t : State} (h : RegWrite s i t) (hax : ∀ d, i ≠ .axRegW d) (hm : ∀ d, i ≠ .v2MirrorW d) :
    t.mapper.mirror = s.mapper.mirror := by
  cases h with
  | axrom hr d => exact absurd rfl (hax d)
  | mirror hr d => exact absurd rfl (hm d)
  | prg0 hr d => rw [v2Prg0Write, State.setRegs_mapper, State.emitIf_mapper]
  | prg1 hr d => rw [v2Prg1Write, State.setRegs_mapper, State.emitIf_mapper]
  | ack hr => rw [v2IrqAckWrite, State.setRegs_mapper, State.emitIf_mapper]
  | latchLo hr d => rfl
  | latchHi hr d => rfl
  | ctrl hr d => rfl
  | chr hr group sub d => rfl

/-- Settles O12: each other effect keeps the mapper, or all of it but registers that are not the mirror mode. -/
theorem mirrorIsSetOnlyByTheMapper : Obligations.MirrorIsSetOnlyByTheMapper := by
  intro i s t hwf h hne
  refine Classical.byContradiction fun hno => hne ?_
  have hax : ∀ d, i ≠ .axRegW d := fun d hd => hno (.inl ⟨d, hd⟩)
  have hmirror : ∀ d, i ≠ .v2MirrorW d := fun d hd => hno (.inr (.inl ⟨d, hd⟩))
  have hreset : i ≠ .reset := fun hi => hno (.inr (.inr (.inl hi)))
  have hrestore : ∀ bs, i ≠ .restore bs := fun bs hi => hno (.inr (.inr (.inr ⟨bs, hi⟩)))
  cases effect_of_exec h with
  | access hp r => rfl
  | dma hp page odd bus => rfl
  | dataWrite d => exact congrArg (·.mirror) (dataStore_keeps s d).1
  | regWrite hw => exact hw.mirror_eq hax hmirror
  | mapWrite a d =>
    have ha : a.toNat < 0x8000 := by simp only [Instr.wf, Bool.and_eq_true, decide_eq_true_eq] at hwf; exact hwf.2
    exact congrArg (·.mirror) (mapperWrite_keeps s ha d).1
  | ppuStep => rw [ppuStep_mapper]
  | mapperTick => exact (twin_mapperTick s).space.mirror
  | reset => exact absurd rfl hreset
  | save => rfl
  | restored hr => exact absurd rfl (hrestore _)
  | malformed bs => rfl

/-! ### The aliased palette cells -/

/-- A `PpuWrite` names no aliased cell (20 R91, R93). -/
theorem ppuWrite_aliased {s : State} (hwf : Memory.wf s.ppu.pal = true) (a : PpuAddr) (b : Byte) {k : Nat}
    (hk : k = 16 ∨ k = 20 ∨ k = 24 ∨ k = 28) : Memory.read (ppuWrite s a b).ppu.pal k = Memory.read s.ppu.pal k := by
  obtain ⟨-, he⟩ | ⟨-, -, he⟩ | ⟨-, he⟩ := ppuWrite_cases s a b <;> rw [he]
  · obtain ⟨m, es, hc, -⟩ := chrWrite_frame s (a.setWidth 16) b
    rw [hc]
  · rfl
  · obtain ⟨h16, h20, h24, h28⟩ := palIndex_ne (a.extractLsb' 0 5)
    rw [State.setPpu_ppu, Memory.read_write hwf, if_neg (by omega)]

/-- Settles O14: the palette is written by a Data write alone, and that names no aliased cell. -/
theorem aliasedPaletteCellsAreNeverWritten : Obligations.AliasedPaletteCellsAreNeverWritten := by
  intro i s t hinv h hreset hrestore k hk
  have hpal := ((State.inv_iff s).1 hinv).ppu.pal.1
  have hppu : ∀ {u : State}, u.ppu = s.ppu → Memory.read u.ppu.pal k = Memory.read s.ppu.pal k := by intro u hu; rw [hu]
  cases effect_of_exec h with
  | access hp r => exact congrArg (Memory.read · k) hp.pal
  | dma hp page odd bus => exact congrArg (Memory.read · k) hp.pal
  | dataWrite d => exact ppuWrite_aliased (s := s.setPpu { s.ppu with latch := d }) hpal s.ppu.dataAddr d hk
  | regWrite hw => exact hppu hw.mapperOnly.ppu
  | mapWrite a d => exact hppu (mapperWrite_ppu s a d)
  | ppuStep => rw [ppuStep_frame]
  | mapperTick => exact hppu (mapperTick_ppu s)
  | reset => exact absurd rfl hreset
  | save => rfl
  | restored hr => exact absurd rfl (hrestore _)
  | malformed bs => exact absurd rfl (hrestore bs)

/-! ### Reads -/

/-- Settles O13: the plain reads only return a byte; the Status and the Data read by their equations. -/
theorem readsHaveNoOtherSideEffect : Obligations.ReadsHaveNoOtherSideEffect := by
  refine ⟨?plain, ?status, ?data⟩
  case plain =>
    rintro i s t (rfl | rfl | rfl | rfl | rfl | rfl | ⟨a, rfl⟩) h
    case inr.inr.inr.inr.inr.inr =>
      change execMapR a s = _ at h
      rw [execMapR_eq] at h
      cases h; rfl
    all_goals (cases h; rfl)
  case status => intro s t h; rw [exec_ppustatusR] at h; cases h; rfl
  case data => intro s t h; cases h; rfl

/-! ### Events -/

/-- A register write signals a bank switch or cancels the IRQ, by one event (44 R293, 45 R315, R317, R324). -/
theorem RegWrite.outputs {i : Instr} {s t : State} (h : RegWrite s i t) :
    ∃ es, t.io.outputs = s.io.outputs ++ es ∧ es.length ≤ 1 ∧ ∀ e ∈ es, mayEmit i e := by
  have one : ∀ {u : State} (c : Bool) (e : Event), u.io = (s.emitIf c e).io → mayEmit i e →
      ∃ es, u.io.outputs = s.io.outputs ++ es ∧ es.length ≤ 1 ∧ ∀ e' ∈ es, mayEmit i e' := by
    intro u c e hu he
    refine ⟨if c then [e] else [], by rw [hu, State.emitIf_io], ?_⟩
    cases c <;> simp [he]
  have none : ∃ es, s.io.outputs = s.io.outputs ++ es ∧ es.length ≤ 1 ∧ ∀ e ∈ es, mayEmit i e := ⟨[], by simp⟩
  cases h with
  | axrom hr d => exact one _ (.bankSwitch _ _) rfl ⟨d, .inl rfl⟩
  | prg0 hr d => exact one _ (.bankSwitch _ _) rfl ⟨d, .inr (.inl rfl)⟩
  | prg1 hr d => exact one _ (.bankSwitch _ _) rfl ⟨d, .inr (.inr rfl)⟩
  | ack hr => exact one _ .irqCancel rfl rfl
  | mirror hr d => exact none
  | latchLo hr d => exact none
  | latchHi hr d => exact none
  | ctrl hr d => exact none
  | chr hr group sub d => exact none

theorem tickEvents_cases (m : Mapper) : tickEvents m = [] ∨ tickEvents m = [.irqTrigger] := by
  unfold tickEvents
  split
  · exact .inl rfl
  · split
    · exact .inr rfl
    · exact .inl rfl

theorem nmiEvents_cases (s : State) : s.nmiEvents = [] ∨ s.nmiEvents = [.nmiRaise] := by
  unfold State.nmiEvents
  split
  · exact .inr rfl
  · exact .inl rfl

theorem pixelEvents_cases (p : Ppu) (l c : Nat) :
    pixelEvents p l c = [] ∨ ∃ x y idx col, pixelEvents p l c = [.pixelWrite x y idx col] := by
  unfold pixelEvents
  split
  · exact .inr ⟨_, _, _, _, rfl⟩
  · exact .inl rfl

theorem frameEvents_cases (l c : Nat) : frameEvents l c = [] ∨ frameEvents l c = [.framePresent] := by
  unfold frameEvents
  split
  · exact .inr rfl
  · exact .inl rfl

/-- A list of events as 60 R365 allows it to the instruction. -/
def Allowed (i : Instr) (es : List Event) : Prop :=
  (i.wf = true → ∀ e ∈ es, mayEmit i e) ∧
    (i ≠ .ppuStep → es.length ≤ 1) ∧
    (i = .ppuStep → ∃ a b c, es = a ++ b ++ c ∧ (a = [] ∨ a = [.nmiRaise]) ∧
      (b = [] ∨ ∃ x y idx col, b = [.pixelWrite x y idx col]) ∧ (c = [] ∨ c = [.framePresent]))

theorem Allowed.nil (i : Instr) : Allowed i [] :=
  ⟨by simp, by simp, fun _ => ⟨[], [], [], rfl, .inl rfl, .inl rfl, .inl rfl⟩⟩

theorem Allowed.single {i : Instr} (hi : i ≠ .ppuStep) {e : Event} (he : i.wf = true → mayEmit i e) : Allowed i [e] :=
  ⟨fun hwf e' h' => by rw [List.mem_singleton.1 h']; exact he hwf, by simp, fun h => absurd h hi⟩

/-- The three events of a step come in their order (41 R200). -/
theorem Allowed.ppuStep (s : State) (l c : Nat) : Allowed .ppuStep (s.nmiEvents ++ pixelEvents s.ppu l c ++ frameEvents l c) := by
  refine ⟨fun _ e he => ?_, fun h => absurd rfl h,
    fun _ => ⟨_, _, _, rfl, nmiEvents_cases s, pixelEvents_cases s.ppu l c, frameEvents_cases l c⟩⟩
  simp only [List.mem_append] at he
  obtain (he | he) | he := he
  · obtain h | h := nmiEvents_cases s <;> rw [h] at he
    · cases he
    · rw [List.mem_singleton.1 he]; rfl
  · obtain h | ⟨x, y, idx, col, h⟩ := pixelEvents_cases s.ppu l c <;> rw [h] at he
    · cases he
    · rw [List.mem_singleton.1 he]; rfl
  · obtain h | h := frameEvents_cases l c <;> rw [h] at he
    · cases he
    · rw [List.mem_singleton.1 he]; rfl

/-- A `MapperWrite` emits one event at most; below the registers only a `Log`. -/
theorem mapperWrite_outputs (s : State) (a : CpuAddr) (d : Byte) :
    ∃ es, (mapperWrite s a d).io.outputs = s.io.outputs ++ es ∧ Allowed (.mapW a d) es := by
  by_cases ha : a.toNat < 0x8000
  · obtain ⟨-, h | ⟨n, i, b, h⟩⟩ := mapperWrite_keeps s ha d
    · exact ⟨[], by rw [h, List.append_nil], .nil _⟩
    · exact ⟨_, h, .single (by simp) fun _ => .inr ⟨a, d, rfl⟩⟩
  · obtain ⟨m, es, h, -, hlen⟩ := mapperRegWrite_mapperOnly s a d
    have hwf : (Instr.mapW a d).wf ≠ true := by simp [Instr.wf]; omega
    refine ⟨es, ?_, fun h => absurd h hwf, fun _ => hlen, by simp⟩
    rw [mapperWrite, if_neg (by omega), if_neg (by omega), if_neg ha, h]

/-- Settles O16: the events of each effect. -/
theorem eventsOfOneStimulus : Obligations.EventsOfOneStimulus := by
  intro i s t h
  show ∃ es, t.io.outputs = s.io.outputs ++ es ∧ Allowed i es
  have quiet : ∀ {u : State}, u.io.outputs = s.io.outputs → ∃ es, u.io.outputs = s.io.outputs ++ es ∧ Allowed i es :=
    fun hu => ⟨[], by rw [hu, List.append_nil], .nil i⟩
  cases effect_of_exec h with
  | access hp r => exact quiet rfl
  | dma hp page odd bus => exact ⟨_, rfl, .single (by simp) fun _ => ⟨page, odd, bus, rfl⟩⟩
  | dataWrite d =>
    obtain ⟨-, -, h | ⟨n, a, b, h⟩⟩ := dataStore_keeps s d
    · exact quiet h
    · exact ⟨_, h, .single (by simp) fun _ => .inl ⟨d, rfl⟩⟩
  | regWrite hw =>
    obtain ⟨es, hes, hlen, hmay⟩ := hw.outputs
    exact ⟨es, hes, fun _ => hmay, fun _ => hlen, by rintro rfl; cases hw⟩
  | mapWrite a d => exact mapperWrite_outputs s a d
  | ppuStep =>
    refine ⟨_, ?_, .ppuStep s (ppuStep s).ppu.scanline.toNat (ppuStep s).ppu.cycle.toNat⟩
    rw [ppuStep_outputs]
    simp only [List.append_assoc]
  | mapperTick =>
    refine ⟨tickEvents s.mapper, by rw [mapperTick_io], ?_⟩
    obtain h | h := tickEvents_cases s.mapper <;> rw [h]
    · exact .nil _
    · exact .single (by simp) fun _ => rfl
  | reset => exact quiet rfl
  | save => exact ⟨_, rfl, .single (by simp) fun _ => rfl⟩
  | restored hr => exact quiet (congrArg (·.outputs) (restoredState_keeps hr).2.2.2)
  | malformed bs => exact quiet rfl

/-! ### The IRQ latch -/

theorem clockCounter_latch (r : Vrc2Regs) :
    (clockCounter r).1.irqTriggered = (r.irqTriggered || (clockCounter r).2) ∧ ((clockCounter r).2 = true → r.irqTriggered = false) := by
  rw [clockCounter_eq]
  cases r.irqTriggered <;> cases r.irqCounter == 0xFF <;> simp

/-- A tick that triggers finds the latch 0 and leaves it 1; another leaves it as it was (45 R331). -/
theorem irqTick_latch (r : Vrc2Regs) :
    (irqTick r).1.irqTriggered = (r.irqTriggered || (irqTick r).2) ∧ ((irqTick r).2 = true → r.irqTriggered = false) := by
  by_cases hd : r.irqDiv3 = 2
  case neg => rw [irqTick_waits hd]; simp
  cases he : r.irqEnable
  case false => rw [irqTick_disabled hd he]; simp
  cases hm : r.irqCycleMode
  case true => rw [irqTick_cycleMode hd he hm]; exact clockCounter_latch _
  by_cases hp : r.irqPrescaler = 340
  · rw [irqTick_prescaled hd he hm hp]; exact clockCounter_latch _
  · rw [irqTick_prescales hd he hm hp]; simp

theorem irqAsserted_congr {s t : State} (h : t.mapper = s.mapper) : t.irqAsserted = s.irqAsserted := by
  unfold State.irqAsserted; rw [h]

theorem irqAsserted_vrc2 {s : State} {rev : Revision} {r : Vrc2Regs} (h : s.mapper.regs = .vrc2 rev r) :
    s.irqAsserted = r.irqTriggered := by
  unfold State.irqAsserted; rw [h]

/-- The events `es` of an instruction from `s` to `t` follow the latch (60 R363). -/
def FollowsLatch (i : Instr) (s t : State) (es : List Event) : Prop :=
  (Event.irqTrigger ∈ es → i = .mapperTick ∧ es = [.irqTrigger] ∧ s.irqAsserted = false ∧ t.irqAsserted = true) ∧
    (Event.irqCancel ∈ es → i = .v2IrqAckW ∧ es = [.irqCancel] ∧ s.irqAsserted = true ∧ t.irqAsserted = false) ∧
    (t.irqAsserted ≠ s.irqAsserted → Event.irqTrigger ∈ es ∨ Event.irqCancel ∈ es ∨ i = .reset ∨ ∃ bs, i = .restore bs) ∧
    (i = .reset ∨ (∃ bs, i = .restore bs) → es = [])

/-- An instruction that keeps the latch and emits no IRQ event. -/
theorem FollowsLatch.of_quiet {i : Instr} {s t : State} {es : List Event} (hlatch : t.irqAsserted = s.irqAsserted)
    (htrigger : Event.irqTrigger ∉ es) (hcancel : Event.irqCancel ∉ es) (hsys : i = .reset ∨ (∃ bs, i = .restore bs) → es = []) :
    FollowsLatch i s t es :=
  ⟨fun h => absurd h htrigger, fun h => absurd h hcancel, fun h => absurd hlatch h, hsys⟩

/-- RESET and RESTORE change the latch silently. -/
theorem FollowsLatch.of_system {i : Instr} {s t : State} (hi : i = .reset ∨ ∃ bs, i = .restore bs) : FollowsLatch i s t [] :=
  ⟨by simp, by simp, fun _ => .inr (.inr hi), fun _ => rfl⟩

theorem followsLatch_ack {s : State} {rev : Revision} {r : Vrc2Regs} (hr : s.mapper.regs = .vrc2 rev r) :
    FollowsLatch .v2IrqAckW s (v2IrqAckWrite s rev r) (if r.irqTriggered then [.irqCancel] else []) := by
  have hs := irqAsserted_vrc2 hr
  have ht : (v2IrqAckWrite s rev r).irqAsserted = false := by rw [v2IrqAckWrite_eq]; rfl
  cases hlatch : r.irqTriggered <;> rw [hlatch] at hs
  · exact .of_quiet (by rw [ht, hs]) (by simp) (by simp) (by simp)
  · exact ⟨by simp, fun _ => ⟨rfl, rfl, hs, ht⟩, fun _ => .inr (.inl (by simp)), by simp⟩

theorem followsLatch_tick (s : State) : FollowsLatch .mapperTick s (mapperTick s) (tickEvents s.mapper) := by
  cases hr : s.mapper.regs with
  | axrom bank =>
    have hes : tickEvents s.mapper = [] := by rw [tickEvents, hr]
    rw [mapperTick_axrom hr, hes]
    exact .of_quiet rfl (by simp) (by simp) (by simp)
  | vrc2 rev r =>
    have hs := irqAsserted_vrc2 hr
    have ht : (mapperTick s).irqAsserted = (irqTick r).1.irqTriggered := by rw [mapperTick_vrc2 hr]; rfl
    have hes : tickEvents s.mapper = if (irqTick r).2 then [.irqTrigger] else [] := by rw [tickEvents, hr]
    obtain ⟨hlatch, hwas⟩ := irqTick_latch r
    rw [hes]
    cases htick : (irqTick r).2 <;> rw [htick] at hlatch hwas
    · exact .of_quiet (by rw [ht, hlatch, hs, Bool.or_false]) (by simp) (by simp) (by simp)
    · exact ⟨fun _ => ⟨rfl, rfl, by rw [hs, hwas rfl], by rw [ht, hlatch, Bool.or_true]⟩, by simp, fun _ => .inl (by simp), by simp⟩

theorem RegWrite.followsLatch {i : Instr} {s t : State} (h : RegWrite s i t) :
    ∃ es, t.io.outputs = s.io.outputs ++ es ∧ FollowsLatch i s t es := by
  have vrc2 : ∀ {u : State} {rev r rev' r'}, s.mapper.regs = .vrc2 rev r → u.mapper.regs = .vrc2 rev' r' →
      r'.irqTriggered = r.irqTriggered → u.irqAsserted = s.irqAsserted := by
    intro u rev r rev' r' hs hu hl; rw [irqAsserted_vrc2 hs, irqAsserted_vrc2 hu, hl]
  have switch : ∀ (c : Bool) (lo hi : CpuAddr), Event.irqTrigger ∉ (if c then [Event.bankSwitch lo hi] else []) ∧
      Event.irqCancel ∉ (if c then [Event.bankSwitch lo hi] else []) := by
    intro c lo hi; cases c <;> simp
  have quiet : ∀ {j : Instr} {u : State}, u.io.outputs = s.io.outputs → u.irqAsserted = s.irqAsserted →
      (j = .reset ∨ (∃ bs, j = .restore bs) → False) → ∃ es, u.io.outputs = s.io.outputs ++ es ∧ FollowsLatch j s u es :=
    fun hu hl hj => ⟨[], by rw [hu, List.append_nil], .of_quiet hl (by simp) (by simp) fun _ => rfl⟩
  cases h with
  | axrom hr d =>
    refine ⟨_, congrArg (·.outputs) (State.emitIf_io s _ _), .of_quiet ?_ (switch _ _ _).1 (switch _ _ _).2 (by simp)⟩
    simp only [State.irqAsserted, hr]; rfl
  | prg0 hr d =>
    exact ⟨_, congrArg (·.outputs) (State.emitIf_io s _ _),
      .of_quiet (vrc2 hr rfl rfl) (switch _ _ _).1 (switch _ _ _).2 (by simp)⟩
  | prg1 hr d =>
    exact ⟨_, congrArg (·.outputs) (State.emitIf_io s _ _),
      .of_quiet (vrc2 hr rfl rfl) (switch _ _ _).1 (switch _ _ _).2 (by simp)⟩
  | ack hr => exact ⟨_, congrArg (·.outputs) (State.emitIf_io s _ _), followsLatch_ack hr⟩
  | mirror hr d => exact quiet rfl (vrc2 hr hr rfl) (by simp)
  | latchLo hr d => exact quiet rfl (vrc2 hr rfl rfl) (by simp)
  | latchHi hr d => exact quiet rfl (vrc2 hr rfl rfl) (by simp)
  | ctrl hr d => exact quiet rfl (vrc2 hr rfl rfl) (by simp)
  | chr hr group sub d => exact quiet rfl (vrc2 hr rfl rfl) (by simp)

/-- No event of a step is an IRQ event. -/
theorem ppuStep_noIrq (s : State) : ∃ es, (ppuStep s).io.outputs = s.io.outputs ++ es ∧ Event.irqTrigger ∉ es ∧ Event.irqCancel ∉ es := by
  obtain ⟨es, hes, hmay, -, -⟩ := eventsOfOneStimulus _ _ _ (exec_ppuStep s)
  refine ⟨es, hes, fun h => ?_, fun h => ?_⟩
  · exact nomatch (hmay rfl _ h : Instr.ppuStep = .mapperTick)
  · exact nomatch (hmay rfl _ h : Instr.ppuStep = .v2IrqAckW)

/-- Settles O15: the tick and the acknowledge follow the latch; the other effects keep it and emit no IRQ event. -/
theorem irqTriggerAndCancelAlternate : Obligations.IrqTriggerAndCancelAlternate := by
  intro i s t hwf h
  show ∃ es, t.io.outputs = s.io.outputs ++ es ∧ FollowsLatch i s t es
  have quiet : ∀ {u : State}, u.io.outputs = s.io.outputs → u.mapper = s.mapper →
      ∃ es, u.io.outputs = s.io.outputs ++ es ∧ FollowsLatch i s u es :=
    fun hu hm => ⟨[], by rw [hu, List.append_nil], .of_quiet (irqAsserted_congr hm) (by simp) (by simp) fun _ => rfl⟩
  cases effect_of_exec h with
  | access hp r => exact quiet rfl rfl
  | dma hp page odd bus => exact ⟨_, rfl, .of_quiet rfl (by simp) (by simp) (by simp)⟩
  | dataWrite d =>
    obtain ⟨hm, -, h | ⟨n, a, b, h⟩⟩ := dataStore_keeps s d
    · exact quiet h hm
    · exact ⟨_, h, .of_quiet (irqAsserted_congr hm) (by simp) (by simp) (by simp)⟩
  | regWrite hw => exact hw.followsLatch
  | mapWrite a d =>
    have ha : a.toNat < 0x8000 := by simp only [Instr.wf, Bool.and_eq_true, decide_eq_true_eq] at hwf; exact hwf.2
    obtain ⟨hm, h | ⟨n, i, b, h⟩⟩ := mapperWrite_keeps s ha d
    · exact quiet h hm
    · exact ⟨_, h, .of_quiet (irqAsserted_congr hm) (by simp) (by simp) (by simp)⟩
  | ppuStep =>
    obtain ⟨es, hes, htrigger, hcancel⟩ := ppuStep_noIrq s
    exact ⟨es, hes, .of_quiet (irqAsserted_congr (ppuStep_mapper s)) htrigger hcancel (by simp)⟩
  | mapperTick => exact ⟨_, by rw [mapperTick_io], followsLatch_tick s⟩
  | reset => exact ⟨[], (List.append_nil _).symm, .of_system (.inl rfl)⟩
  | save => exact ⟨_, rfl, .of_quiet rfl (by simp) (by simp) (by simp)⟩
  | restored hr =>
    refine ⟨[], ?_, .of_system (.inr ⟨_, rfl⟩)⟩
    rw [(restoredState_keeps hr).2.2.2, List.append_nil]
  | malformed bs => exact ⟨[], (List.append_nil _).symm, .of_system (.inr ⟨bs, rfl⟩)⟩

end Sys2Proof.Machine
end

section
/-! The VRAM address as its five fields (spec/30 R135), and the register writes that load them (spec/40). -/

namespace Sys2Proof.Machine

/-! ### The five fields -/

/-- A VRAM address from fine Y, the two nametable bits, coarse Y and coarse X. -/
def vram (fy : BitVec 3) (ty tx : BitVec 1) (cy cx : BitVec 5) : VramAddr := fy ++ ty ++ tx ++ cy ++ cx

theorem toNat_append' {w v : Nat} (x : BitVec w) (y : BitVec v) : (x ++ y).toNat = x.toNat * 2 ^ v + y.toNat := by
  rw [BitVec.toNat_append, ← Nat.shiftLeft_add_eq_or_of_lt y.isLt, Nat.shiftLeft_eq]

theorem toNat_vram (fy : BitVec 3) (ty tx : BitVec 1) (cy cx : BitVec 5) :
    (vram fy ty tx cy cx).toNat = fy.toNat * 4096 + ty.toNat * 2048 + tx.toNat * 1024 + cy.toNat * 32 + cx.toNat := by
  simp only [vram, toNat_append']
  omega

/-- Every VRAM address is made of its fields. -/
theorem vram_fields (v : VramAddr) :
    ∃ fy ty tx cy cx, v = vram fy ty tx cy cx := by
  refine ⟨v.extractLsb' 12 3, v.extractLsb' 11 1, v.extractLsb' 10 1, v.extractLsb' 5 5, v.extractLsb' 0 5, BitVec.eq_of_toNat_eq ?_⟩
  have := v.isLt
  simp only [toNat_vram, BitVec.extractLsb'_toNat, Nat.shiftRight_eq_div_pow]
  omega

section
variable (fy : BitVec 3) (ty tx : BitVec 1) (cy cx : BitVec 5)

theorem coarseX_vram : coarseX (vram fy ty tx cy cx) = cx.toNat := by
  have := cx.isLt
  rw [coarseX, toNat_vram]; omega

theorem coarseY_vram : coarseY (vram fy ty tx cy cx) = cy.toNat := by
  have := cx.isLt
  have := cy.isLt
  rw [coarseY, toNat_vram]; omega

theorem tableX_vram : tableX (vram fy ty tx cy cx) = tx.toNat := by
  have := cx.isLt
  have := cy.isLt
  have := tx.isLt
  rw [tableX, toNat_vram]; omega

theorem tableY_vram : tableY (vram fy ty tx cy cx) = ty.toNat := by
  have := cx.isLt
  have := cy.isLt
  have := tx.isLt
  have := ty.isLt
  rw [tableY, toNat_vram]; omega

theorem fineY_vram : fineY (vram fy ty tx cy cx) = fy.toNat := by
  have := cx.isLt
  have := cy.isLt
  have := tx.isLt
  have := ty.isLt
  rw [fineY, toNat_vram]; omega

/-- The two bits above the coarse fields. -/
theorem tables_vram : (vram fy ty tx cy cx).toNat / 1024 % 4 = ty.toNat * 2 + tx.toNat := by
  have := cx.isLt
  have := cy.isLt
  have := tx.isLt
  have := ty.isLt
  have hsplit : fy.toNat * 4096 + ty.toNat * 2048 + tx.toNat * 1024 + cy.toNat * 32 + cx.toNat =
      (cy.toNat * 32 + cx.toNat) + 1024 * (tx.toNat + 2 * ty.toNat + 4 * fy.toNat) := by omega
  rw [toNat_vram, hsplit, Nat.add_mul_div_left _ _ (by decide), Nat.div_eq_of_lt (by omega)]
  omega

variable (fy' : BitVec 3) (ty' tx' : BitVec 1) (cy' cx' : BitVec 5)

theorem vram_and : vram fy ty tx cy cx &&& vram fy' ty' tx' cy' cx' =
    vram (fy &&& fy') (ty &&& ty') (tx &&& tx') (cy &&& cy') (cx &&& cx') :=
  (BitVec.and_append (x₁ := fy ++ ty ++ tx ++ cy) (x₂ := fy' ++ ty' ++ tx' ++ cy')).trans
    (congrArg (· ++ (cx &&& cx')) (by simp only [BitVec.and_append]))

theorem vram_or : vram fy ty tx cy cx ||| vram fy' ty' tx' cy' cx' =
    vram (fy ||| fy') (ty ||| ty') (tx ||| tx') (cy ||| cy') (cx ||| cx') :=
  (BitVec.or_append (x₁ := fy ++ ty ++ tx ++ cy) (x₂ := fy' ++ ty' ++ tx' ++ cy')).trans
    (congrArg (· ++ (cx ||| cx')) (by simp only [BitVec.or_append]))

theorem vram_xor : vram fy ty tx cy cx ^^^ vram fy' ty' tx' cy' cx' =
    vram (fy ^^^ fy') (ty ^^^ ty') (tx ^^^ tx') (cy ^^^ cy') (cx ^^^ cx') :=
  (BitVec.xor_append (x₁ := fy ++ ty ++ tx ++ cy) (x₂ := fy' ++ ty' ++ tx' ++ cy')).trans
    (congrArg (· ++ (cx ^^^ cx')) (by simp only [BitVec.xor_append]))

end

/-! ### The Scroll and Address writes on `t` -/

/-- A first Scroll write replaces coarse X (40 R169). -/
theorem tAfterScroll1_vram (fy : BitVec 3) (ty tx : BitVec 1) (cy cx : BitVec 5) (d : Byte) :
    tAfterScroll1 (vram fy ty tx cy cx) d = vram fy ty tx cy (d.extractLsb' 3 5) := by
  have hmask : (0x7FE0 : VramAddr) = vram (.allOnes 3) (.allOnes 1) (.allOnes 1) (.allOnes 5) 0#5 := rfl
  have hd : (d.extractLsb' 3 5).setWidth 15 = vram 0#3 0#1 0#1 0#5 (d.extractLsb' 3 5) := by
    apply BitVec.eq_of_toNat_eq
    simp [toNat_vram]
    omega
  rw [tAfterScroll1, hd, hmask, vram_and, vram_or]
  simp only [BitVec.and_allOnes, BitVec.and_zero, BitVec.or_zero, BitVec.zero_or]

/-- The mask of the second Scroll write, by fields. -/
theorem tAfterScroll2_eq (t : VramAddr) (d : Byte) : tAfterScroll2 t d =
    (t &&& vram 0#3 (.allOnes 1) (.allOnes 1) 0#5 (.allOnes 5)) |||
      (d.extractLsb' 0 3).setWidth 15 <<< 12 ||| (d.extractLsb' 3 5).setWidth 15 <<< 5 := rfl

/-- A second Scroll write replaces fine Y and coarse Y (40 R170). -/
theorem tAfterScroll2_vram (fy : BitVec 3) (ty tx : BitVec 1) (cy cx : BitVec 5) (d : Byte) :
    tAfterScroll2 (vram fy ty tx cy cx) d = vram (d.extractLsb' 0 3) ty tx (d.extractLsb' 3 5) cx := by
  have hlow : (d.extractLsb' 0 3).setWidth 15 <<< 12 = vram (d.extractLsb' 0 3) 0#1 0#1 0#5 0#5 := by
    apply BitVec.eq_of_toNat_eq
    simp [toNat_vram, Nat.shiftLeft_eq]
    omega
  have hhigh : (d.extractLsb' 3 5).setWidth 15 <<< 5 = vram 0#3 0#1 0#1 (d.extractLsb' 3 5) 0#5 := by
    apply BitVec.eq_of_toNat_eq
    simp [toNat_vram, Nat.shiftLeft_eq]
    omega
  rw [tAfterScroll2_eq, hlow, hhigh, vram_and, vram_or, vram_or]
  simp only [BitVec.and_allOnes, BitVec.and_zero, BitVec.or_zero, BitVec.zero_or]

theorem tAfterAddr1_eq (t : VramAddr) (d : Byte) :
    tAfterAddr1 t d = (t &&& 0x00FF#15) ||| (d.extractLsb' 0 6).setWidth 15 <<< 8 := rfl

/-- A first Address write puts six bits above the lower byte of `t` and clears the top bit (40 R172). -/
theorem tAfterAddr1_eq_append (t : VramAddr) (d : Byte) : tAfterAddr1 t d = 0#1 ++ d.extractLsb' 0 6 ++ t.extractLsb' 0 8 := by
  have hmask : ∀ i, i < 15 → (0x00FF#15).getLsbD i = decide (i < 8) := by decide
  apply BitVec.eq_of_getLsbD_eq
  intro i hi
  rw [tAfterAddr1_eq, BitVec.getLsbD_or, BitVec.getLsbD_and, hmask i hi, BitVec.getLsbD_append]
  by_cases hlow : i < 8
  · simp [hlow]
  · rw [BitVec.getLsbD_append]
    by_cases h14 : i = 14
    · simp [h14]
    · simp [hi, hlow, show i - 8 < 6 by omega]

theorem toNat_tAfterAddr1 (t : VramAddr) (d : Byte) : (tAfterAddr1 t d).toNat = (d.toNat % 64) * 256 + t.toNat % 256 := by
  rw [tAfterAddr1_eq_append, toNat_append', toNat_append']
  simp

theorem tAfterControl_eq (t : VramAddr) (d : Byte) :
    tAfterControl t d = (t &&& 0x73FF#15) ||| (d.extractLsb' 0 2).setWidth 15 <<< 10 := rfl

theorem getLsbD_tAfterControl (t : VramAddr) (d : Byte) {k : Nat} (hk : k < 15) :
    (tAfterControl t d).getLsbD k = if k = 10 then d.getLsbD 0 else if k = 11 then d.getLsbD 1 else t.getLsbD k := by
  have hmask : ∀ i, i < 15 → (0x73FF#15).getLsbD i = !decide (i = 10 ∨ i = 11) := by decide
  rw [tAfterControl_eq, BitVec.getLsbD_or, BitVec.getLsbD_and, hmask k hk]
  by_cases h10 : k = 10
  · simp [h10]
  · by_cases h11 : k = 11
    · simp [h11]
    · by_cases hlt : k < 10
      · simp [h10, h11, hlt]
      · simp [h10, h11, show ¬ k - 10 < 2 by omega]

/-! ### Control, Mask, Status, OAMAddress -/

theorem exec_ppuctrlW (d : Byte) (s : State) : exec (.ppuctrlW d) s = .next (s.setPpu (Ppu.nmiChange s.params.nmiDelay
    { s.ppu with latch := d, ctrl := Control.ofByte d, t := tAfterControl s.ppu.t d })) := rfl

/-- Settles O21: the fields are those of `Control.ofByte`, `t` bit by bit, the line by `NmiChange`. -/
theorem controlWriteResult : Obligations.ControlWriteResult := by
  intro d s
  refine ⟨_, exec_ppuctrlW d s, rfl, ?_, rfl, rfl, rfl, rfl, rfl, rfl, fun k hk => getLsbD_tAfterControl s.ppu.t d hk, rfl, rfl⟩
  exact BitVec.extractLsb'_toNat ..

/-- Settles O22: the fields are those of `Mask.ofByte`. -/
theorem maskWriteResult : Obligations.MaskWriteResult := fun _ _ => ⟨_, rfl, rfl, rfl⟩

/-- Settles O24: the meaning of each write-only register is one and the same. -/
theorem openBusReads : Obligations.OpenBusReads := by
  refine ⟨?_, fun s => rfl⟩
  rintro s i (rfl | rfl | rfl | rfl | rfl) <;> rfl

/-- Settles O25: each write is one record update. -/
theorem statusAndOamAddressWrites : Obligations.StatusAndOamAddressWrites := fun _ _ => ⟨rfl, rfl⟩

/-! ### Scroll and Address -/

/-- Settles O28: the writes on `t` by its fields. -/
theorem scrollAndFirstAddressWrites : Obligations.ScrollAndFirstAddressWrites := by
  intro d s
  obtain ⟨fy, ty, tx, cy, cx, ht⟩ := vram_fields s.ppu.t
  have hcx := cx.isLt
  have hcy := cy.isLt
  have hd : (d.extractLsb' 3 5).toNat = d.toNat / 8 := by simp [Nat.shiftRight_eq_div_pow]; omega
  have hlow : (d.extractLsb' 0 3).toNat = d.toNat % 8 := by simp
  refine ⟨⟨_, rfl, rfl, hlow, ?_, ?_⟩, ⟨_, rfl, rfl, ?_, ?_, ?_, ?_⟩, ⟨_, rfl, rfl, toNat_tAfterAddr1 s.ppu.t d⟩⟩
  · show coarseX (tAfterScroll1 s.ppu.t d) = _
    rw [ht, tAfterScroll1_vram, coarseX_vram, hd]
  · show (tAfterScroll1 s.ppu.t d).toNat / 32 = _
    rw [ht, tAfterScroll1_vram, toNat_vram, toNat_vram]; omega
  · show fineY (tAfterScroll2 s.ppu.t d) = _
    rw [ht, tAfterScroll2_vram, fineY_vram, hlow]
  · show coarseY (tAfterScroll2 s.ppu.t d) = _
    rw [ht, tAfterScroll2_vram, coarseY_vram, hd]
  · show coarseX (tAfterScroll2 s.ppu.t d) = _
    rw [ht, tAfterScroll2_vram, coarseX_vram, coarseX_vram]
  · show (tAfterScroll2 s.ppu.t d).toNat / 1024 % 4 = _
    rw [ht, tAfterScroll2_vram, tables_vram, tables_vram]

theorem exec_ppuaddrW1 (d : Byte) (s : State) : exec (.ppuaddrW1 d) s = .next { s with
    ppu := { s.ppu with latch := d, t := tAfterAddr1 s.ppu.t d, w := true } } := rfl

/-- A write word of the Address register, waiting, is run with the meaning `w` selects (30 R152). -/
theorem step_addressWrite {s : State} {d : Byte} {rest : List Stimulus} (hf : s.fatal = none)
    (hst : s.io.stimuli = { word := writeWord 0x2006 d, bytes := [] } :: rest) :
    step s = exec (if s.ppu.w then .ppuaddrW2 d else .ppuaddrW1 d) (s.take rest) :=
  stepRunsTheDecodedStimulus s _ rest _ hst hf (decode_regWrite s.decodeCtx (a := 0x2006) (by decide) d [])

/-- Settles O30: the first write sets the toggle, so the second word is decoded as the second write. -/
theorem addressPairLaw : Obligations.AddressPairLaw := by
  intro hi lo s rest hw hf hst
  have h1 := step_addressWrite hf hst
  rw [hw, if_neg (by decide), exec_ppuaddrW1] at h1
  have h2 := step_addressWrite (s := { s.take ({ word := writeWord 0x2006 lo, bytes := [] } :: rest) with
    ppu := { s.ppu with latch := hi, t := tAfterAddr1 s.ppu.t hi, w := true } }) hf rfl
  rw [if_pos rfl, exec_ppuaddrW2] at h2
  have hrun : ∀ {u v : State}, step s = .next u → step u = .next v → core.run 2 s = .next v := by
    intro u v hu hv
    simp only [Host.Core.run, core, hu, hv]
  refine ⟨_, hrun h1 h2, rfl, ?_, rfl, rfl⟩
  show (tAfterAddr2 (tAfterAddr1 s.ppu.t hi) lo).toNat = _
  rw [toNat_tAfterAddr2, toNat_tAfterAddr1]
  omega

end Sys2Proof.Machine
end

section
/-! RESET (spec/70 R390), the PPU address space (spec/20 R86 to R93) and the Data register and OAM DMA that use it
(spec/40 R175 to R180). -/

namespace Sys2Proof.Machine

/-- A condition replaced by an equivalent one. -/
theorem ite_congr_iff {α : Type} {p q : Prop} [Decidable p] [Decidable q] {a b a' b' : α} (h : p ↔ q) (ha : a = a') (hb : b = b') :
    (if p then a else b) = if q then a' else b' :=
  ite_congr (propext h) (fun _ => ha) fun _ => hb

/-! ### RESET -/

theorem variant_reset (m : Variant) : (Mapper.reset m).regs.variant = m := by cases m <;> rfl

theorem Mapper.reset_vrc2 {s : State} {rev : Revision} {r : Vrc2Regs} (h : s.mapper.regs = .vrc2 rev r) :
    Mapper.reset s.variant = { mirror := .vertical, regs := .vrc2 rev Vrc2Regs.zero } := by
  rw [State.variant, h]; cases rev <;> rfl

/-- Every buffer entry reads as zero, the ones beyond the eighth by the default of `spriteAt`. -/
theorem Ppu.reset_spriteAt (p : Params) (k : Nat) : (Ppu.reset p).spriteAt k = SpriteEntry.zero := by
  have hlist : (Ppu.reset p).sprites.toList = List.replicate 8 SpriteEntry.zero := rfl
  rw [Ppu.spriteAt, hlist, List.getD_eq_getElem?_getD, List.getElem?_replicate]
  split <;> rfl

/-- Settles O18: the fields of `Ppu.reset` one by one, the mapper by its variant. -/
theorem resetWritesTheResetValues : Obligations.ResetWritesTheResetValues := by
  intro s
  refine ⟨_, rfl, rfl, rfl, rfl, rfl, rfl, rfl, rfl, rfl, rfl, rfl, rfl, rfl, rfl, rfl, rfl, rfl, rfl, rfl, rfl, rfl, rfl,
    rfl, rfl, rfl, rfl, rfl, rfl, fun k _ => Ppu.reset_spriteAt s.params k, variant_reset s.variant, ?_,
    fun rev r h => Mapper.reset_vrc2 h, by decide⟩
  intro h
  show Mapper.reset s.variant = _
  rw [h]; rfl

/-! ### `PpuRead` by range -/

theorem ppuRead_chr (s : State) {a : PpuAddr} (h : a.toNat < 0x2000) : ppuRead s a = chrRead s (a.setWidth 16) := by
  rw [ppuRead, if_pos h, mapperRead_chr _ (by rw [toNat_setWidth16]; exact h)]

theorem ppuRead_nt (s : State) {a : PpuAddr} (h : 0x2000 ≤ a.toNat) (h' : a.toNat < 0x3F00) :
    ppuRead s a = Memory.read s.ppu.nt (ntIndex s.mapper.mirror a) := by
  rw [ppuRead, if_neg (by omega), if_pos h']

theorem ppuRead_pal (s : State) {a : PpuAddr} (h : 0x3F00 ≤ a.toNat) :
    ppuRead s a = Memory.read s.ppu.pal (palIndex (a.extractLsb' 0 5)) := by
  rw [ppuRead, if_neg (by omega), if_neg (by omega), palRead]

theorem toNat_palCell (a : PpuAddr) : (a.extractLsb' 0 5).toNat = a.toNat % 32 := by simp

/-! ### The address of the Data register -/

@[simp] theorem Ppu.toNat_dataAddr (p : Ppu) : p.dataAddr.toNat = p.v.toNat % 0x4000 := BitVec.toNat_setWidth ..

/-- `IncV` moves `v` by 1 or 32 mod 0x8000 (40 R175). -/
theorem Ppu.toNat_incV_v (p : Ppu) : p.incV.v.toNat = (p.v.toNat + if p.ctrl.incMode then 32 else 1) % 0x8000 := by
  rw [Ppu.incV_v, BitVec.toNat_add]
  cases p.ctrl.incMode <;> rfl

/-- Settles O31 (`dataReadResult` is the model's byte): by the range of the address, and of the nametable address 0x1000 below it. -/
theorem dataReadResultLaw : Obligations.DataReadResult := by
  intro s
  refine ⟨_, dataReadResult s, rfl, rfl, Ppu.toNat_incV_v s.ppu, ?_⟩
  rintro a rfl
  have ha : s.ppu.dataAddr.toNat = s.ppu.v.toNat % 0x4000 := Ppu.toNat_dataAddr _
  have hof : BitVec.ofNat 14 (s.ppu.v.toNat % 0x4000) = s.ppu.dataAddr := by rw [← ha, BitVec.ofNat_toNat, BitVec.setWidth_eq]
  constructor
  · intro hlow
    rw [dataReadResult, if_pos (by omega), hof]
    exact ⟨rfl, if_pos (by omega)⟩
  · intro hhigh
    have hnt : (s.ppu.dataAddr - 0x1000#14).toNat = s.ppu.v.toNat % 0x4000 - 0x1000 := by
      rw [BitVec.toNat_sub, BitVec.toNat_ofNat, ha]; omega
    have hsub : BitVec.ofNat 14 (s.ppu.v.toNat % 0x4000 - 0x1000) = s.ppu.dataAddr - 0x1000#14 := by
      rw [← hnt, BitVec.ofNat_toNat, BitVec.setWidth_eq]
    have hcell : BitVec.ofNat 5 (s.ppu.v.toNat % 0x4000) = s.ppu.dataAddr.extractLsb' 0 5 :=
      BitVec.eq_of_toNat_eq (by rw [toNat_palCell, BitVec.toNat_ofNat, ha])
    constructor
    · rw [hcell, dataReadResult, if_neg (by omega), ppuRead_pal s (by omega)]
    · rw [hsub, ← ppuRead_nt s (by omega) (by omega)]
      exact if_neg (by omega)

/-! ### Data writes -/

theorem exec_ppudataW (d : Byte) (s : State) :
    exec (.ppudataW d) s = .next ((dataStore s d).setPpu (dataStore s d).ppu.incV) := rfl

/-- A write of character memory through the Data register (20 R87). -/
theorem dataStore_chr {s : State} (h : s.ppu.v.toNat % 0x4000 < 0x2000) (d : Byte) :
    dataStore s d = chrWrite (s.setPpu { s.ppu with latch := d }) (s.ppu.dataAddr.setWidth 16) d := by
  rcases ppuWrite_cases (s.setPpu { s.ppu with latch := d }) s.ppu.dataAddr d with ⟨_, e⟩ | ⟨h', _⟩ | ⟨h', _⟩
  · exact e
  all_goals rw [Ppu.toNat_dataAddr] at h'; omega

theorem dataStore_nt {s : State} (h : 0x2000 ≤ s.ppu.v.toNat % 0x4000) (h' : s.ppu.v.toNat % 0x4000 < 0x3F00) (d : Byte) :
    dataStore s d = s.setPpu { s.ppu with
      latch := d, nt := Memory.write s.ppu.nt (ntIndex s.mapper.mirror s.ppu.dataAddr) d } := by
  rcases ppuWrite_cases (s.setPpu { s.ppu with latch := d }) s.ppu.dataAddr d with ⟨hc, _⟩ | ⟨_, _, e⟩ | ⟨hc, _⟩
  · rw [Ppu.toNat_dataAddr] at hc; omega
  · exact e
  · rw [Ppu.toNat_dataAddr] at hc; omega

theorem dataStore_pal {s : State} (h : 0x3F00 ≤ s.ppu.v.toNat % 0x4000) (d : Byte) :
    dataStore s d = s.setPpu { s.ppu with
      latch := d, pal := Memory.write s.ppu.pal (palIndex (s.ppu.dataAddr.extractLsb' 0 5)) d } := by
  rcases ppuWrite_cases (s.setPpu { s.ppu with latch := d }) s.ppu.dataAddr d with ⟨hc, _⟩ | ⟨_, hc, _⟩ | ⟨_, e⟩
  · rw [Ppu.toNat_dataAddr] at hc; omega
  · rw [Ppu.toNat_dataAddr] at hc; omega
  · exact e

/-- Reading a canonical memory after a write, the index asked on the left. -/
theorem Memory.read_write_index {m : Memory} (h : Memory.wf m = true) (a k : Nat) (b : Byte) :
    Memory.read (Memory.write m a b) k = if k = a then b else Memory.read m k := by
  rw [Memory.read_write h]
  exact ite_congr_iff eq_comm rfl rfl

/-- Settles O32: by the range of the address, one memory written in each. -/
theorem dataWriteResult : Obligations.DataWriteResult := by
  intro d s hinv
  obtain ⟨_, hppu, _, hcart⟩ := (State.inv_iff s).1 hinv
  obtain ⟨-, hchr, -⟩ := (Cart.inv_iff _ _).1 hcart
  refine ⟨_, exec_ppudataW d s, ?_⟩
  rcases Nat.lt_or_ge (s.ppu.v.toNat % 0x4000) 0x2000 with hr | hr
  · rw [dataStore_chr hr]
    obtain ⟨m, es, e, hcases⟩ := chrWrite_frame (s.setPpu { s.ppu with latch := d }) (s.ppu.dataAddr.setWidth 16) d
    rw [e]
    refine ⟨rfl, Ppu.toNat_incV_v _, fun a ha => ⟨fun h => by omega, fun h => by omega, fun _ => ⟨rfl, rfl, ?_, ?_⟩⟩⟩
    all_goals
      obtain rfl : a = s.ppu.dataAddr := BitVec.eq_of_toNat_eq (by rw [ha, Ppu.toNat_dataAddr])
      intro hram
    · rcases hcases with ⟨_, rfl, rfl⟩ | ⟨hrom, _⟩
      · refine ⟨by simp, fun k => ?_⟩
        exact Memory.read_write_index hchr _ k d
      · exact absurd hram (by rw [show s.params.chrIsRam = false from hrom]; decide)
    · rcases hcases with ⟨hram', _⟩ | ⟨_, rfl, rfl⟩
      · exact absurd hram (by rw [show s.params.chrIsRam = true from hram']; decide)
      · exact ⟨rfl, rfl⟩
  · rcases Nat.lt_or_ge (s.ppu.v.toNat % 0x4000) 0x3F00 with hp | hp
    · rw [dataStore_nt hr hp]
      refine ⟨rfl, Ppu.toNat_incV_v _, fun a ha => ⟨fun h => by omega, fun _ _ => ⟨rfl, rfl, rfl, fun k => ?_⟩, fun h => by omega⟩⟩
      obtain rfl : a = s.ppu.dataAddr := BitVec.eq_of_toNat_eq (by rw [ha, Ppu.toNat_dataAddr])
      exact Memory.read_write_index hppu.nt.1 _ k d
    · rw [dataStore_pal hp]
      refine ⟨rfl, Ppu.toNat_incV_v _, fun a ha => ⟨fun _ => ⟨rfl, rfl, rfl, fun k => ?_⟩, fun _ h => by omega, fun h => by omega⟩⟩
      obtain rfl : a = s.ppu.dataAddr := BitVec.eq_of_toNat_eq (by rw [ha, Ppu.toNat_dataAddr])
      exact Memory.read_write_index hppu.pal.1 _ k d

/-! ### OAM DMA -/

/-- The address of the i-th read of a DMA. -/
theorem dmaAddr_eq (page : Byte) (i : Nat) :
    (page.setWidth 16 <<< 8) + BitVec.ofNat 16 i = BitVec.ofNat 16 (page.toNat * 256 + i) := by
  apply BitVec.eq_of_toNat_eq
  have := page.isLt
  simp [Nat.shiftLeft_eq]

theorem busAnswer_eq (s : State) (page : Byte) (bus : List Byte) (i : Nat) : busAnswer s page bus i =
    bus.getD i (Config.cpuBusRead (s.io.busReads + i) (BitVec.ofNat 16 (page.toNat * 256 + i))) := by
  rw [← dmaAddr_eq, List.getD_eq_getElem?_getD, busAnswer]
  cases bus[i]? <;> rfl

/-- What a DMA leaves in OAM: all 256 bytes written, nothing above them. -/
theorem read_dmaCopy_oam (s : State) (page : Byte) (bus : List Byte) {p : Ppu} (hw : Memory.wf p.oam = true)
    (hb : Memory.below 256 p.oam = true) :
    (∀ i, i < 256 → Memory.read (dmaCopy s page bus p).oam ((p.oamAddr.toNat + i) % 256) = busAnswer s page bus i) ∧
      ∀ a, 256 ≤ a → Memory.read (dmaCopy s page bus p).oam a = Memory.read p.oam a := by
  obtain ⟨-, hcopied, hkept⟩ := foldl_oamPush_oam (busAnswer s page bus) p hw hb 256 (Nat.le_refl _)
  exact ⟨hcopied, fun a ha => hkept a fun i _ => by omega⟩

/-- Settles O33: the latch perhaps, then the 256 copies. -/
theorem oamDmaResult : Obligations.OamDmaResult := by
  intro page odd bus s hinv
  have hoam := ((State.inv_iff s).1 hinv).ppu.oam
  have hlatch : (if s.params.dmaWriteUpdatesLatch then { s.ppu with latch := page } else s.ppu) =
      { s.ppu with latch := if s.params.dmaWriteUpdatesLatch then page else s.ppu.latch } := by
    cases s.params.dmaWriteUpdatesLatch <;> rfl
  have hexec := execOamdmaW_eq page odd bus s
  rw [hlatch] at hexec
  obtain ⟨hcopied, hkept⟩ := read_dmaCopy_oam s page bus
    (p := { s.ppu with latch := if s.params.dmaWriteUpdatesLatch then page else s.ppu.latch }) hoam.1 hoam.2
  refine ⟨_, hexec, ?_, rfl, fun i hi => (hcopied i hi).trans (busAnswer_eq s page bus i), hkept⟩
  cases odd <;> rfl

/-! ### Nametables and palette -/

/-- The nametable index inside the 4 KB window: the bank of the table, then the byte in it (20 R90). -/
theorem ntIndex_eq (m : MirrorMode) {a : PpuAddr} (h : 0x2000 ≤ a.toNat) :
    ntIndex m a = (mirrorBank m (a.toNat / 0x400 % 4) % 2) * 0x400 + a.toNat % 0x400 := by
  have htable : (a.toNat - 0x2000) % 0x1000 / 0x400 = a.toNat / 0x400 % 4 := by omega
  have hbyte : (a.toNat - 0x2000) % 0x1000 % 0x400 = a.toNat % 0x400 := by omega
  simp only [ntIndex, htable, hbyte]
  omega

/-- Settles O34: the bank of each of the four tables under each mirror mode. -/
theorem nametableMirroring : Obligations.NametableMirroring := by
  rintro s a h h' table rfl
  rw [ppuRead_nt s h h', ntIndex_eq _ h, Nat.add_comm, Nat.mul_comm]
  have hbank : ∀ m : MirrorMode, ∀ k < 4, mirrorBank m k % 2 =
      match m with
      | .horizontal => if k = 0 ∨ k = 1 then 0 else 1
      | .vertical => if k = 0 ∨ k = 2 then 0 else 1
      | .single0 => 0
      | .single1 => 1
      | .fourScreen => if k = 0 ∨ k = 2 then 0 else 1 := by
    intro m; cases m <;> decide
  refine congrArg (fun b => Memory.read s.ppu.nt (a.toNat % 0x400 + 0x400 * b)) ((hbank _ _ (Nat.mod_lt _ (by decide))).trans ?_)
  cases s.mapper.mirror <;> rfl

/-- Two palette addresses name one cell exactly when they are equal or 16 apart on a multiple of 4 (20 R91). -/
theorem palIndex_eq_iff (i j : BitVec 5) :
    palIndex j = palIndex i ↔ i.toNat = j.toNat ∨ (i.toNat % 4 = 0 ∧ (i.toNat + 16) % 32 = j.toNat) := by
  have := i.isLt
  have := j.isLt
  unfold palIndex
  split <;> split <;> omega

/-- Settles O35: the cell written is read again exactly through its aliases. -/
theorem paletteWriteReadsBack : Obligations.PaletteWriteReadsBack := by
  rintro d s t a hinv hv ha hexec i j rfl rfl
  have hpal := ((State.inv_iff s).1 hinv).ppu.pal.1
  rw [exec_ppudataW, dataStore_pal hv] at hexec
  obtain rfl := Host.Outcome.next.inj hexec
  rw [ppuRead_pal _ ha, ppuRead_pal _ ha]
  refine (Memory.read_write_index hpal _ _ d).trans (ite_congr_iff ?_ rfl rfl)
  rw [palIndex_eq_iff, toNat_palCell, toNat_palCell, Ppu.toNat_dataAddr]
  rw [show s.ppu.v.toNat % 0x4000 % 32 = s.ppu.v.toNat % 32 by omega]

end Sys2Proof.Machine
end

section
/-! The mapper (spec/20 R94 to R98, spec/44, spec/45): reads and writes by range, the registers of each variant, the
counter of VRC2. -/

namespace Sys2Proof.Machine

/-! ### Bits and nibbles as numbers -/

theorem getLsbD_iff {w : Nat} (d : BitVec w) (k : Nat) : d.getLsbD k = true ↔ d.toNat / 2 ^ k % 2 = 1 := by
  rw [← BitVec.testBit_toNat, Nat.testBit_eq_decide_div_mod_eq, decide_eq_true_iff]

/-- A byte is two nibbles. -/
theorem byte_nibbles (d : Byte) : ∃ h l : BitVec 4, d = h ++ l :=
  ⟨d.extractLsb' 4 4, d.extractLsb' 0 4, BitVec.eq_of_toNat_eq (by
    have := d.isLt
    simp only [toNat_append', BitVec.extractLsb'_toNat, Nat.shiftRight_eq_div_pow]
    omega)⟩

theorem setLowNibble_eq (r d : Byte) : setLowNibble r d = (r &&& (0xF#4 ++ 0x0#4)) ||| (d &&& (0x0#4 ++ 0xF#4)) := rfl

theorem setHighNibble_eq (r d : Byte) : setHighNibble r d = (r &&& (0x0#4 ++ 0xF#4)) ||| (d &&& (0x0#4 ++ 0xF#4)) <<< 4 := rfl

theorem and_F (x : BitVec 4) : x &&& 0xF#4 = x := BitVec.and_allOnes

theorem setLowNibble_append (h l h' l' : BitVec 4) : setLowNibble (h ++ l) (h' ++ l') = h ++ l' := by
  rw [setLowNibble_eq, BitVec.and_append, BitVec.and_append, BitVec.or_append]
  simp only [and_F, BitVec.and_zero, BitVec.or_zero, BitVec.zero_or]

theorem setHighNibble_append (h l h' l' : BitVec 4) : setHighNibble (h ++ l) (h' ++ l') = l' ++ l := by
  have hshift : (0x0#4 ++ l' : Byte) <<< 4 = l' ++ 0x0#4 := by
    apply BitVec.eq_of_toNat_eq
    have := l'.isLt
    rw [BitVec.toNat_shiftLeft, toNat_append', toNat_append', Nat.shiftLeft_eq]
    simp
    omega
  rw [setHighNibble_eq, BitVec.and_append, BitVec.and_append, and_F, and_F, BitVec.and_zero, BitVec.and_zero, hshift,
    BitVec.or_append, BitVec.zero_or, BitVec.or_zero]

theorem toNat_setLowNibble (r d : Byte) : (setLowNibble r d).toNat = r.toNat / 16 * 16 + d.toNat % 16 := by
  obtain ⟨h, l, rfl⟩ := byte_nibbles r
  obtain ⟨h', l', rfl⟩ := byte_nibbles d
  have := l.isLt
  have := l'.isLt
  rw [setLowNibble_append]
  simp only [toNat_append']
  omega

theorem toNat_setHighNibble (r d : Byte) : (setHighNibble r d).toNat = d.toNat % 16 * 16 + r.toNat % 16 := by
  obtain ⟨h, l, rfl⟩ := byte_nibbles r
  obtain ⟨h', l', rfl⟩ := byte_nibbles d
  have := l.isLt
  have := l'.isLt
  rw [setHighNibble_append]
  simp only [toNat_append']
  omega

/-! ### Reads and writes of the index space -/

theorem mapperRead_low (s : State) {i : CpuAddr} (h : 0x2000 ≤ i.toNat) (h' : i.toNat < 0x6000) :
    mapperRead s i = i.extractLsb' 8 8 := by
  rw [mapperRead, if_neg (by omega), if_pos h']

theorem mapperRead_sram (s : State) {i : CpuAddr} (h : 0x6000 ≤ i.toNat) (h' : i.toNat < 0x8000) :
    mapperRead s i = Memory.read s.cart.sram ((i.toNat - 0x6000) % s.params.sramLen) := by
  rw [mapperRead, if_neg (by omega), if_neg (by omega), if_pos h', sramIndex]

theorem mapperRead_prg (s : State) {i : CpuAddr} (h : 0x8000 ≤ i.toNat) : mapperRead s i = Memory.read s.params.prg (prgIndex s i) := by
  rw [mapperRead, if_neg (by omega), if_neg (by omega), if_neg (by omega), prgRead]

theorem prgIndex_axrom {s : State} {bank : BitVec 3} (h : s.mapper.regs = .axrom bank) (i : CpuAddr) :
    prgIndex s i = bank.toNat % (s.params.prgLen / 0x8000) * 0x8000 + (i.toNat - 0x8000) := by
  simp only [prgIndex, h, bankIndex]

/-- The last banks are inside the ROM, so the reduction leaves their numbers. -/
theorem sub_mod_self_of_pos {n k : Nat} (hk : 0 < k) : (n - k) % n = n - k := by
  rcases Nat.eq_zero_or_pos n with rfl | hn
  · simp
  · exact Nat.mod_eq_of_lt (by omega)

/-- The four windows of VRC2 (45 R313). -/
theorem prgIndex_vrc2 {s : State} {rev : Revision} {v : Vrc2Regs} (h : s.mapper.regs = .vrc2 rev v) {i : CpuAddr}
    (hi : 0x8000 ≤ i.toNat) :
    prgIndex s i = i.toNat % 0x2000 + 0x2000 *
      (if i.toNat < 0xA000 then v.prgBank0.toNat % (s.params.prgLen / 0x2000)
       else if i.toNat < 0xC000 then v.prgBank1.toNat % (s.params.prgLen / 0x2000)
       else if i.toNat < 0xE000 then s.params.prgLen / 0x2000 - 2
       else s.params.prgLen / 0x2000 - 1) := by
  have hlt := i.isLt
  have hoff : (i.extractLsb' 0 13).toNat = i.toNat % 0x2000 := by simp
  have hwin : (i.extractLsb' 13 2).toNat = i.toNat / 0x2000 % 4 := by simp [Nat.shiftRight_eq_div_pow]
  simp only [prgIndex, h, bankIndex, hoff, hwin]
  rw [Nat.add_comm, Nat.mul_comm]
  congr 2
  rcases (by omega : i.toNat / 0x2000 = 4 ∨ i.toNat / 0x2000 = 5 ∨ i.toNat / 0x2000 = 6 ∨ i.toNat / 0x2000 = 7) with
    hw | hw | hw | hw <;> simp only [hw]
  · rw [if_pos (by omega)]
  · rw [if_neg (by omega), if_pos (by omega)]
  · rw [if_neg (by omega), if_neg (by omega), if_pos (by omega), sub_mod_self_of_pos (by decide)]
  · rw [if_neg (by omega), if_neg (by omega), if_neg (by omega), sub_mod_self_of_pos (by decide)]

/-- Settles O36: by the range of the address. -/
theorem mapperReadResult : Obligations.MapperReadResult := by
  intro s addr _ hwf
  have h0 : 0x4020 ≤ addr.toNat := of_decide_eq_true hwf
  have hlt := addr.isLt
  refine ⟨_, execMapR_eq addr s, fun h => ?_, fun h h' => mapperRead_sram s h h', fun h bank hr => ?_, fun h rev v hr => ?_⟩
  · rw [mapperRead_low s (by omega) h]
    simp [Nat.shiftRight_eq_div_pow]
    omega
  · rw [mapperRead_prg s h, prgIndex_axrom hr]
  · rw [mapperRead_prg s h, prgIndex_vrc2 hr h]

/-- Settles O37: by the range of the address. -/
theorem mapperWriteResult : Obligations.MapperWriteResult := by
  intro s addr d hinv hwf
  obtain ⟨⟨hsram, -⟩, -⟩ := (Cart.inv_iff _ _).1 ((State.inv_iff s).1 hinv).cart
  obtain ⟨h0, h1⟩ : 0x4020 ≤ addr.toNat ∧ addr.toNat < 0x8000 := by
    rw [Instr.wf, Bool.and_eq_true, decide_eq_true_iff, decide_eq_true_iff] at hwf
    exact hwf
  have hexec : exec (.mapW addr d) s = _ := execMapW_eq addr d s
  rcases mapperWrite_cases s addr d with ⟨h, _⟩ | ⟨_, h, e⟩ | ⟨h, _, e⟩ | ⟨h, _⟩
  · omega
  · exact ⟨fun _ => by rw [hexec, e]; rfl, fun h' => by omega⟩
  · refine ⟨fun h' => by omega, fun _ => ⟨_, hexec, ?_⟩⟩
    rw [e]
    exact ⟨rfl, fun k => Memory.read_write_index hsram _ k d⟩
  · omega

/-! ### AxROM -/

theorem exec_axRegW {s : State} {bank : BitVec 3} (h : s.mapper.regs = .axrom bank) (d : Byte) :
    exec (.axRegW d) s = .next (axRegWrite s bank d) := by
  show execAxRegW d s = _
  rw [execAxRegW, h]

theorem decodeMapperWrite_axrom {s : State} {bank : BitVec 3} (h : s.mapper.regs = .axrom bank) (a : CpuAddr) (d : Byte) :
    decodeMapperWrite s.decodeCtx a d = .axRegW d := by
  have hv : s.decodeCtx.variant = .axrom := by show s.mapper.regs.variant = _; rw [h]; rfl
  rw [decodeMapperWrite, hv]

/-- The bank-switch signal, exactly when the bank changes. -/
theorem ite_bne {w : Nat} (new old : BitVec w) (e : Event) :
    (if new != old then [e] else []) = if new = old then [] else [e] := by
  by_cases h : new = old <;> simp [h]

/-- Settles O38: the register's write in one equation, its bits as numbers. -/
theorem axRomRegisterWrite : Obligations.AxRomRegisterWrite := by
  intro s bank addr d hr ha
  refine ⟨by rw [decode_mapperWrite _ ha, decodeMapperWrite_axrom hr], _, d.extractLsb' 0 3, exec_axRegW hr d, by simp, ?_⟩
  have hmirror : (if d.getLsbD 4 then MirrorMode.single1 else .single0) = if d.toNat / 16 % 2 = 1 then .single1 else .single0 :=
    ite_congr_iff (getLsbD_iff d 4) rfl rfl
  rw [axRegWrite, State.emitIf_eq, ite_bne, hmirror]
  rfl

/-! ### The registers of VRC2 -/

/-- Settles O39: each write in one equation. -/
theorem vrc2BankAndMirrorWrites : Obligations.Vrc2BankAndMirrorWrites := by
  intro s rev r d hr
  refine ⟨⟨_, d.extractLsb' 0 5, onVrc2_eq hr, by simp, ?_⟩, ⟨_, d.extractLsb' 0 5, onVrc2_eq hr, by simp, ?_⟩, ?_⟩
  · rw [v2Prg0Write, State.emitIf_eq, ite_bne]; rfl
  · rw [v2Prg1Write, State.emitIf_eq, ite_bne]; rfl
  · refine (onVrc2_eq hr).trans ?_
    have hmirror : (if d.getLsbD 0 then MirrorMode.horizontal else .vertical) = if d.toNat % 2 = 1 then .horizontal else .vertical :=
      ite_congr_iff (by rw [getLsbD_iff]; simp) rfl rfl
    rw [v2MirrorWrite, hmirror]; rfl

theorem chrReg_get_eq_getElem (v : Vector Byte 8) (k : Fin 8) : v.get k = v[k.val] := rfl

/-- The register a group and sub-register select (45 R318). -/
theorem toNat_chrRegNumber : ∀ (group : BitVec 4) (sub : BitVec 2), 0xB ≤ group.toNat → group.toNat ≤ 0xE →
    (chrRegNumber group sub).toNat = (group.toNat - 0xB) * 2 + sub.toNat / 2 := by decide

/-- Settles O40: the one register set, its nibble by `sub[0]`. -/
theorem vrc2CharacterBankWrite : Obligations.Vrc2CharacterBankWrite := by
  intro s rev r group sub d hr hwf
  obtain ⟨h0, h1⟩ : 0xB ≤ group.toNat ∧ group.toNat ≤ 0xE := by
    rw [Instr.wf, Bool.and_eq_true, decide_eq_true_iff, decide_eq_true_iff] at hwf
    exact hwf
  refine ⟨_, onVrc2_eq hr, rfl, fun k => ?_⟩
  have hk := toNat_chrRegNumber group sub h0 h1
  have hset : ∀ new, ((r.chrReg.set (chrRegNumber group sub).toFin new).get k) =
      if k.val = (group.toNat - 0xB) * 2 + sub.toNat / 2 then new else r.chrReg.get k := by
    intro new
    rw [chrReg_get_eq_getElem, Vector.getElem_set, chrReg_get_eq_getElem]
    exact ite_congr_iff (by rw [← hk]; exact eq_comm) rfl rfl
  rw [hset]
  split
  · next hkk =>
    have hsame : r.chrReg.get (chrRegNumber group sub).toFin = r.chrReg.get k := congrArg _ (Fin.ext (hk.trans hkk.symm))
    rw [hsame]
    have hbit := getLsbD_iff sub 0
    rw [Nat.pow_zero, Nat.div_one] at hbit
    by_cases hs : sub.toNat % 2 = 0
    · rw [if_neg (by rw [hbit]; omega), if_pos hs, toNat_setLowNibble]
    · rw [if_pos (by rw [hbit]; omega), if_neg hs, toNat_setHighNibble]
  · rfl

/-- Settles O41: `ChrRead` with the bank arithmetic written out. -/
theorem characterDataIsBanked : Obligations.CharacterDataIsBanked := by
  rintro s a chr ha rfl
  rw [ppuRead_chr s ha, chrRead, chrData]
  constructor
  · intro bank hr
    simp only [chrIndex, hr, toNat_setWidth16]
  · intro rev r k hr hk
    have hreg : ((a.setWidth 16).extractLsb' 10 3).toFin = k := by
      apply Fin.ext
      rw [hk, ← toNat_setWidth16]
      show ((a.setWidth 16).extractLsb' 10 3).toNat = _
      have := toNat_setWidth16 a
      rw [BitVec.extractLsb'_toNat, Nat.shiftRight_eq_div_pow]
      omega
    have hoff : ((a.setWidth 16).extractLsb' 0 10).toNat = a.toNat % 0x400 := by
      rw [BitVec.extractLsb'_toNat, toNat_setWidth16]; rfl
    simp only [chrIndex, hr, hreg, hoff, bankIndex]
    rw [Nat.add_comm, Nat.mul_comm]
    cases rev
    · simp only [chrBank, BitVec.toNat_ushiftRight, Nat.shiftRight_eq_div_pow, Nat.pow_one]
    · rfl

/-- Settles O42: each write in one equation, the nibbles as numbers. -/
theorem vrc2IrqReloadAndControlWrites : Obligations.Vrc2IrqReloadAndControlWrites := by
  intro s rev r d hr
  exact ⟨⟨_, toNat_setLowNibble r.irqReload d, onVrc2_eq hr⟩, ⟨_, toNat_setHighNibble r.irqReload d, onVrc2_eq hr⟩, onVrc2_eq hr⟩

/-! ### Words and `MapperWrite` -/

theorem decodeMapperWrite_vrc2 {s : State} {rev : Revision} {r : Vrc2Regs} (h : s.mapper.regs = .vrc2 rev r) (a : CpuAddr) (d : Byte) :
    decodeMapperWrite s.decodeCtx a d = decodeVrc2Write (a.extractLsb' 12 4) (vrc2Sub s.params.vrc2AddrMode rev a) d := by
  have hv : s.decodeCtx.variant = (MapperRegs.vrc2 rev r).variant := by show s.mapper.regs.variant = _; rw [h]
  rw [decodeMapperWrite, hv]
  cases rev <;> rfl

/-- The instruction the decoder gives for a VRC2 register does what `MapperWrite` does there (45 R312). -/
theorem exec_decodeVrc2Write {s : State} {rev : Revision} {r : Vrc2Regs} (h : s.mapper.regs = .vrc2 rev r) (a : CpuAddr) (d : Byte) :
    exec (decodeVrc2Write (a.extractLsb' 12 4) (vrc2Sub s.params.vrc2AddrMode rev a) d) s = .next (v2RegWrite s rev r a d) := by
  unfold decodeVrc2Write v2RegWrite
  simp only
  generalize a.extractLsb' 12 4 = group
  generalize vrc2Sub s.params.vrc2AddrMode rev a = sub
  by_cases h8 : group = 0x8
  · subst h8; exact onVrc2_eq h
  by_cases h9 : group = 0x9
  · subst h9; exact onVrc2_eq h
  by_cases hA : group = 0xA
  · subst hA; exact onVrc2_eq h
  by_cases hF : group = 0xF
  · subst hF
    rcases (by omega : sub.toNat = 0 ∨ sub.toNat = 1 ∨ sub.toNat = 2 ∨ sub.toNat = 3) with hs | hs | hs | hs
    all_goals
      simp only [hs]
      exact onVrc2_eq h
  · rw [if_neg h8, if_neg h9, if_neg hA, if_neg hF]
    split
    · exact absurd (BitVec.eq_of_toNat_eq ‹_›) h8
    · exact absurd (BitVec.eq_of_toNat_eq ‹_›) h9
    · exact absurd (BitVec.eq_of_toNat_eq ‹_›) hA
    · exact absurd (BitVec.eq_of_toNat_eq ‹_›) hF
    · exact onVrc2_eq h

theorem toNat_vrc2Raw (mode : Vrc2AddrMode) (a : CpuAddr) : (vrc2Raw mode a).toNat =
    match mode with
    | .fixedF003 => a.toNat % 4
    | .heuristicF00F => if a.toNat % 4 < a.toNat / 4 % 4 then a.toNat / 4 % 4 else a.toNat % 4 := by
  have h0 : (a.extractLsb' 0 2).toNat = a.toNat % 4 := by simp
  have h2 : (a.extractLsb' 2 2).toNat = a.toNat / 4 % 4 := by simp [Nat.shiftRight_eq_div_pow]
  cases mode with
  | fixedF003 => exact h0
  | heuristicF00F => rw [vrc2Raw, apply_ite BitVec.toNat, h0, h2]

theorem toNat_swap2 : ∀ raw : BitVec 2, (swap2 raw).toNat = raw.toNat % 2 * 2 + raw.toNat / 2 := by decide

/-- The sub-register of an address, as a number (30 R144). -/
theorem toNat_vrc2Sub (mode : Vrc2AddrMode) (rev : Revision) (a : CpuAddr) : (vrc2Sub mode rev a).toNat =
    match rev with
    | .a => (vrc2Raw mode a).toNat % 2 * 2 + (vrc2Raw mode a).toNat / 2
    | .b => (vrc2Raw mode a).toNat := by
  cases rev
  · exact toNat_swap2 _
  · rfl

/-- The VRC2 register of an address, by its range (30 R143). -/
theorem decodeVrc2Write_byRange {a : CpuAddr} (ha : 0x8000 ≤ a.toNat) (sub : BitVec 2) (d : Byte) :
    decodeVrc2Write (a.extractLsb' 12 4) sub d =
      if a.toNat < 0x9000 then .v2Prg0W d
      else if a.toNat < 0xA000 then .v2MirrorW d
      else if a.toNat < 0xB000 then .v2Prg1W d
      else if a.toNat < 0xF000 then .v2ChrW (BitVec.ofNat 4 (a.toNat / 0x1000)) (BitVec.ofNat 2 sub.toNat) d
      else if sub.toNat = 0 then .v2IrqLatchLoW d
      else if sub.toNat = 1 then .v2IrqLatchHiW d
      else if sub.toNat = 2 then .v2IrqCtrlW d
      else .v2IrqAckW := by
  have hg := toNat_group a
  have hgroup : ∀ k : BitVec 4, a.extractLsb' 12 4 = k ↔ a.toNat / 0x1000 = k.toNat := by
    intro k; rw [BitVec.toNat_eq, hg]
  have hlt := a.isLt
  simp only [decodeVrc2Write, hgroup, BitVec.ofNat_toNat, BitVec.setWidth_eq]
  refine ite_congr (by simp; omega) (fun _ => rfl) fun h8 => ite_congr (by simp; omega) (fun _ => rfl) fun h9 =>
    ite_congr (by simp; omega) (fun _ => rfl) fun hA => ?_
  by_cases hF : a.toNat < 0xF000
  · rw [if_neg (by simp; omega), if_pos hF, ← hg, BitVec.ofNat_toNat, BitVec.setWidth_eq]
  · rw [if_pos (by simp; omega), if_neg hF]
    rcases (by omega : sub.toNat = 0 ∨ sub.toNat = 1 ∨ sub.toNat = 2 ∨ sub.toNat = 3) with hs | hs | hs | hs <;> rw [hs] <;> rfl

/-- Settles O44: what the decoder gives is the register `MapperWrite` selects. -/
theorem registerWritesAreMapperWrites : Obligations.RegisterWritesAreMapperWrites := by
  intro s addr d ha
  have hmap : exec (.mapW addr d) s = .next (mapperRegWrite s addr d) := by
    rcases mapperWrite_cases s addr d with ⟨h, _⟩ | ⟨_, h, _⟩ | ⟨_, h, _⟩ | ⟨_, e⟩
    iterate 3 omega
    exact (execMapW_eq addr d s).trans (congrArg _ e)
  constructor
  · refine ⟨_, _, decode_mapperWrite _ ha d [], ?_, hmap⟩
    cases hr : s.mapper.regs with
    | axrom bank => rw [decodeMapperWrite_axrom hr, exec_axRegW hr, mapperRegWrite, hr]
    | vrc2 rev r => rw [decodeMapperWrite_vrc2 hr, exec_decodeVrc2Write hr, mapperRegWrite, hr]
  · rintro rev r raw sub hr hraw hsub
    obtain rfl : raw = (vrc2Raw s.params.vrc2AddrMode addr).toNat := hraw.trans (toNat_vrc2Raw _ _).symm
    have hsub' : (vrc2Sub s.params.vrc2AddrMode rev addr).toNat = sub := (toNat_vrc2Sub _ _ _).trans hsub.symm
    rw [decode_mapperWrite _ ha, decodeMapperWrite_vrc2 hr, decodeVrc2Write_byRange ha, hsub']

/-! ### Registers of another variant -/

theorem onVrc2_refused {s : State} {bank : BitVec 3} (h : s.mapper.regs = .axrom bank) (mnemonic : String)
    (f : Revision → Vrc2Regs → State) : onVrc2 mnemonic s f = .refused (.absentRegister mnemonic) := by
  rw [onVrc2, h]

/-- Settles O45: the AxROM register asks for AxROM, every VRC2 register for VRC2. -/
theorem registersOfAnotherVariantAreRefused : Obligations.RegistersOfAnotherVariantAreRefused := by
  constructor
  · intro s rev r d hr
    show execAxRegW d s = _
    rw [execAxRegW, hr]
  · rintro s bank i hr (⟨d, rfl | rfl | rfl | rfl | rfl | rfl⟩ | rfl | ⟨group, sub, d, rfl⟩)
    all_goals exact onVrc2_refused hr _ _

/-! ### The counter of VRC2 -/

/-- A tick that clocks the counter (45 R331). -/
def Vrc2Regs.counts (r : Vrc2Regs) : Prop :=
  r.irqDiv3 = 2 ∧ r.irqEnable = true ∧ (r.irqCycleMode = true ∨ r.irqPrescaler = 340)

/-- The registers with the two dividers moved by a tick (45 R330, R331). -/
def Vrc2Regs.divided (r : Vrc2Regs) : Vrc2Regs :=
  { r with
    irqDiv3 := if r.irqDiv3 = 2 then 0 else r.irqDiv3 + 1
    irqPrescaler := if r.irqDiv3 = 2 ∧ r.irqEnable = true ∧ r.irqCycleMode = false then
      (if r.irqPrescaler = 340 then 0 else r.irqPrescaler + 1) else r.irqPrescaler }

theorem irqTick_of_not_counts {r : Vrc2Regs} (h : ¬ r.counts) : irqTick r = (r.divided, false) := by
  by_cases hd : r.irqDiv3 = 2
  · cases he : r.irqEnable
    · rw [irqTick_disabled hd he, Vrc2Regs.divided, if_pos hd, if_neg (by simp [he])]
    · cases hm : r.irqCycleMode
      · have hp : r.irqPrescaler ≠ 340 := fun hp => h ⟨hd, he, .inr hp⟩
        rw [irqTick_prescales hd he hm hp, Vrc2Regs.divided, if_pos hd, if_pos ⟨hd, he, hm⟩, if_neg hp]
      · exact absurd ⟨hd, he, .inl hm⟩ h
  · rw [irqTick_waits hd, Vrc2Regs.divided, if_neg hd, if_neg fun h => hd h.1]

theorem irqTick_of_counts {r : Vrc2Regs} (h : r.counts) : irqTick r = clockCounter r.divided := by
  obtain ⟨hd, he, hcount⟩ := h
  cases hm : r.irqCycleMode
  · have hp : r.irqPrescaler = 340 := hcount.resolve_left (by rw [hm]; decide)
    rw [irqTick_prescaled hd he hm hp, Vrc2Regs.divided, if_pos hd, if_pos ⟨hd, he, hm⟩, if_pos hp]
  · rw [irqTick_cycleMode hd he hm, Vrc2Regs.divided, if_pos hd, if_neg (by simp [hm])]

/-- Counting or not, a tick moves the dividers alike. -/
theorem irqTick_dividers (r : Vrc2Regs) :
    (irqTick r).1.irqDiv3 = r.divided.irqDiv3 ∧ (irqTick r).1.irqPrescaler = r.divided.irqPrescaler := by
  by_cases h : r.counts
  · rw [irqTick_of_counts h, clockCounter_eq]; exact ⟨rfl, rfl⟩
  · rw [irqTick_of_not_counts h]; exact ⟨rfl, rfl⟩

theorem toNat_div3_succ : ∀ d : BitVec 2, d.toNat ≤ 2 → (if d = 2 then 0 else d + 1).toNat = (d.toNat + 1) % 3 := by decide

theorem toNat_prescaler_succ {p : BitVec 9} (h : p.toNat ≤ 340) : (if p = 340 then 0 else p + 1).toNat = (p.toNat + 1) % 341 := by
  by_cases hp : p = 340
  · subst hp; rfl
  · have hne : p.toNat ≠ 340 := fun he => hp (BitVec.eq_of_toNat_eq he)
    rw [if_neg hp, BitVec.toNat_add, show (1 : BitVec 9).toNat = 1 from rfl]
    omega

/-- Settles O47: the dividers, then the counter in the two cases. -/
theorem vrc2TickResult : Obligations.Vrc2TickResult := by
  intro s rev r hr hinv
  have hregs := ((State.inv_iff s).1 hinv).regs
  rw [hr, MapperRegs.inv, Bool.and_eq_true, decide_eq_true_iff, decide_eq_true_iff] at hregs
  obtain ⟨hdiv, hpre⟩ := irqTick_dividers r
  refine ⟨(irqTick r).1, if (irqTick r).2 then [.irqTrigger] else [], ?_, irqTick_frame r, ?_, ?_, ?_⟩
  · rw [exec_mapperTick, mapperTick_vrc2 hr]
  · rw [hdiv]; exact toNat_div3_succ _ hregs.2
  · rw [hpre, Vrc2Regs.divided, apply_ite BitVec.toNat, toNat_prescaler_succ hregs.1]
  · intro counts hcounts
    refine ⟨fun h => ?_, fun h hc => ?_, fun h hc => ?_⟩
    · rw [irqTick_of_not_counts (mt hcounts.2 h)]
      exact ⟨rfl, rfl, rfl⟩
    · have hcc : r.divided.irqCounter ≠ 0xFF := hc
      have hne : r.irqCounter.toNat ≠ 255 := fun he => hc (BitVec.eq_of_toNat_eq he)
      rw [irqTick_of_counts (hcounts.1 h), clockCounter_eq, if_neg hcc, beq_eq_false_iff_ne.2 hcc]
      refine ⟨?_, Bool.or_false _, rfl⟩
      show (r.irqCounter + 1).toNat = _
      rw [BitVec.toNat_add, show (1 : BitVec 8).toNat = 1 from rfl]
      omega
    · have hcc : r.divided.irqCounter = 0xFF := hc
      rw [irqTick_of_counts (hcounts.1 h), clockCounter_eq, if_pos hcc, hcc]
      refine ⟨rfl, Bool.or_true _, ?_⟩
      show (if (true && !r.irqTriggered) = true then [Event.irqTrigger] else []) = _
      cases r.irqTriggered <;> rfl

/-! ### Many ticks -/

/-- One more run of an instruction that ran `n` times. -/
theorem execTimes_succ_of_next {i : Instr} {n : Nat} {s t : State} (h : execTimes i n s = .next t) :
    execTimes i (n + 1) s = exec i t := by
  induction n generalizing s with
  | zero =>
    obtain rfl : s = t := Host.Outcome.next.inj h
    rw [execTimes]
    cases exec i s <;> rfl
  | succ n ih =>
    rw [execTimes] at h ⊢
    cases hs : exec i s with
    | next u => rw [hs] at h; exact ih h
    | fault e => rw [hs] at h; cases h
    | refused e => rw [hs] at h; cases h

/-- The registers `n` ticks after both dividers stood at zero, before the counter is clocked. -/
def Vrc2Regs.afterTicks (r : Vrc2Regs) (n : Nat) : Vrc2Regs :=
  { r with irqDiv3 := BitVec.ofNat 2 (n % 3), irqPrescaler := BitVec.ofNat 9 (n / 3) }

theorem ofNat_eq_iff {w n : Nat} (hn : n < 2 ^ w) (k : BitVec w) : BitVec.ofNat w n = k ↔ n = k.toNat := by
  rw [BitVec.toNat_eq, BitVec.toNat_ofNat, Nat.mod_eq_of_lt hn]

theorem Vrc2Regs.afterTicks_div3 (r : Vrc2Regs) (n : Nat) : (r.afterTicks n).irqDiv3 = 2 ↔ n % 3 = 2 :=
  ofNat_eq_iff (by omega) 2

theorem Vrc2Regs.afterTicks_prescaler (r : Vrc2Regs) {n : Nat} (hn : n ≤ 1022) : (r.afterTicks n).irqPrescaler = 340 ↔ n / 3 = 340 :=
  ofNat_eq_iff (by omega) 340

theorem Vrc2Regs.divided_afterTicks {r : Vrc2Regs} (he : r.irqEnable = true) (hm : r.irqCycleMode = false) {n : Nat} (hn : n < 1022) :
    (r.afterTicks n).divided = r.afterTicks (n + 1) := by
  have hpre := r.afterTicks_prescaler (Nat.le_of_lt hn)
  by_cases h : n % 3 = 2
  · have hd := (r.afterTicks_div3 n).2 h
    rw [divided, if_pos hd, if_pos ⟨hd, he, hm⟩, if_neg (by rw [hpre]; omega), afterTicks, afterTicks,
      show (n + 1) % 3 = 0 by omega, show (n + 1) / 3 = n / 3 + 1 by omega, BitVec.ofNat_add]
    rfl
  · have hd := mt (r.afterTicks_div3 n).1 h
    rw [divided, if_neg hd, if_neg fun h => hd h.1, afterTicks, afterTicks,
      show (n + 1) % 3 = n % 3 + 1 by omega, show (n + 1) / 3 = n / 3 by omega, BitVec.ofNat_add]
    rfl

/-- A tick before the 1023rd moves the dividers only (45 R332). -/
theorem irqTick_afterTicks {r : Vrc2Regs} (he : r.irqEnable = true) (hm : r.irqCycleMode = false) {n : Nat} (hn : n < 1022) :
    irqTick (r.afterTicks n) = (r.afterTicks (n + 1), false) := by
  have hcounts : ¬ (r.afterTicks n).counts := by
    rintro ⟨hd, _, hcycle | hp⟩
    · exact absurd hm (by rw [show r.irqCycleMode = true from hcycle]; decide)
    · rw [r.afterTicks_div3] at hd
      rw [r.afterTicks_prescaler (Nat.le_of_lt hn)] at hp
      omega
  rw [irqTick_of_not_counts hcounts, Vrc2Regs.divided_afterTicks he hm hn]

/-- The first 1022 ticks (45 R332). -/
theorem execTimes_mapperTick {s : State} {rev : Revision} {r : Vrc2Regs} (hr : s.mapper.regs = .vrc2 rev r) (he : r.irqEnable = true)
    (hm : r.irqCycleMode = false) (hd : r.irqDiv3 = 0) (hp : r.irqPrescaler = 0) {n : Nat} (hn : n ≤ 1022) :
    execTimes .mapperTick n s = .next (s.setRegs (.vrc2 rev (r.afterTicks n))) := by
  induction n with
  | zero =>
    have h0 : r.afterTicks 0 = r := by
      show { r with irqDiv3 := 0, irqPrescaler := 0 } = r
      rw [← hd, ← hp]
    rw [h0, ← hr]; rfl
  | succ n ih =>
    rw [execTimes_succ_of_next (ih (by omega)), exec_mapperTick, mapperTick_vrc2 rfl, irqTick_afterTicks he hm (by omega)]
    simp [State.setRegs]

/-- Settles O48: 1022 ticks of the dividers, then the one that clocks the counter. -/
theorem scanlineModeCountsEvery1023Ticks : Obligations.ScanlineModeCountsEvery1023Ticks := by
  intro s rev r hr he hm hd hp
  refine ⟨fun n hn => ⟨_, _, execTimes_mapperTick hr he hm hd hp hn, rfl, rfl, rfl⟩, _,
    execTimes_succ_of_next (execTimes_mapperTick hr he hm hd hp (Nat.le_refl _)), ?_⟩
  have hcounts : (r.afterTicks 1022).counts := ⟨rfl, he, .inr rfl⟩
  have hdivided : (r.afterTicks 1022).divided = r := by
    rw [Vrc2Regs.divided, if_pos hcounts.1, if_pos ⟨hcounts.1, he, hm⟩,
      if_pos ((r.afterTicks_prescaler (Nat.le_refl _)).2 rfl), ← hd, ← hp]
    rfl
  rw [mapperTick_vrc2 rfl, irqTick_of_counts hcounts, hdivided, clockCounter_eq]
  have hevent : (if (r.irqCounter == 0xFF && !r.irqTriggered) = true then [Event.irqTrigger] else []) =
      if r.irqCounter = 0xFF ∧ r.irqTriggered = false then [.irqTrigger] else [] :=
    ite_congr_iff (by rw [Bool.and_eq_true, beq_iff_eq, Bool.not_eq_true']) rfl rfl
  rw [hevent]
  rfl

end Sys2Proof.Machine
end

section
/-! PPU_STEP (spec/41): where it goes, what it does with rendering disabled, vblank, the NMI delay, and the positions at
which it renders. -/

namespace Sys2Proof.Machine

/-! ### The position -/

theorem Ppu.skips_iff (p : Ppu) : p.skips = true ↔
    (p.mask.showBg = true ∨ p.mask.showSpr = true) ∧ p.f = false ∧ p.scanline.toNat = 261 ∧ p.cycle.toNat = 339 := by
  have hl : p.scanline = 261 ↔ p.scanline.toNat = 261 := BitVec.toNat_eq
  have hc : p.cycle = 339 ↔ p.cycle.toNat = 339 := BitVec.toNat_eq
  simp only [Ppu.skips, Ppu.renderingEnabled, Bool.and_eq_true, Bool.or_eq_true, Bool.not_eq_true', beq_iff_eq, hl, hc, and_assoc]

theorem Ppu.advance_skip {p : Ppu} (h : p.skips = true) : p.advance.dot = 0 ∧ p.advance.f = true ∧ p.advance.cycle.toNat ≤ 340 := by
  have hzero : (0 : BitVec 9).toNat = 0 := rfl
  rw [Ppu.advance, if_pos h]
  refine ⟨?_, rfl, Nat.zero_le 340⟩
  show (0 : BitVec 9).toNat * 341 + (0 : BitVec 9).toNat = 0
  rw [hzero]

/-- Without the skip the position is the next of 262 lines of 341 cycles (41 R203). -/
theorem Ppu.advance_dot {p : Ppu} (hs : p.skips = false) (hl : p.scanline.toNat ≤ 261) (hc : p.cycle.toNat ≤ 340) :
    p.advance.dot = (p.dot + 1) % 89342 ∧ p.advance.f = (if p.dot = 89341 then !p.f else p.f) ∧ p.advance.cycle.toNat ≤ 340 := by
  have hdot : p.dot = p.scanline.toNat * 341 + p.cycle.toNat := rfl
  have hzero : (0 : BitVec 9).toNat = 0 := rfl
  have hsucc : ∀ k : BitVec 9, k.toNat ≤ 340 → (k + 1).toNat = k.toNat + 1 := by
    intro k hk
    rw [BitVec.toNat_add, show (1 : BitVec 9).toNat = 1 from rfl]; omega
  rw [Ppu.advance, hs, if_neg (by decide)]
  by_cases hcycle : p.cycle.toNat < 340
  · rw [if_pos hcycle]
    refine ⟨?_, (if_neg (by omega)).symm, ?_⟩
    · show p.scanline.toNat * 341 + (p.cycle + 1).toNat = _
      rw [hsucc _ hc]; omega
    · show (p.cycle + 1).toNat ≤ 340
      rw [hsucc _ hc]; omega
  · rw [if_neg hcycle]
    by_cases hline : p.scanline.toNat < 261
    · rw [if_pos hline]
      refine ⟨?_, (if_neg (by omega)).symm, Nat.zero_le 340⟩
      show (p.scanline + 1).toNat * 341 + (0 : BitVec 9).toNat = _
      rw [hsucc _ (by omega), hzero]; omega
    · have hlast : p.dot = 89341 := by omega
      rw [if_neg hline, hlast]
      exact ⟨by simp [Ppu.dot], (if_pos rfl).symm, Nat.zero_le 340⟩

theorem ppuStep_dot (s : State) : (ppuStep s).ppu.dot = s.ppu.advance.dot := by
  obtain ⟨hl, hc, -⟩ := ppuStep_position s
  rw [Ppu.dot, Ppu.dot, hl, hc]

theorem ppuStep_sameCpuSide (s : State) : s.ppu.sameCpuSide (ppuStep s).ppu := by
  refine ⟨?_, ?_, ?_, ?_, ?_, ?_, ?_, ?_, ?_, ?_, ?_⟩ <;> rw [ppuStep_frame]

/-- Settles O49: the position is that of `Advance`, with the skip and without it. -/
theorem ppuStepMovesThePosition : Obligations.PpuStepMovesThePosition := by
  intro s hinv
  obtain ⟨hl, hc, -⟩ := ((State.inv_iff s).1 hinv).ppu
  obtain ⟨-, hcycle, hf⟩ := ppuStep_position s
  refine ⟨_, exec_ppuStep s, ppuStep_onlyPpuAndOutputs s, ppuStep_sameCpuSide s, ?_, fun skip hskip => ⟨fun h => ?_, fun h => ?_⟩⟩
  · rw [hcycle]
    cases hs : s.ppu.skips
    · exact (Ppu.advance_dot hs hl hc).2.2
    · exact (Ppu.advance_skip hs).2.2
  · obtain ⟨hdot, hparity, -⟩ := Ppu.advance_skip ((Ppu.skips_iff _).2 (hskip.1 h))
    rw [ppuStep_dot, hf]
    exact ⟨hdot, hparity⟩
  · have hs : s.ppu.skips = false := Bool.eq_false_iff.2 fun hs => h (hskip.2 ((Ppu.skips_iff _).1 hs))
    obtain ⟨hdot, hparity, -⟩ := Ppu.advance_dot hs hl hc
    rw [ppuStep_dot, hf]
    exact ⟨hdot, hparity⟩

/-! ### What the actions find -/

theorem State.arrivesAt.ppuStep_eq {s : State} {l c : Nat} (h : s.arrivesAt l c) : Machine.ppuStep s = positionActions l c s.arrived := by
  obtain ⟨hl, hc⟩ := h.ppuStep
  rw [ppuStep_eq_positionActions, hl, hc]

/-- The detector after the countdown. -/
theorem arrived_nmi (s : State) : s.arrived.ppu.nmi = (s.ppu.nmiOccurred, s.ppu.nmiPrevious, s.countedDelay) := by
  rw [arrived_ppu]; rfl

theorem nmiKept_of_nmi {s t : State} (h : t.ppu.nmi = s.arrived.ppu.nmi) : s.nmiKept t := by
  rw [arrived_nmi] at h
  unfold State.nmiKept
  simpa only [Ppu.nmi, Prod.mk.injEq] using h

/-- Off the two positions of vblank a step keeps the flag and the line and counts the delay (41 R201, R210, R211). -/
theorem ppuStep_nmiKept {s : State} {l c : Nat} (hl : (ppuStep s).ppu.scanline.toNat = l) (hc : (ppuStep s).ppu.cycle.toNat = c)
    (h1 : ¬ (l = 241 ∧ c = 1)) (h2 : ¬ (l = 261 ∧ c = 1)) : s.nmiKept (ppuStep s) := by
  apply nmiKept_of_nmi
  rw [ppuStep_eq_positionActions, hl, hc]
  exact (positionActions_nmi l c s.arrived).1 h1 h2

/-- A step writes `v`, the latches and the sprite buffers as the render actions do, and clears both sprite flags at (261, 1). -/
theorem ppuStep_render {s : State} {l c : Nat} (hl : (ppuStep s).ppu.scanline.toNat = l) (hc : (ppuStep s).ppu.cycle.toNat = c) :
    let r := whenDo s.ppu.renderingEnabled (renderActions l c) s.arrived
    (ppuStep s).ppu.v = r.ppu.v ∧ (ppuStep s).ppu.pipe = r.ppu.pipe ∧
      (ppuStep s).ppu.sprites = r.ppu.sprites ∧ (ppuStep s).ppu.sprCount = r.ppu.sprCount ∧
      (ppuStep s).ppu.spr0Hit = (if l = 261 ∧ c = 1 then false else r.ppu.spr0Hit) ∧
      (ppuStep s).ppu.sprOverflow = (if l = 261 ∧ c = 1 then false else r.ppu.sprOverflow) := by
  obtain ⟨hv, hpipe, hsprites, hcount, hhit, hover, -⟩ := positionActions_render l c s.arrived
  have hstep : positionActions l c s.arrived = ppuStep s := by rw [ppuStep_eq_positionActions, hl, hc]
  simp only [Bool.and_eq_true, beq_iff_eq] at hhit hover
  rw [hstep, arrived_renderingEnabled] at hv hpipe hsprites hcount hhit hover
  exact ⟨hv, hpipe, hsprites, hcount, hhit, hover⟩

/-- What the countdown and the advance leave for the render actions. -/
theorem arrived_kept (s : State) : s.arrived.ppu.v = s.ppu.v ∧ s.arrived.ppu.pipe = s.ppu.pipe ∧
    s.arrived.ppu.sprites = s.ppu.sprites ∧ s.arrived.ppu.sprCount = s.ppu.sprCount ∧
    s.arrived.ppu.spr0Hit = s.ppu.spr0Hit ∧ s.arrived.ppu.sprOverflow = s.ppu.sprOverflow := by
  rw [arrived_ppu]
  exact ⟨rfl, rfl, rfl, rfl, rfl, rfl⟩

theorem pixelEvents_hidden {p : Ppu} {l c : Nat} (h : ¬ (l ≤ 239 ∧ 1 ≤ c ∧ c ≤ 256)) : pixelEvents p l c = [] := by
  have hcond : (visibleLine l && visibleCycle c) = false := by
    simpa [visibleLine, visibleCycle] using h
  rw [pixelEvents, hcond, Bool.and_false]; rfl

/-- Settles O50: no render action runs, so `ppuStep_frame` keeps all but the position, the detector and the flags. -/
theorem disabledStepRendersNothing : Obligations.DisabledStepRendersNothing := by
  intro s hbg hspr
  have hoff : s.ppu.renderingEnabled = false := by rw [Ppu.renderingEnabled, hbg, hspr]; rfl
  obtain ⟨hv, hpipe, hsprites, hcount, hhit, hover⟩ := ppuStep_render (s := s) rfl rfl
  obtain ⟨hv', hpipe', hsprites', hcount', hhit', hover'⟩ := arrived_kept s
  rw [hoff, whenDo_false] at hv hpipe hsprites hcount hhit hover
  rw [hpipe'] at hpipe
  obtain ⟨hnt, hat, hlo, hhi, htile⟩ : _ ∧ _ ∧ _ ∧ _ ∧ _ := by simpa only [Ppu.pipe, Prod.mk.injEq] using hpipe
  refine ⟨_, exec_ppuStep s, ?_, ?_⟩
  · refine (ppuStep_frame s).trans ?_
    rw [hv, hv', hnt, hat, hlo, hhi, htile, hsprites, hsprites', hcount, hcount']
  · rintro l c rfl rfl
    have hpix : ∀ l c, pixelEvents s.ppu l c = [] := by intro l c; rw [pixelEvents, hoff]; rfl
    refine ⟨?_, ppuStep_nmiKept rfl rfl, fun h => ?_⟩
    · rw [ppuStep_outputs, hpix, List.append_nil]
    · rw [hhit, hover, if_neg h, if_neg h, hhit', hover']
      exact ⟨rfl, rfl⟩

/-! ### Vblank -/

/-- The state with which the actions of the next cycle of a line start. -/
theorem arrived_inside {s : State} {l c : Nat} (h : s.arrivesAt l c) : s.arrived = { s with
    ppu := { s.ppu with cycle := s.ppu.cycle + 1, nmiDelay := s.countedDelay }
    io := { s.io with outputs := s.io.outputs ++ s.nmiEvents } } := by
  obtain ⟨⟨hl, hc, hle⟩, hs⟩ := h
  rw [State.arrived, Ppu.advance_inside (by rw [skips_nmiCountdown, hs]) (by rw [nmiCountdown_eq]; show s.ppu.cycle.toNat < 340; omega),
    nmiCountdown_eq]
  rfl

/-- Nothing renders on line 241. -/
theorem renderActions_241 (s : State) : renderActions 241 1 s = s := rfl

/-- Settles O51: at (241, 1) the actions are `SetVblank` alone. -/
theorem vblankIsSetAt241 : Obligations.VblankIsSetAt241 := by
  intro s h
  have hcycle : s.ppu.cycle = 0 := BitVec.eq_of_toNat_eq (by have := h.1.2.1; simp; omega)
  refine ⟨_, exec_ppuStep s, ?_⟩
  have hactions : ∀ u : State, positionActions 241 1 u = setVblank u := by
    intro u
    show setVblank (whenDo u.ppu.renderingEnabled (renderActions 241 1) u) = _
    rw [whenDo_eq, renderActions_241, ite_self]
  rw [h.ppuStep_eq, hactions, arrived_inside h, hcycle]
  simp only [setVblank, Ppu.nmiChange, Ppu.nmiLine, Bool.and_true]
  rfl

/-- Settles O52: `ClearVblank` acts last, and line 261 has no pixel and no frame event. -/
theorem vblankIsClearedAt261 : Obligations.VblankIsClearedAt261 := by
  intro s h
  obtain ⟨hl, hc⟩ := h.ppuStep
  obtain ⟨-, -, -, -, hhit, hover⟩ := ppuStep_render hl hc
  have hnmi : (ppuStep s).ppu.nmi = _ := (congrArg (·.ppu.nmi) h.ppuStep_eq).trans ((positionActions_nmi 261 1 s.arrived).2 ⟨rfl, rfl⟩)
  obtain ⟨hocc, hprev, hdelay⟩ : _ ∧ _ ∧ _ := by simpa only [Ppu.nmi, Prod.mk.injEq] using hnmi
  refine ⟨_, exec_ppuStep s, ppuStep_onlyPpuAndOutputs s, hl, hc, ppuStep_sameCpuSide s, hocc, hhit, hover, hprev, ?_, ?_⟩
  · rw [hdelay, arrived_ppu]
  · rw [ppuStep_outputs, hl, hc, pixelEvents_hidden (by decide)]
    simp [frameEvents]

/-! ### The NMI delay -/

/-- A step inside vblank: no event but a due NmiRaise, the flag and the line kept, the delay counted (41 R201). -/
theorem ppuStep_vblank {s : State} (hc : s.ppu.cycle.toNat ≤ 340) (hfrom : 241 * 341 + 1 ≤ s.ppu.dot) (hto : s.ppu.dot + 1 < 261 * 341 + 1) :
    (ppuStep s).ppu.dot = s.ppu.dot + 1 ∧ (ppuStep s).ppu.cycle.toNat ≤ 340 ∧
      (ppuStep s).io.outputs = s.io.outputs ++ s.nmiEvents ∧ s.nmiKept (ppuStep s) := by
  have hdot : s.ppu.dot = s.ppu.scanline.toNat * 341 + s.ppu.cycle.toNat := rfl
  have hs : s.ppu.skips = false := by
    refine Bool.eq_false_iff.2 fun hs => ?_
    obtain ⟨-, -, hl, hc⟩ := (Ppu.skips_iff _).1 hs
    omega
  obtain ⟨hnext, -, hcycle⟩ := Ppu.advance_dot hs (by omega) hc
  rw [← ppuStep_dot] at hnext
  rw [← (ppuStep_position s).2.1] at hcycle
  have hdot' : (ppuStep s).ppu.dot = (ppuStep s).ppu.scanline.toNat * 341 + (ppuStep s).ppu.cycle.toNat := rfl
  refine ⟨by omega, hcycle, ?_, ppuStep_nmiKept rfl rfl (by omega) (by omega)⟩
  rw [ppuStep_outputs, pixelEvents_hidden (by omega), frameEvents, if_neg (by omega), List.append_nil, List.append_nil]

/-- `n` steps of a longer delay, no position of vblank among them: no event (41 R201). -/
theorem execTimes_ppuStep_vblank {s : State} (n m : Nat) (hd : s.ppu.nmiDelay.toNat = n + m) (hm : 1 ≤ m) (hocc : s.ppu.nmiOccurred = true)
    (hc : s.ppu.cycle.toNat ≤ 340) (hfrom : 241 * 341 + 1 ≤ s.ppu.dot) (hto : s.ppu.dot + n < 261 * 341 + 1) :
    ∃ t, execTimes .ppuStep n s = .next t ∧ t.io.outputs = s.io.outputs ∧ t.ppu.nmiDelay.toNat = m ∧ t.ppu.nmiOccurred = true ∧
      t.ppu.ctrl = s.ppu.ctrl ∧ t.ppu.cycle.toNat ≤ 340 ∧ t.ppu.dot = s.ppu.dot + n := by
  induction n generalizing m with
  | zero => exact ⟨s, rfl, rfl, by omega, hocc, rfl, hc, (Nat.add_zero _).symm⟩
  | succ n ih =>
    obtain ⟨t, hrun, hout, hdelay, hocc', hctrl, hcycle, hdot⟩ := ih (m + 1) (by omega) (by omega) (by omega)
    obtain ⟨hdot', hcycle', hout', hocc'', -, hdelay'⟩ := ppuStep_vblank (s := t) hcycle (by omega) (by omega)
    have hone : t.ppu.nmiDelay ≠ 1 := fun h => by rw [h] at hdelay; simp at hdelay; omega
    have hquiet : t.nmiEvents = [] := by
      rw [State.nmiEvents, State.nmiDue, beq_eq_false_iff_ne.2 hone]; rfl
    have hzero : t.ppu.nmiDelay ≠ 0 := fun h => by rw [h] at hdelay; simp at hdelay
    refine ⟨ppuStep t, execTimes_succ_of_next hrun, ?_, ?_, hocc''.trans hocc', ?_, hcycle', by omega⟩
    · rw [hout', hquiet, List.append_nil, hout]
    · rw [hdelay', State.countedDelay, if_neg hzero, BitVec.toNat_sub, show (1 : BitVec 8).toNat = 1 from rfl]
      omega
    · exact (ppuStep_sameCpuSide t).2.2.2.2.2.1.trans hctrl

/-- Settles O53: `n` quiet steps leave a delay of 1, and the next step raises. -/
theorem nmiIsRaisedWhenTheDelayEnds : Obligations.NmiIsRaisedWhenTheDelayEnds := by
  intro s n hd hctrl hocc hc hfrom hto
  obtain ⟨t, hrun, hout, hdelay, hocc', hctrl', hcycle, hdot⟩ := execTimes_ppuStep_vblank n 1 hd (by omega) hocc hc hfrom (by omega)
  obtain ⟨-, -, hout', -, -, hdelay'⟩ := ppuStep_vblank (s := t) hcycle (by omega) (by omega)
  have hone : t.ppu.nmiDelay = 1 := BitVec.eq_of_toNat_eq hdelay
  have hdue : t.nmiEvents = [.nmiRaise] := by
    rw [State.nmiEvents, State.nmiDue, hone, hctrl', hctrl, hocc']; rfl
  refine ⟨t, ppuStep t, hrun, hout, rfl, by rw [hout', hdue, hout], ?_⟩
  rw [hdelay', State.countedDelay, hone]; rfl

end Sys2Proof.Machine
end

section
/-! The positions at which a step renders (spec/41 R200) and the scroll updates of `v` (spec/41 R205 to R208). -/

namespace Sys2Proof.Machine

/-! ### The predicates over the position as numbers -/

theorem renderLine_iff (l : Nat) : renderLine l = true ↔ l ≤ 239 ∨ l = 261 := by
  simp [renderLine, visibleLine, preLine]

theorem fetchCycle_iff (c : Nat) : fetchCycle c = true ↔ (1 ≤ c ∧ c ≤ 256) ∨ (321 ≤ c ∧ c ≤ 336) := by
  simp [fetchCycle, visibleCycle, prefetchCycle]

/-! ### Where nothing is done -/

theorem renderActions_v_quiet {l c : Nat} (h : ¬ (l ≤ 239 ∨ l = 261) ∨ c = 0) (s : State) : (renderActions l c s).ppu.v = s.ppu.v := by
  have hpre : (preLine l && 280 ≤ c && c ≤ 304) = false := by simp [preLine]; omega
  have hinc : (renderLine l && fetchCycle c && c % 8 == 0) = false := by
    rw [Bool.eq_false_iff, Ne, Bool.and_eq_true, Bool.and_eq_true, renderLine_iff, fetchCycle_iff]; omega
  have hline : ∀ k, 0 < k → (renderLine l && c == k) = false := by
    intro k hk
    rw [Bool.eq_false_iff, Ne, Bool.and_eq_true, renderLine_iff, beq_iff_eq]; omega
  rw [renderActions_v]
  simp only [hpre, hinc, hline 256 (by decide), hline 257 (by decide), Bool.false_eq_true, if_false]

theorem renderActions_pipe_quiet {l c : Nat} (h : ¬ (l ≤ 239 ∨ l = 261) ∨ ¬ ((1 ≤ c ∧ c ≤ 256) ∨ (321 ≤ c ∧ c ≤ 336))) (s : State) :
    (renderActions l c s).ppu.pipe = s.ppu.pipe := by
  have hcond : (renderLine l && fetchCycle c) = false := by
    rw [Bool.eq_false_iff, Ne, Bool.and_eq_true, renderLine_iff, fetchCycle_iff]; omega
  have hpipe := renderActions_pipe l c s
  rw [hcond, whenDo_false] at hpipe
  simpa only [Ppu.pipe, Prod.mk.injEq] using hpipe

theorem renderActions_spr0Hit_quiet {l c : Nat} (h : ¬ (l ≤ 239 ∧ 1 ≤ c ∧ c ≤ 256)) (s : State) :
    (renderActions l c s).ppu.spr0Hit = s.ppu.spr0Hit := by
  have hcond : (visibleLine l && visibleCycle c) = false := by simpa [visibleLine, visibleCycle] using h
  rw [renderActions_spr0Hit, hcond, whenDo_false]

/-- On a line that is not visible the sprite action empties the buffers and nothing else (43 R274). -/
theorem spriteAction_hidden {l : Nat} (hl : 240 ≤ l) (s : State) : spriteAction l s = s.setPpu { s.ppu with sprCount := 0 } := by
  rw [spriteAction, if_neg (by simp [visibleLine]; omega)]

theorem renderActions_257_hidden {l : Nat} (hl : 240 ≤ l) (s : State) :
    (renderActions l 257 s).ppu.sprites = s.ppu.sprites ∧ (renderActions l 257 s).ppu.sprCount = 0 ∧
      (renderActions l 257 s).ppu.sprOverflow = s.ppu.sprOverflow := by
  rw [renderActions_257, spriteAction_hidden hl]
  cases renderLine l <;> exact ⟨rfl, rfl, rfl⟩

theorem renderActions_sprOverflow_quiet {l c : Nat} (h : ¬ (l ≤ 239 ∧ c = 257)) (s : State) :
    (renderActions l c s).ppu.sprOverflow = s.ppu.sprOverflow := by
  by_cases hc : c = 257
  · subst hc
    exact (renderActions_257_hidden (by omega) s).2.2
  · exact (renderActions_sprites l hc s).2.2

/-- Settles O56: one clause for each action. -/
theorem renderingActsOnlyAtItsPositions : Obligations.RenderingActsOnlyAtItsPositions := by
  intro s hon
  refine ⟨_, pixelEvents s.ppu (ppuStep s).ppu.scanline.toNat (ppuStep s).ppu.cycle.toNat, exec_ppuStep s, ?_⟩
  rintro l c hl hc
  obtain ⟨hv, hpipe, hsprites, hcount, hhit, hover⟩ := ppuStep_render hl hc
  obtain ⟨hv', hpipe', hsprites', hcount', hhit', hover'⟩ := arrived_kept s
  rw [hon, whenDo_true] at hv hpipe hsprites hcount hhit hover
  have hout := ppuStep_outputs s
  rw [hl, hc] at hout
  rw [hl, hc]
  refine ⟨hout, fun h => ?pixel, fun h => ⟨pixelEvents_hidden h, fun h261 => ?hit⟩, ppuStep_nmiKept hl hc, fun h => ?v, fun h => ?pipe,
    fun h => ?buffers, fun h h261 => ?overflow⟩
  case pixel =>
    have hcond : (s.ppu.renderingEnabled && (visibleLine l && visibleCycle c)) = true := by
      rw [hon]; simpa [visibleLine, visibleCycle] using h
    exact ⟨_, _, _, _, by rw [pixelEvents, if_pos hcond]⟩
  case hit => rw [hhit, if_neg h261, renderActions_spr0Hit_quiet h, hhit']
  case v => rw [hv, renderActions_v_quiet h, hv']
  case pipe =>
    rw [renderActions_pipe_quiet h, hpipe'] at hpipe
    simpa only [Ppu.pipe, Prod.mk.injEq] using hpipe
  case buffers =>
    obtain ⟨hsprites'', hcount'', -⟩ := renderActions_sprites l h s.arrived
    exact ⟨by rw [hcount, hcount'', hcount'], by rw [hsprites, hsprites'', hsprites']⟩
  case overflow => rw [hover, if_neg h261, renderActions_sprOverflow_quiet h, hover']

/-! ### The scroll updates by fields -/

section
variable (fy : BitVec 3) (ty tx : BitVec 1) (cy cx : BitVec 5)

theorem extract_coarseX : (vram fy ty tx cy cx).extractLsb' 0 5 = cx := by
  apply BitVec.eq_of_toNat_eq
  have := cx.isLt
  rw [BitVec.extractLsb'_toNat, toNat_vram, Nat.shiftRight_zero]
  omega

theorem extract_coarseY : (vram fy ty tx cy cx).extractLsb' 5 5 = cy := by
  apply BitVec.eq_of_toNat_eq
  rw [BitVec.extractLsb'_toNat, Nat.shiftRight_eq_div_pow, ← coarseY_vram fy ty tx cy cx]
  rfl

theorem extract_fineY : (vram fy ty tx cy cx).extractLsb' 12 3 = fy := by
  apply BitVec.eq_of_toNat_eq
  have := fy.isLt
  have hfine := fineY_vram fy ty tx cy cx
  rw [BitVec.extractLsb'_toNat, Nat.shiftRight_eq_div_pow]
  show fineY (vram fy ty tx cy cx) % 8 = _
  omega

/-- The masks of `IncX`, by fields. -/
theorem incX_eq (v : VramAddr) : incX v = if v.extractLsb' 0 5 = 31 then
    (v &&& vram (.allOnes 3) (.allOnes 1) (.allOnes 1) (.allOnes 5) 0#5) ^^^ vram 0#3 0#1 1#1 0#5 0#5 else v + 1 := rfl

theorem incX_wrap : incX (vram fy ty tx cy 31) = vram fy ty (tx ^^^ 1#1) cy 0#5 := by
  rw [incX_eq, extract_coarseX, if_pos rfl, vram_and, vram_xor]
  simp only [BitVec.and_allOnes, BitVec.and_zero, BitVec.xor_zero]

theorem incX_inside (h : cx ≠ 31) : incX (vram fy ty tx cy cx) = vram fy ty tx cy (cx + 1) := by
  rw [incX_eq, extract_coarseX, if_neg h]
  have hcx := cx.isLt
  have hne : cx.toNat ≠ 31 := fun he => h (BitVec.eq_of_toNat_eq he)
  have hv := (vram fy ty tx cy cx).isLt
  have hsucc : (cx + 1).toNat = cx.toNat + 1 := by
    rw [BitVec.toNat_add, show (1 : BitVec 5).toNat = 1 from rfl]; omega
  apply BitVec.eq_of_toNat_eq
  rw [BitVec.toNat_add, show (1 : VramAddr).toNat = 1 from rfl, toNat_vram, toNat_vram, hsucc]
  have := fy.isLt
  have := ty.isLt
  have := tx.isLt
  have := cy.isLt
  omega

end

theorem toNat_flip : ∀ t : BitVec 1, (t ^^^ 1#1).toNat = 1 - t.toNat := by decide

/-- IncX on the numbers of the fields (41 R205). -/
theorem incX_fields (v : VramAddr) : coarseX (incX v) = (coarseX v + 1) % 32 ∧
    tableX (incX v) = (if coarseX v = 31 then 1 - tableX v else tableX v) ∧
    coarseY (incX v) = coarseY v ∧ tableY (incX v) = tableY v ∧ fineY (incX v) = fineY v := by
  obtain ⟨fy, ty, tx, cy, cx, rfl⟩ := vram_fields v
  simp only [coarseX_vram, tableX_vram, coarseY_vram, tableY_vram, fineY_vram]
  by_cases h : cx = 31
  · subst h
    rw [incX_wrap]
    simp only [coarseX_vram, tableX_vram, coarseY_vram, tableY_vram, fineY_vram, toNat_flip, and_true]
    exact ⟨rfl, rfl⟩
  · have hcx := cx.isLt
    have hne : cx.toNat ≠ 31 := fun he => h (BitVec.eq_of_toNat_eq he)
    rw [incX_inside fy ty tx cy cx h, if_neg hne]
    simp only [coarseX_vram, tableX_vram, coarseY_vram, tableY_vram, fineY_vram, and_true]
    exact BitVec.toNat_add ..

/-- The masks of `IncY`, by fields. -/
theorem incY_eq (v : VramAddr) : incY v =
    if v.extractLsb' 12 3 ≠ 7 then v + 0x1000#15
    else
      let w := v &&& vram 0#3 (.allOnes 1) (.allOnes 1) (.allOnes 5) (.allOnes 5)
      let m := vram (.allOnes 3) (.allOnes 1) (.allOnes 1) 0#5 (.allOnes 5)
      if w.extractLsb' 5 5 = 29 then (w ^^^ vram 0#3 1#1 0#1 0#5 0#5) &&& m
      else if w.extractLsb' 5 5 = 31 then w &&& m
      else (w &&& m) ||| (w.extractLsb' 5 5 + 1).setWidth 15 <<< 5 := rfl

theorem setWidth_coarseY (cy : BitVec 5) : cy.setWidth 15 <<< 5 = vram 0#3 0#1 0#1 cy 0#5 := by
  apply BitVec.eq_of_toNat_eq
  simp [toNat_vram, Nat.shiftLeft_eq]
  omega

theorem incY_fine {fy : BitVec 3} (h : fy ≠ 7) (ty tx : BitVec 1) (cy cx : BitVec 5) :
    incY (vram fy ty tx cy cx) = vram (fy + 1) ty tx cy cx := by
  rw [incY_eq, extract_fineY, if_pos h]
  have hfy := fy.isLt
  have hne : fy.toNat ≠ 7 := fun he => h (BitVec.eq_of_toNat_eq he)
  have hsucc : (fy + 1).toNat = fy.toNat + 1 := by
    rw [BitVec.toNat_add, show (1 : BitVec 3).toNat = 1 from rfl]; omega
  apply BitVec.eq_of_toNat_eq
  rw [BitVec.toNat_add, show (0x1000#15).toNat = 4096 from rfl, toNat_vram, toNat_vram, hsucc]
  have := ty.isLt
  have := tx.isLt
  have := cy.isLt
  have := cx.isLt
  omega

/-- IncY past the last row of a tile: the coarse row, and the table at row 29 (41 R206). -/
theorem incY_coarse (ty tx : BitVec 1) (cy cx : BitVec 5) :
    incY (vram 7 ty tx cy cx) = vram 0#3 (if cy = 29 then ty ^^^ 1#1 else ty) tx (if cy = 29 then 0#5 else cy + 1) cx := by
  rw [incY_eq, extract_fineY, if_neg (by decide)]
  simp only [vram_and, vram_xor, vram_or, setWidth_coarseY, extract_coarseY, BitVec.and_allOnes, BitVec.and_zero, BitVec.xor_zero,
    BitVec.or_zero, BitVec.zero_or]
  by_cases h29 : cy = 29
  · rw [if_pos h29, if_pos h29, if_pos h29]
  · rw [if_neg h29, if_neg h29, if_neg h29]
    split
    · next h31 => subst h31; rfl
    · rfl

/-- IncY on the numbers of the fields (41 R206). -/
theorem incY_fields (v : VramAddr) : fineY (incY v) = (fineY v + 1) % 8 ∧
    coarseY (incY v) = (if fineY v ≠ 7 then coarseY v else if coarseY v = 29 then 0 else (coarseY v + 1) % 32) ∧
    tableY (incY v) = (if fineY v = 7 ∧ coarseY v = 29 then 1 - tableY v else tableY v) ∧
    coarseX (incY v) = coarseX v ∧ tableX (incY v) = tableX v := by
  obtain ⟨fy, ty, tx, cy, cx, rfl⟩ := vram_fields v
  simp only [coarseX_vram, tableX_vram, coarseY_vram, tableY_vram, fineY_vram]
  by_cases h : fy = 7
  · subst h
    have h7 : (7 : BitVec 3).toNat = 7 := rfl
    have h29 : cy = 29 ↔ cy.toNat = 29 := BitVec.toNat_eq
    rw [incY_coarse]
    simp only [coarseX_vram, tableX_vram, coarseY_vram, tableY_vram, fineY_vram, h7, ne_eq, not_true, if_false, true_and, and_true]
    refine ⟨rfl, ?_, ?_⟩
    · by_cases hy : cy.toNat = 29
      · rw [if_pos (h29.2 hy), if_pos hy]; rfl
      · rw [if_neg (mt h29.1 hy), if_neg hy]; exact BitVec.toNat_add ..
    · by_cases hy : cy.toNat = 29
      · rw [if_pos (h29.2 hy), if_pos hy, toNat_flip]
      · rw [if_neg (mt h29.1 hy), if_neg hy]
  · have hne : fy.toNat ≠ 7 := fun he => h (BitVec.eq_of_toNat_eq he)
    rw [incY_fine h, if_pos hne, if_neg fun h => hne h.1]
    simp only [coarseX_vram, tableX_vram, coarseY_vram, tableY_vram, fineY_vram, and_true]
    exact BitVec.toNat_add ..

/-- The masks of the two copies, by fields. -/
theorem copyX_eq (v t : VramAddr) : copyX v t =
    (v &&& vram (.allOnes 3) (.allOnes 1) 0#1 (.allOnes 5) 0#5) ||| (t &&& vram 0#3 0#1 (.allOnes 1) 0#5 (.allOnes 5)) := rfl

theorem copyY_eq (v t : VramAddr) : copyY v t =
    (v &&& vram 0#3 0#1 (.allOnes 1) 0#5 (.allOnes 5)) ||| (t &&& vram (.allOnes 3) (.allOnes 1) 0#1 (.allOnes 5) 0#5) := rfl

/-- CopyX takes coarse X and its table bit (41 R207). -/
theorem copyX_fields (v t : VramAddr) : coarseX (copyX v t) = coarseX t ∧ tableX (copyX v t) = tableX t ∧
    coarseY (copyX v t) = coarseY v ∧ tableY (copyX v t) = tableY v ∧ fineY (copyX v t) = fineY v := by
  obtain ⟨fy, ty, tx, cy, cx, rfl⟩ := vram_fields v
  obtain ⟨fy', ty', tx', cy', cx', rfl⟩ := vram_fields t
  simp only [copyX_eq, vram_and, vram_or, BitVec.and_allOnes, BitVec.and_zero, BitVec.or_zero, BitVec.zero_or,
    coarseX_vram, tableX_vram, coarseY_vram, tableY_vram, fineY_vram, and_self]

/-- CopyY takes the other fields (41 R208). -/
theorem copyY_fields (v t : VramAddr) : coarseX (copyY v t) = coarseX v ∧ tableX (copyY v t) = tableX v ∧
    coarseY (copyY v t) = coarseY t ∧ tableY (copyY v t) = tableY t ∧ fineY (copyY v t) = fineY t := by
  obtain ⟨fy, ty, tx, cy, cx, rfl⟩ := vram_fields v
  obtain ⟨fy', ty', tx', cy', cx', rfl⟩ := vram_fields t
  simp only [copyY_eq, vram_and, vram_or, BitVec.and_allOnes, BitVec.and_zero, BitVec.or_zero, BitVec.zero_or,
    coarseX_vram, tableX_vram, coarseY_vram, tableY_vram, fineY_vram, and_self]

/-! ### The scroll updates by position -/

/-- The conditions of `renderActions_v` on a rendering line, as numbers. -/
theorem renderActions_v_line {l : Nat} (hl : l ≤ 239 ∨ l = 261) (c : Nat) (s : State) :
    (renderActions l c s).ppu.v =
      let v1 := if l = 261 ∧ 280 ≤ c ∧ c ≤ 304 then copyY s.ppu.v s.ppu.t else s.ppu.v
      let v2 := if ((1 ≤ c ∧ c ≤ 256) ∨ (321 ≤ c ∧ c ≤ 336)) ∧ c % 8 = 0 then incX v1 else v1
      let v3 := if c = 256 then incY v2 else v2
      if c = 257 then copyX v3 s.ppu.t else v3 := by
  have hline := (renderLine_iff l).2 hl
  have hpre : preLine l = true ↔ l = 261 := by simp [preLine]
  rw [renderActions_v, hline]
  simp only [Bool.true_and, Bool.and_eq_true, fetchCycle_iff, hpre, beq_iff_eq, decide_eq_true_iff, and_assoc]

/-- Settles O54: which of the four updates apply at a cycle, and what each does to the fields. -/
theorem scrollUpdates : Obligations.ScrollUpdates := by
  intro s l c h hon hl
  obtain ⟨hl', hc'⟩ := h.ppuStep
  obtain ⟨hv, -⟩ := ppuStep_render hl' hc'
  have hvt : s.arrived.ppu.v = s.ppu.v ∧ s.arrived.ppu.t = s.ppu.t := by rw [arrived_ppu]; exact ⟨rfl, rfl⟩
  rw [hon, whenDo_true, renderActions_v_line hl, hvt.1, hvt.2] at hv
  refine ⟨_, exec_ppuStep s, fun h8 hrange => ?_, fun h257 => ?_, fun h261 h280 h304 => ?_, fun hinc h257 hcopy => ?_⟩
  · obtain ⟨hx, htx, hy, hty, hfy⟩ := incX_fields s.ppu.v
    have hinc : ((1 ≤ c ∧ c ≤ 256) ∨ (321 ≤ c ∧ c ≤ 336)) ∧ c % 8 = 0 := by omega
    have hcopy : ¬ (l = 261 ∧ 280 ≤ c ∧ c ≤ 304) := by omega
    have h257 : c ≠ 257 := by omega
    simp only [if_neg hcopy, if_pos hinc, if_neg h257] at hv
    by_cases h256 : c = 256
    · obtain ⟨hfy', hy', hty', hx', htx'⟩ := incY_fields (incX s.ppu.v)
      rw [if_pos h256] at hv
      rw [hfy, hy] at hy'
      rw [hfy, hy, hty] at hty'
      rw [hfy] at hfy'
      rw [hv, hx', htx']
      exact ⟨hx, htx, fun hne => absurd h256 hne, fun _ => ⟨hfy', hy', hty'⟩⟩
    · rw [if_neg h256] at hv
      rw [hv]
      exact ⟨hx, htx, fun _ => ⟨hy, hty, hfy⟩, fun he => absurd he h256⟩
  · have hinc : ¬ (((1 ≤ c ∧ c ≤ 256) ∨ (321 ≤ c ∧ c ≤ 336)) ∧ c % 8 = 0) := by omega
    have hcopy : ¬ (l = 261 ∧ 280 ≤ c ∧ c ≤ 304) := by omega
    have h256 : c ≠ 256 := by omega
    simp only [if_neg hcopy, if_neg hinc, if_neg h256, if_pos h257] at hv
    rw [hv]
    exact copyX_fields _ _
  · have hinc : ¬ (((1 ≤ c ∧ c ≤ 256) ∨ (321 ≤ c ∧ c ≤ 336)) ∧ c % 8 = 0) := by omega
    have h256 : c ≠ 256 := by omega
    have h257 : c ≠ 257 := by omega
    have hcopy : l = 261 ∧ 280 ≤ c ∧ c ≤ 304 := ⟨h261, h280, h304⟩
    simp only [if_pos hcopy, if_neg hinc, if_neg h256, if_neg h257] at hv
    rw [hv]
    exact copyY_fields _ _
  · have hinc' : ¬ (((1 ≤ c ∧ c ≤ 256) ∨ (321 ≤ c ∧ c ≤ 336)) ∧ c % 8 = 0) := by omega
    have h256 : c ≠ 256 := by omega
    simpa only [if_neg hcopy, if_neg hinc', if_neg h256, if_neg h257] using hv

end Sys2Proof.Machine
end

section
/-! The fetch sequence (spec/42 R231 to R237) and the pixels of a pattern row (spec/30 R136, spec/42 R237). -/

namespace Sys2Proof.Machine

/-! ### The fetch addresses as numbers -/

theorem ntFetchAddr_eq (v : VramAddr) : ntFetchAddr v = 2#2 ++ v.extractLsb' 0 12 := by
  have h : ntFetchAddr v = (2#2 ++ 0#12) ||| (v.extractLsb' 0 12).setWidth 14 := rfl
  have hlow : (v.extractLsb' 0 12).setWidth 14 = 0#2 ++ v.extractLsb' 0 12 := by
    apply BitVec.eq_of_toNat_eq
    rw [toNat_append', BitVec.toNat_setWidth]
    simp
    omega
  rw [h, hlow, BitVec.or_append, BitVec.or_zero, BitVec.zero_or]

theorem ntFetchAddr_ofNat (v : VramAddr) : ntFetchAddr v = BitVec.ofNat 14 (0x2000 + v.toNat % 0x1000) := by
  apply BitVec.eq_of_toNat_eq
  rw [ntFetchAddr_eq, toNat_append']
  simp
  omega

/-- The address of the tile's palette bits: the table, the fixed bits, the upper three bits of both coarse fields (42 R234). -/
theorem atFetchAddr_eq (v : VramAddr) :
    atFetchAddr v = 2#2 ++ v.extractLsb' 10 2 ++ 15#4 ++ v.extractLsb' 7 3 ++ v.extractLsb' 2 3 := by
  have h : atFetchAddr v = (0x23C0#15 ||| (v &&& 0x0C00#15) ||| ((v >>> 4) &&& 0x38#15) ||| ((v >>> 2) &&& 0x07#15)).setWidth 14 := rfl
  apply BitVec.eq_of_getLsbD_eq
  intro i hi
  rw [h]
  simp only [BitVec.getLsbD_append]
  rcases (by omega : i = 0 ∨ i = 1 ∨ i = 2 ∨ i = 3 ∨ i = 4 ∨ i = 5 ∨ i = 6 ∨ i = 7 ∨ i = 8 ∨ i = 9 ∨ i = 10 ∨ i = 11 ∨ i = 12 ∨ i = 13) with
    rfl | rfl | rfl | rfl | rfl | rfl | rfl | rfl | rfl | rfl | rfl | rfl | rfl | rfl <;> simp

theorem atFetchAddr_ofNat (v : VramAddr) :
    atFetchAddr v = BitVec.ofNat 14 (0x23C0 + v.toNat / 1024 % 4 * 1024 + coarseY v / 4 * 8 + coarseX v / 4) := by
  apply BitVec.eq_of_toNat_eq
  have hy : v.toNat / 128 % 8 = coarseY v / 4 := by unfold coarseY; omega
  have hx : v.toNat / 4 % 8 = coarseX v / 4 := by unfold coarseX; omega
  have : coarseY v < 32 := Nat.mod_lt _ (by decide)
  have : coarseX v < 32 := Nat.mod_lt _ (by decide)
  rw [atFetchAddr_eq]
  simp only [toNat_append', BitVec.extractLsb'_toNat, Nat.shiftRight_eq_div_pow, BitVec.toNat_ofNat, Nat.reducePow, hx, hy]
  omega

/-- The quadrant of the tile, twice: the bits 1 of both coarse fields (30 R139). -/
theorem atShift_eq (v : VramAddr) : atShift v = 2 * (coarseY v / 2 % 2 * 2 + coarseX v / 2 % 2) := by
  have h : ((v >>> 4) &&& 4#15) ||| (v &&& 2#15) = 0#12 ++ v.extractLsb' 6 1 ++ v.extractLsb' 1 1 ++ 0#1 := by
    apply BitVec.eq_of_getLsbD_eq
    intro i hi
    simp only [BitVec.getLsbD_append]
    rcases (by omega : i = 0 ∨ i = 1 ∨ i = 2 ∨ i = 3 ∨ i = 4 ∨ i = 5 ∨ i = 6 ∨ i = 7 ∨ i = 8 ∨ i = 9 ∨ i = 10 ∨ i = 11 ∨ i = 12 ∨
      i = 13 ∨ i = 14) with rfl | rfl | rfl | rfl | rfl | rfl | rfl | rfl | rfl | rfl | rfl | rfl | rfl | rfl | rfl <;> simp
  have hy : v.toNat / 64 % 2 = coarseY v / 2 % 2 := by unfold coarseY; omega
  have hx : v.toNat / 2 % 2 = coarseX v / 2 % 2 := by unfold coarseX; omega
  show (((v >>> 4) &&& 4#15) ||| (v &&& 2#15)).toNat = _
  rw [h]
  simp only [toNat_append', BitVec.extractLsb'_toNat, Nat.shiftRight_eq_div_pow, BitVec.toNat_ofNat, Nat.reducePow, hx, hy]
  omega

/-- The two palette bits of the quadrant, at bits 3:2 (42 R234). -/
theorem toNat_atSelect (v : VramAddr) (b : Byte) :
    (atSelect v b).toNat = b.toNat / 4 ^ (coarseY v / 2 % 2 * 2 + coarseX v / 2 % 2) % 4 * 4 := by
  have hpow : 2 ^ atShift v = 4 ^ (coarseY v / 2 % 2 * 2 + coarseX v / 2 % 2) := by rw [atShift_eq, Nat.pow_mul]
  have hand : ∀ n : Nat, n &&& 3 = n % 4 := fun n => Nat.and_two_pow_sub_one_eq_mod n 2
  show (((b >>> atShift v) &&& 3#8).setWidth 4 <<< 2).toNat = _
  rw [BitVec.toNat_shiftLeft, BitVec.toNat_setWidth, BitVec.toNat_and, BitVec.toNat_ushiftRight, Nat.shiftRight_eq_div_pow, hpow,
    show (3#8).toNat = 3 from rfl, hand, Nat.shiftLeft_eq]
  generalize b.toNat / _ = n
  omega

theorem Ppu.bgRowAddr_ofNat (p : Ppu) :
    p.bgRowAddr = BitVec.ofNat 14 (p.ctrl.bgTable.toNat * 0x1000 + p.ntByte.toNat * 16 + fineY p.v) := by
  have hfine : (p.v.extractLsb' 12 3).toNat = fineY p.v := by
    have := p.v.isLt
    rw [BitVec.extractLsb'_toNat, Nat.shiftRight_eq_div_pow, fineY]
    omega
  rw [Ppu.bgRowAddr, patternAddr, hfine]

/-! ### The pixels of a row -/

/-- A nibble placed at position `q` of a row. -/
theorem getLsbD_placed (x : BitVec 4) {q k : Nat} (hk : k < 32) :
    (x.setWidth 32 <<< (4 * q)).getLsbD k = (decide (k / 4 = q) && x.getLsbD (k % 4)) := by
  rw [BitVec.getLsbD_shiftLeft, BitVec.getLsbD_setWidth]
  by_cases h : k / 4 = q
  · rw [show k - 4 * q = k % 4 by omega]
    simp [h, hk, show ¬ k < 4 * q by omega, show k % 4 < 32 by omega]
  · by_cases hlt : k < 4 * q
    · simp [hlt, h]
    · simp [h, show 4 ≤ k - 4 * q by omega]

/-- Bit `k` of a row is a bit of the pixel that stands there (42 R237). -/
theorem getLsbD_pixelRow (attr : BitVec 4) (hi lo : Byte) (flip : Bool) {k : Nat} (hk : k < 32) :
    (pixelRow attr hi lo flip).getLsbD k = (pixelNibble attr hi lo (if flip then 7 - k / 4 else k / 4)).getLsbD (k % 4) := by
  simp only [pixelRow, BitVec.getLsbD_or]
  iterate 8 rw [getLsbD_placed _ hk]
  rcases (by omega : k / 4 = 0 ∨ k / 4 = 1 ∨ k / 4 = 2 ∨ k / 4 = 3 ∨ k / 4 = 4 ∨ k / 4 = 5 ∨ k / 4 = 6 ∨ k / 4 = 7) with
    h | h | h | h | h | h | h | h <;> rw [h] <;> simp

/-- A pixel's bits: the palette over the two planes' bits (30 R136). -/
theorem getLsbD_pixelNibble (attr : BitVec 4) (hi lo : Byte) (b i : Nat) :
    (pixelNibble attr hi lo b).getLsbD i =
      (attr.getLsbD i || decide (i = 0) && lo.getLsbD b || decide (i = 1) && hi.getLsbD b) := by
  rw [pixelNibble, BitVec.getLsbD_or, BitVec.getLsbD_setWidth, BitVec.getLsbD_append]
  match i with
  | 0 => simp
  | 1 => simp
  | i + 2 => simp

/-! ### The sequence -/

/-- The latches and the accumulator after a step that arrives at a fetch cycle of a rendering line (42 R231). -/
theorem ppuStep_fetch {s : State} {l c : Nat} (h : s.arrivesAt l c) (hon : s.ppu.renderingEnabled = true) (hl : l ≤ 239 ∨ l = 261)
    (hc : (1 ≤ c ∧ c ≤ 256) ∨ (321 ≤ c ∧ c ≤ 336)) :
    (ppuStep s).ppu.pipe = (
      (if c % 8 = 1 then ppuRead s (ntFetchAddr s.ppu.v) else s.ppu.ntByte),
      (if c % 8 = 3 then atSelect s.ppu.v (ppuRead s (atFetchAddr s.ppu.v)) else s.ppu.atBits),
      (if c % 8 = 5 then ppuRead s s.ppu.bgRowAddr else s.ppu.patLo),
      (if c % 8 = 7 then ppuRead s (s.ppu.bgRowAddr + 8) else s.ppu.patHi),
      (if c % 8 = 0 then s.ppu.tileData <<< 4 ||| (pixelRow s.ppu.atBits s.ppu.patHi s.ppu.patLo false).setWidth 64
        else s.ppu.tileData <<< 4)) := by
  obtain ⟨hl', hc'⟩ := h.ppuStep
  obtain ⟨-, hpipe, -⟩ := ppuStep_render hl' hc'
  have hcond : (renderLine l && fetchCycle c) = true := by rw [Bool.and_eq_true, renderLine_iff, fetchCycle_iff]; exact ⟨hl, hc⟩
  have hfetch := renderActions_pipe l c s.arrived
  have hrow : s.arrived.ppu.bgRowAddr = s.ppu.bgRowAddr := by rw [arrived_ppu]; rfl
  rw [hcond, whenDo_true, shiftAndFetch_eq] at hfetch
  simp only [ppuRead_arrived, State.setPpu_ppu, hrow] at hfetch
  rw [arrived_ppu] at hfetch
  rw [hpipe, hon, whenDo_true]
  simpa only [Ppu.pipe, Prod.mk.injEq] using hfetch

/-- Settles O55: `ppuStep_fetch` with the addresses, the quadrant and the row's bits as numbers. -/
theorem fetchSequence : Obligations.FetchSequence := by
  intro s l c h hon hl hc
  have hpipe := ppuStep_fetch h hon hl hc
  obtain ⟨hnt, hat, hlo, hhi, htile⟩ : _ ∧ _ ∧ _ ∧ _ ∧ _ := by simpa only [Ppu.pipe, Prod.mk.injEq] using hpipe
  refine ⟨_, exec_ppuStep s, ?_, ?_, ?_, ?_, fun h8 => ?_, fun h8 k hk => ?_⟩
  · rw [hnt, ntFetchAddr_ofNat]
  · rw [hat, apply_ite BitVec.toNat, toNat_atSelect, atFetchAddr_ofNat]
  · rw [hlo, Ppu.bgRowAddr_ofNat]
  · rw [hhi, Ppu.bgRowAddr_ofNat, BitVec.ofNat_add _ 8]; rfl
  · rw [htile, if_neg h8]
  · rw [htile, if_pos h8, BitVec.getLsbD_or, BitVec.getLsbD_setWidth]
    by_cases h32 : k < 32
    · rw [getLsbD_pixelRow _ _ _ _ h32, getLsbD_pixelNibble]
      simp [hk, h32]
    · rw [BitVec.getLsbD_of_ge (pixelRow _ _ _ _) k (by omega)]
      simp [h32]

end Sys2Proof.Machine
end

section
/-! The two layers and the pixel (spec/42 R245 to R255, spec/43 R280), sprite evaluation and the rows of kept sprites
(spec/43 R270 to R277). -/

namespace Sys2Proof.Machine

/-! ### The layers as numbers -/

theorem opaquePixel_iff : ∀ p : BitVec 4, opaquePixel p = true ↔ p.toNat % 4 ≠ 0 := by decide

theorem toNat_backgroundPixel (p : Ppu) :
    (backgroundPixel p).toNat = if p.mask.showBg then p.tileData.toNat / 16 ^ (8 + (7 - p.x.toNat)) % 16 else 0 := by
  have hpow : 2 ^ (32 + 4 * (7 - p.x.toNat)) = 16 ^ (8 + (7 - p.x.toNat)) := by
    rw [show (16 : Nat) = 2 ^ 4 by decide, ← Nat.pow_mul]
    congr 1
    omega
  rw [backgroundPixel, apply_ite BitVec.toNat, BitVec.extractLsb'_toNat, Nat.shiftRight_eq_div_pow, hpow]
  rfl

theorem toNat_clippedBg (p : Ppu) (px : Nat) : (clippedBg p px).toNat = bgPixelAt p px := by
  rw [clippedBg, bgPixelAt, apply_ite BitVec.toNat, toNat_backgroundPixel]
  by_cases h8 : px < 8 <;> cases p.mask.showLeftBg <;> cases p.mask.showBg <;> simp [h8, Nat.not_lt.1, Nat.not_le.2]

theorem toNat_spriteEntryPixel (e : SpriteEntry) (px : Nat) : (spriteEntryPixel e px).toNat = shownPixel e px := by
  have hpow : ∀ k, 2 ^ (4 * k) = 16 ^ k := fun k => Nat.pow_mul 2 4 k
  rw [spriteEntryPixel, shownPixel, apply_ite BitVec.toNat, BitVec.extractLsb'_toNat, Nat.shiftRight_eq_div_pow, hpow]
  exact ite_congr_iff (by omega) rfl rfl

theorem opaque_spriteEntryPixel (e : SpriteEntry) (px : Nat) : opaquePixel (spriteEntryPixel e px) = (shownPixel e px % 4 != 0) := by
  rw [Bool.eq_iff_iff, opaquePixel_iff, toNat_spriteEntryPixel, bne_iff_ne]

/-- The scan of the buffers finds the first opaque entry, and its position (43 R280). -/
theorem firstOpaque_of_find? {px : Nat} {es : List SpriteEntry} {e : SpriteEntry} (i : Nat)
    (h : es.find? (fun e => shownPixel e px % 4 != 0) = some e) :
    ∃ k, es[k]? = some e ∧ firstOpaque px i es = (i + k, spriteEntryPixel e px) := by
  induction es generalizing i with
  | nil => cases h
  | cons e' rest ih =>
    rw [firstOpaque, opaque_spriteEntryPixel]
    cases ho : shownPixel e' px % 4 != 0 with
    | true =>
      simp only [List.find?_cons, ho] at h
      obtain rfl := Option.some.inj h
      exact ⟨0, rfl, rfl⟩
    | false =>
      simp only [List.find?_cons, ho] at h
      obtain ⟨k, hk, hfirst⟩ := ih (i + 1) h
      exact ⟨k + 1, hk, by rw [if_neg (by decide), hfirst, Nat.add_assoc, Nat.add_comm 1 k]⟩

theorem firstOpaque_of_none {px : Nat} {es : List SpriteEntry} (i : Nat)
    (h : es.find? (fun e => shownPixel e px % 4 != 0) = none) : firstOpaque px i es = (0, 0) := by
  induction es generalizing i with
  | nil => rfl
  | cons e' rest ih =>
    have hall := List.find?_eq_none.1 h
    rw [firstOpaque, opaque_spriteEntryPixel, if_neg (hall e' List.mem_cons_self)]
    exact ih (i + 1) (List.find?_eq_none.2 fun e he => hall e (List.mem_cons_of_mem _ he))

/-- The sprite pixel and the chosen entry, where an entry shows (43 R280). -/
theorem spritePixel_of_shown {p : Ppu} {px : Nat} {e : SpriteEntry} (h : shownSprite p px = some e) :
    (spritePixel p px).2.toNat = shownPixel e px ∧ winningSprite p px = e := by
  rw [shownSprite] at h
  split at h
  · next hshow =>
    obtain ⟨k, hk, hfirst⟩ := firstOpaque_of_find? 0 h
    have hpix : spritePixel p px = (k, spriteEntryPixel e px) := by rw [spritePixel, if_pos hshow, hfirst, Nat.zero_add]
    have hget : p.sprites.toList[k]? = some e := by
      rw [List.getElem?_take] at hk
      split at hk
      · exact hk
      · cases hk
    rw [winningSprite, hpix, toNat_spriteEntryPixel, Ppu.spriteAt, List.getD_eq_getElem?_getD, hget]
    exact ⟨rfl, rfl⟩
  · cases h

theorem spritePixel_of_none {p : Ppu} {px : Nat} (h : shownSprite p px = none) : (spritePixel p px).2 = 0 := by
  rw [spritePixel]
  split
  · next hshow =>
    rw [shownSprite, if_pos hshow] at h
    rw [firstOpaque_of_none 0 h]
  · rfl

theorem toNat_clippedSp (p : Ppu) (px : Nat) : (clippedSp p px).toNat = spPixelAt p px := by
  have hpix : (spritePixel p px).2.toNat =
      match shownSprite p px with
      | some e => shownPixel e px
      | none => 0 := by
    cases h : shownSprite p px with
    | none => rw [spritePixel_of_none h]; rfl
    | some e => exact (spritePixel_of_shown h).1
  rw [clippedSp, spPixelAt, apply_ite BitVec.toNat, hpix]
  by_cases h8 : px < 8 <;> cases p.mask.showLeftSpr <;> simp [h8, Nat.not_lt.1, Nat.not_le.2] <;> rfl

/-- An opaque sprite pixel is a shown entry's. -/
theorem shownSprite_of_opaque {p : Ppu} {px : Nat} (h : spPixelAt p px % 4 ≠ 0) : ∃ e, shownSprite p px = some e := by
  cases hs : shownSprite p px with
  | none =>
    refine absurd ?_ h
    rw [← toNat_clippedSp, clippedSp, spritePixel_of_none hs, ite_self]
    rfl
  | some e => exact ⟨e, rfl⟩

/-! ### The pixel -/

theorem toNat_spriteIndex : ∀ sp : BitVec 4, (sp.setWidth 5 ||| 0x10).toNat = 16 + sp.toNat := by decide

theorem toNat_bgIndex : ∀ bg : BitVec 4, (bg.setWidth 5).toNat = bg.toNat := by decide

/-- The index of the winning layer (42 R253, R254). -/
theorem toNat_composite (bg sp : BitVec 4) (prio : Bool) : (composite bg sp prio).toNat =
    if sp.toNat % 4 ≠ 0 ∧ ¬ (bg.toNat % 4 ≠ 0 ∧ prio = true) then 16 + sp.toNat
    else if bg.toNat % 4 ≠ 0 then bg.toNat else 0 := by
  rw [composite, apply_ite BitVec.toNat, apply_ite BitVec.toNat, toNat_spriteIndex, toNat_bgIndex]
  refine ite_congr_iff ?_ rfl (ite_congr_iff (opaquePixel_iff bg) rfl rfl)
  have hboth : (opaquePixel bg && prio) = true ↔ bg.toNat % 4 ≠ 0 ∧ prio = true := by rw [Bool.and_eq_true, opaquePixel_iff]
  rw [Bool.and_eq_true, opaquePixel_iff, Bool.not_eq_true', Bool.eq_false_iff]
  exact and_congr_right fun _ => not_congr hboth

theorem toNat_pixelIndex (p : Ppu) (px : Nat) : (pixelIndex p px).toNat =
    if spPixelAt p px % 4 ≠ 0 ∧ ¬ (bgPixelAt p px % 4 ≠ 0 ∧ (winningSprite p px).prio = true) then 16 + spPixelAt p px
    else if bgPixelAt p px % 4 ≠ 0 then bgPixelAt p px else 0 := by
  rw [pixelIndex, toNat_composite, toNat_clippedBg, toNat_clippedSp]

/-- Settles O57: the index of `toNat_pixelIndex` in its four cases. -/
theorem pixelOutput : Obligations.PixelOutput := by
  intro s l c h hon hl h1 h256
  obtain ⟨hl', hc'⟩ := h.ppuStep
  have hcond : (s.ppu.renderingEnabled && (visibleLine l && visibleCycle c)) = true := by
    rw [hon]; simp [visibleLine, visibleCycle, hl, h1, h256]
  refine ⟨_, pixelIndex s.ppu (c - 1), (palRead s.ppu (pixelIndex s.ppu (c - 1))).setWidth 6, exec_ppuStep s, ?_,
    BitVec.toNat_setWidth .., ?_⟩
  · rw [ppuStep_outputs, hl', hc', pixelEvents, if_pos hcond, frameEvents, if_neg (by omega), List.append_nil]
  · rintro bg sp rfl rfl
    rw [toNat_pixelIndex]
    refine ⟨fun hb hs => ?_, fun hb hs => ?_, fun hb hs => ?_, fun hb hs e he => ?_⟩
    · rw [if_neg fun h => h.1 hs, if_neg fun h => h hb]
    · rw [if_pos ⟨hs, fun h => h.1 hb⟩]
    · rw [if_neg fun h => h.1 hs, if_pos hb]
    · rw [(spritePixel_of_shown he).2]
      cases e.prio
      · rw [if_pos ⟨hs, fun h => absurd h.2 (by decide)⟩]; rfl
      · rw [if_neg fun h => h.2 ⟨hb, rfl⟩, if_pos hb]; rfl

theorem spriteZeroHit_iff (p : Ppu) (px : Nat) : spriteZeroHit p px = true ↔
    bgPixelAt p px % 4 ≠ 0 ∧ spPixelAt p px % 4 ≠ 0 ∧ px < 255 ∧ ∃ e, shownSprite p px = some e ∧ e.index = 0 := by
  simp only [spriteZeroHit, Bool.and_eq_true, opaquePixel_iff, toNat_clippedBg, toNat_clippedSp, beq_iff_eq, decide_eq_true_iff]
  constructor
  · rintro ⟨⟨⟨hb, hs⟩, hindex⟩, hpx⟩
    obtain ⟨e, he⟩ := shownSprite_of_opaque hs
    rw [(spritePixel_of_shown he).2] at hindex
    exact ⟨hb, hs, hpx, e, he, hindex⟩
  · rintro ⟨hb, hs, hpx, e, he, hindex⟩
    rw [(spritePixel_of_shown he).2]
    exact ⟨⟨⟨hb, hs⟩, hindex⟩, hpx⟩

/-- Settles O58 (`spriteZeroHit` is the model's test): the flag is or-ed with the test, which `spriteZeroHit_iff` states. -/
theorem spriteZeroHitLaw : Obligations.SpriteZeroHit := by
  intro s l c h hon hl h1 h256
  obtain ⟨hl', hc'⟩ := h.ppuStep
  obtain ⟨-, -, -, -, hhit, -⟩ := ppuStep_render hl' hc'
  have hcond : (visibleLine l && visibleCycle c) = true := by simp [visibleLine, visibleCycle, hl, h1, h256]
  have hzero : spriteZeroHit s.arrived.ppu (c - 1) = spriteZeroHit s.ppu (c - 1) := by rw [arrived_ppu]; rfl
  have hflag : (renderPixel l c s.arrived).ppu.spr0Hit = (s.ppu.spr0Hit || spriteZeroHit s.ppu (c - 1)) := by
    rw [renderPixel_eq, ← hzero, ← (arrived_kept s).2.2.2.2.1]
  rw [if_neg (by omega), hon, whenDo_true, renderActions_spr0Hit, hcond, whenDo_true, hflag] at hhit
  refine ⟨_, exec_ppuStep s, ?_⟩
  rw [hhit, Bool.or_eq_true, spriteZeroHit_iff]

end Sys2Proof.Machine
end

section
/-! Sprite evaluation at cycle 257 (spec/43 R270 to R274) and the rows of the kept sprites (spec/43 R276, R277). -/

namespace Sys2Proof.Machine

/-! ### The scan -/

theorem spriteQualifies_eq (p : Ppu) (l n : Nat) : spriteQualifies p l n =
    decide ((Memory.read p.oam (4 * n)).toNat ≤ l ∧ l < (Memory.read p.oam (4 * n)).toNat + if p.ctrl.sprSize then 16 else 8) := by
  have hy : p.oamByte n 0 = Memory.read p.oam (4 * n) := rfl
  rw [spriteQualifies, hy, Ppu.spriteHeight, Bool.eq_iff_iff, Bool.and_eq_true, decide_eq_true_iff, decide_eq_true_iff, decide_eq_true_iff]
  split <;> omega

theorem qualifying_eq (p : Ppu) (l : Nat) : qualifying p l = (List.range 64).filter (spriteQualifies p l) := by
  rw [qualifying]
  exact List.filter_congr fun n _ => (spriteQualifies_eq p l n).symm

theorem qualifying_lt {p : Ppu} {l k n : Nat} (h : (qualifying p l)[k]? = some n) : n < 64 :=
  List.mem_range.1 (List.mem_filter.1 (List.mem_of_getElem? h)).1

/-- A scan that has met exactly the qualifying entries `found`: all counted, the first 8 kept in order (43 R270). -/
def SpriteScan.Holds (s : State) (l : Nat) (found : List Nat) (scan : SpriteScan) : Prop :=
  scan.count = found.length ∧ ∀ k (hk : k < 8), scan.sprites[k] = (found[k]?.map (spriteEntry s l)).getD s.ppu.sprites[k]

theorem scanEntry_skips {s : State} {l n : Nat} (h : spriteQualifies s.ppu l n = false) (scan : SpriteScan) : scanEntry s l scan n = scan := by
  rw [scanEntry, h]; rfl

/-- A qualifying entry is counted, and kept when fewer than 8 were. -/
theorem scanEntry_holds {s : State} {l n : Nat} (h : spriteQualifies s.ppu l n = true) {found : List Nat} {scan : SpriteScan}
    (hscan : scan.Holds s l found) : (scanEntry s l scan n).Holds s l (found ++ [n]) := by
  obtain ⟨hcount, hkept⟩ := hscan
  rw [scanEntry, if_pos h]
  refine ⟨by simp [hcount], fun k hk => ?_⟩
  rcases Nat.lt_trichotomy k found.length with hlt | heq | hgt
  · rw [List.getElem?_append_left hlt, ← hkept k hk]
    simp only
    split
    · exact Vector.getElem_set_ne _ _ (by omega)
    · rfl
  · subst heq
    simp [hcount, hk]
  · have hold : (found[k]?.map (spriteEntry s l)).getD s.ppu.sprites[k] = s.ppu.sprites[k] := by
      rw [List.getElem?_eq_none (by omega)]; rfl
    rw [List.getElem?_eq_none (by simp; omega)]
    refine Eq.trans ?_ ((hkept k hk).trans hold)
    simp only
    split
    · exact Vector.getElem_set_ne _ _ (by omega)
    · rfl

/-- The scan of the first `m` entries of OAM. -/
theorem foldl_scanEntry_holds (s : State) (l : Nat) (m : Nat) :
    ((List.range m).foldl (scanEntry s l) { sprites := s.ppu.sprites, count := 0 }).Holds s l
      ((List.range m).filter (spriteQualifies s.ppu l)) := by
  induction m with
  | zero => exact ⟨rfl, fun k hk => rfl⟩
  | succ m ih =>
    rw [List.range_succ, List.foldl_append, List.filter_append, List.foldl_cons, List.foldl_nil, List.filter_cons, List.filter_nil]
    cases hq : spriteQualifies s.ppu l m with
    | false => rw [scanEntry_skips hq, if_neg (by decide), List.append_nil]; exact ih
    | true => exact scanEntry_holds hq ih

theorem spriteScan_holds (s : State) (l : Nat) : (spriteScan s l).Holds s l (qualifying s.ppu l) := by
  rw [qualifying_eq]
  exact foldl_scanEntry_holds s l 64

theorem Ppu.spriteAt_of_lt (p : Ppu) {k : Nat} (hk : k < 8) : p.spriteAt k = p.sprites[k] := by
  rw [Ppu.spriteAt, List.getD_eq_getElem?_getD]
  simp [hk]

theorem Ppu.spriteAt_of_ge (p : Ppu) {k : Nat} (hk : 8 ≤ k) : p.spriteAt k = SpriteEntry.zero := by
  rw [Ppu.spriteAt, List.getD_eq_getElem?_getD, List.getElem?_eq_none (by simpa using hk)]
  rfl

/-! ### Evaluation -/

/-- The scan depends on the address space, OAM, Control and the buffers it starts from. -/
theorem spriteScan_congr {s t : State} (hspace : s.SameSpace t) (hoam : t.ppu.oam = s.ppu.oam) (hctrl : t.ppu.ctrl = s.ppu.ctrl)
    (hsprites : t.ppu.sprites = s.ppu.sprites) (l : Nat) : spriteScan t l = spriteScan s l := by
  have hbyte : ∀ n k, t.ppu.oamByte n k = s.ppu.oamByte n k := by intro n k; rw [Ppu.oamByte, hoam]; rfl
  have hentry : ∀ n, spriteEntry t l n = spriteEntry s l n := by
    intro n
    simp only [spriteEntry, fetchSpritePattern, hbyte, hctrl, ppuRead_congr hspace]
  have hqualifies : ∀ n, spriteQualifies t.ppu l n = spriteQualifies s.ppu l n := by
    intro n
    rw [spriteQualifies_eq, spriteQualifies_eq, hoam, hctrl]
  have hscan : scanEntry t l = scanEntry s l := by
    funext acc n
    rw [scanEntry, scanEntry, hqualifies, hentry]
  rw [spriteScan, spriteScan, hscan, hsprites]

/-- The buffers after a step that arrives at cycle 257 of a visible line are those of the scan (43 R270). -/
theorem ppuStep_evaluates {s : State} {l : Nat} (h : s.arrivesAt l 257) (hon : s.ppu.renderingEnabled = true) (hl : l ≤ 239) :
    (ppuStep s).ppu.sprites = (spriteScan s l).sprites ∧
      (ppuStep s).ppu.sprCount = BitVec.ofNat 4 (min (spriteScan s l).count 8) ∧
      (ppuStep s).ppu.sprOverflow = (s.ppu.sprOverflow || decide (8 < (spriteScan s l).count)) := by
  obtain ⟨hl', hc'⟩ := h.ppuStep
  obtain ⟨-, -, hsprites, hcount, -, hover⟩ := ppuStep_render hl' hc'
  have hvisible : visibleLine l = true := decide_eq_true hl
  have hrender : renderLine l = true := (renderLine_iff l).2 (.inl hl)
  have hscan : spriteScan (s.arrived.scroll copyX) l = spriteScan s l := by
    obtain ⟨-, -, hsprites, -⟩ := arrived_kept s
    have hkept : s.arrived.ppu.oam = s.ppu.oam ∧ s.arrived.ppu.ctrl = s.ppu.ctrl := by rw [arrived_ppu]; exact ⟨rfl, rfl⟩
    have hspace := sameSpace_arrived s
    exact spriteScan_congr ⟨hspace.params, hspace.mirror, hspace.chr, hspace.chrRam, hspace.nt, hspace.pal⟩ hkept.1 hkept.2 hsprites l
  have hover' : (s.arrived.scroll copyX).ppu.sprOverflow = s.ppu.sprOverflow := (arrived_kept s).2.2.2.2.2
  rw [hon, whenDo_true, renderActions_257, hrender, whenDo_true, spriteAction, if_pos hvisible, evaluateSprites, hscan] at hsprites hcount hover
  rw [if_neg (by omega)] at hover
  exact ⟨hsprites, hcount, hover.trans (congrArg (· || _) hover')⟩

/-- Buffer entry `k` after the evaluation: the `k`-th qualifying entry, or the old one (43 R270). -/
theorem spriteAt_evaluated {s : State} {l : Nat} (h : s.arrivesAt l 257) (hon : s.ppu.renderingEnabled = true) (hl : l ≤ 239)
    {k : Nat} (hk : k < 8) : (ppuStep s).ppu.spriteAt k = ((qualifying s.ppu l)[k]?.map (spriteEntry s l)).getD (s.ppu.spriteAt k) := by
  obtain ⟨hsprites, -, -⟩ := ppuStep_evaluates h hon hl
  obtain ⟨-, hkept⟩ := spriteScan_holds s l
  rw [Ppu.spriteAt_of_lt _ hk, Ppu.spriteAt_of_lt _ hk, ← hkept k hk]
  simp only [hsprites]

theorem spriteAt_kept {s : State} {l : Nat} (h : s.arrivesAt l 257) (hon : s.ppu.renderingEnabled = true) (hl : l ≤ 239)
    {k n : Nat} (hk : k < 8) (hn : (qualifying s.ppu l)[k]? = some n) : (ppuStep s).ppu.spriteAt k = spriteEntry s l n := by
  rw [spriteAt_evaluated h hon hl hk, hn]; rfl

/-- Settles O59: the count and the buffers are those of the scan, which `spriteScan_holds` ties to `qualifying`. -/
theorem spriteEvaluation : Obligations.SpriteEvaluation := by
  intro s l h hon
  refine ⟨_, exec_ppuStep s, fun hl => ?_, fun hl => ?_⟩
  · obtain ⟨-, hcount, hover⟩ := ppuStep_evaluates h hon hl
    have hscan : (spriteScan s l).count = (qualifying s.ppu l).length := (spriteScan_holds s l).1
    have hnumber : (ppuStep s).ppu.sprCount.toNat = min (qualifying s.ppu l).length 8 := by
      rw [hcount, hscan, BitVec.toNat_ofNat]; omega
    refine ⟨hnumber, fun k n hk hn => ?_, fun k hk => ?_, ?_⟩
    · rw [spriteAt_kept h hon hl hk hn]
      refine ⟨?_, rfl, rfl⟩
      show (BitVec.ofNat 6 n).toNat = n
      have := qualifying_lt hn
      rw [BitVec.toNat_ofNat]; omega
    · rw [hnumber] at hk
      rcases Nat.lt_or_ge k 8 with hlt | hge
      · rw [spriteAt_evaluated h hon hl hlt, List.getElem?_eq_none (by omega)]; rfl
      · rw [Ppu.spriteAt_of_ge _ hge, Ppu.spriteAt_of_ge _ hge]
    · rw [hover, hscan, Bool.or_eq_true, decide_eq_true_iff]
  · obtain ⟨hl', hc'⟩ := h.ppuStep
    obtain ⟨-, -, hsprites, hcount, -, hover⟩ := ppuStep_render hl' hc'
    obtain ⟨-, -, hsprites', -, -, hover'⟩ := arrived_kept s
    obtain ⟨hs, hc, ho⟩ := renderActions_257_hidden hl s.arrived
    rw [hon, whenDo_true] at hsprites hcount hover
    rw [if_neg (by omega)] at hover
    exact ⟨hcount.trans hc, hsprites.trans (hs.trans hsprites'), hover.trans (ho.trans hover')⟩

/-! ### The rows -/

theorem tile_even : ∀ h : BitVec 7, ∀ b : BitVec 1, (h ++ b : Byte) &&& (0x7F#7 ++ 0#1) = h ++ 0#1 := by
  intro h b
  rw [BitVec.and_append, BitVec.and_zero, show (0x7F#7) = BitVec.allOnes 7 from rfl, BitVec.and_allOnes]

/-- The forced-even tile of 16-row mode (43 R277). -/
theorem toNat_evenTile (tile : Byte) : (tile &&& 0xFE).toNat = tile.toNat - tile.toNat % 2 := by
  have hsplit : tile = tile.extractLsb' 1 7 ++ tile.extractLsb' 0 1 := by
    apply BitVec.eq_of_toNat_eq
    have := tile.isLt
    simp only [toNat_append', BitVec.extractLsb'_toNat, Nat.shiftRight_eq_div_pow]
    omega
  show (tile &&& (0x7F#7 ++ 0#1)).toNat = _
  rw [hsplit, tile_even, toNat_append', toNat_append']
  have := (tile.extractLsb' 0 1).isLt
  simp only [BitVec.toNat_ofNat]
  omega

theorem toNat_bit (b : Byte) (k : Nat) : (b.getLsbD k).toNat = b.toNat / 2 ^ k % 2 := by
  have h := getLsbD_iff b k
  cases hb : b.getLsbD k
  · rw [hb] at h
    have : ¬ b.toNat / 2 ^ k % 2 = 1 := fun he => absurd (h.2 he) (by decide)
    simp only [Bool.toNat_false]; omega
  · rw [hb] at h
    exact (h.1 rfl).symm

/-- The address of a sprite's row, in numbers (43 R276, R277). -/
theorem spriteRowAddr_ofNat (c : Control) (tile att : Byte) (row : Nat) :
    spriteRowAddr c tile att row = BitVec.ofNat 14 (spriteRowAt c tile.toNat att.toNat row) := by
  have hflip : ∀ a b : Nat, (if att.getLsbD 7 then a else b) = if att.toNat / 128 % 2 = 1 then a else b :=
    fun a b => ite_congr_iff (getLsbD_iff att 7) rfl rfl
  rw [spriteRowAddr, spriteRowAt]
  simp only [hflip]
  cases c.sprSize
  · rfl
  · simp only [if_true, patternAddr, toNat_bit, toNat_evenTile, Nat.pow_zero, Nat.div_one]
    generalize (if att.toNat / 128 % 2 = 1 then 15 - row else row) = r
    have htile := tile.isLt
    have hodd : ((tile &&& 0xFE) + 1).toNat = tile.toNat - tile.toNat % 2 + 1 := by
      rw [BitVec.toNat_add, toNat_evenTile, show (1 : Byte).toNat = 1 from rfl]; omega
    split
    · rw [hodd]
      refine congrArg (BitVec.ofNat 14) ?_
      omega
    · rfl

/-- The pixel at position `q` of a row (43 R276). -/
theorem pixelRow_nibble (attr : BitVec 4) (hi lo : Byte) (flip : Bool) {q : Nat} (hq : q < 8) :
    (pixelRow attr hi lo flip).toNat / 16 ^ q % 16 = (pixelNibble attr hi lo (if flip then 7 - q else q)).toNat := by
  have hnibble : (pixelRow attr hi lo flip).extractLsb' (4 * q) 4 = pixelNibble attr hi lo (if flip then 7 - q else q) := by
    apply BitVec.eq_of_getLsbD_eq
    intro i hi4
    rw [BitVec.getLsbD_extractLsb', getLsbD_pixelRow _ _ _ _ (by omega), show (4 * q + i) / 4 = q by omega,
      show (4 * q + i) % 4 = i by omega]
    simp [hi4]
  rw [← hnibble, BitVec.extractLsb'_toNat, Nat.shiftRight_eq_div_pow, show 2 ^ (4 * q) = 16 ^ q from Nat.pow_mul 2 4 q]

/-- A sprite's pixel, the palette bits above the two planes' bits (30 R136). -/
theorem toNat_spriteNibble (pal : BitVec 2) (hi lo : Byte) (b : Nat) :
    (pixelNibble (pal.setWidth 4 <<< 2) hi lo b).toNat = pal.toNat * 4 + (hi.getLsbD b).toNat * 2 + (lo.getLsbD b).toNat := by
  have key : ∀ (pal : BitVec 2) (x y : Bool), (pal.setWidth 4 <<< 2 ||| (BitVec.ofBool x ++ BitVec.ofBool y).setWidth 4).toNat =
      pal.toNat * 4 + x.toNat * 2 + y.toNat := by decide
  exact key pal _ _

/-- Settles O60: a kept entry's pattern is its row's pixels, read nibble by nibble. -/
theorem spriteRowsAreFetched : Obligations.SpriteRowsAreFetched := by
  intro s l h hon hl
  refine ⟨_, exec_ppuStep s, ?_⟩
  rintro k n j a att hk hn hj rfl rfl b rfl
  rw [spriteAt_kept h hon hl hk hn]
  have hpattern : (spriteEntry s l n).pattern = fetchSpritePattern s n (l - (Memory.read s.ppu.oam (4 * n)).toNat) := rfl
  have hatt : s.ppu.oamByte n 2 = Memory.read s.ppu.oam (4 * n + 2) := rfl
  have htile : s.ppu.oamByte n 1 = Memory.read s.ppu.oam (4 * n + 1) := rfl
  have hpal : ((Memory.read s.ppu.oam (4 * n + 2)).extractLsb' 0 2).toNat = (Memory.read s.ppu.oam (4 * n + 2)).toNat % 4 := by simp
  rw [hpattern, fetchSpritePattern, hatt, htile, spriteRowAddr_ofNat, pixelRow_nibble _ _ _ _ (by omega), toNat_spriteNibble, hpal,
    show 7 - (7 - j) = j by omega, BitVec.ofNat_add _ 8]
  rfl

end Sys2Proof.Machine
end

section
/-! Where every field of a snapshot stands (spec/46 R351, spec/95 part 2.9). -/

namespace Sys2Proof.Machine

/-! ### Numbers, arrays and narrow fields -/

theorem StandsAt.leNat {bs seg : List Byte} {k : Nat} (h : StandsAt bs k seg) : numberAt bs k seg.length = Machine.leNat seg := by
  induction seg generalizing k with
  | nil => rfl
  | cons a seg ih =>
    obtain ⟨ha, hseg⟩ := h.cons
    rw [List.length_cons, numberAt, ha, ih hseg, Machine.leNat]

/-- A little-endian field wide enough for its value stands for it. -/
theorem StandsAt.number {bs : List Byte} {k n w : Nat} {x : BitVec w} (h : StandsAt bs k (leBytes n x)) (hw : 2 ^ w ≤ 256 ^ n) :
    numberAt bs k n = x.toNat := by
  have hnum := h.leNat
  rw [length_leBytes, leNat_leBytes, Nat.mod_eq_of_lt (Nat.lt_of_lt_of_le x.isLt hw)] at hnum
  exact hnum

/-- Fields of `n` bytes, one after the other: field `j` stands `n * j` bytes on. -/
theorem StandsAt.flatMap {α : Type} {bs : List Byte} {k n : Nat} {l : List α} {enc : α → List Byte} (hn : ∀ x, (enc x).length = n)
    (h : StandsAt bs k (l.flatMap enc)) {j : Nat} {x : α} (hx : l[j]? = some x) : StandsAt bs (k + n * j) (enc x) := by
  induction l generalizing k j with
  | nil => cases hx
  | cons a l ih =>
    rw [List.flatMap_cons] at h
    obtain ⟨hfirst, hrest⟩ := h.append
    cases j with
    | zero =>
      obtain rfl := Option.some.inj hx
      exact hfirst
    | succ j =>
      have hj := ih hrest (j := j) hx
      rwa [hn, Nat.add_assoc, show n + n * j = n * (j + 1) by rw [Nat.mul_succ, Nat.add_comm]] at hj

theorem StandsAt.map {α : Type} {bs : List Byte} {k : Nat} {l : List α} {f : α → Byte} (h : StandsAt bs k (l.map f)) {j : Nat} {x : α}
    (hx : l[j]? = some x) : bs.getD (k + j) 0 = f x := by
  rw [← flatMap_single] at h
  have hj := h.flatMap (n := 1) (fun _ => rfl) hx
  rw [Nat.one_mul] at hj
  exact hj.cons.1

theorem StandsAt.item {bs seg : List Byte} {k : Nat} (h : StandsAt bs k seg) (j : Nat) {b : Byte} (hb : seg[j]? = some b) :
    bs.getD (k + j) 0 = b := by
  obtain ⟨hj, -⟩ := List.getElem?_eq_some_iff.1 hb
  rw [h.get hj, List.getD_eq_getElem?_getD, hb]
  rfl

theorem toNat_narrow {w : Nat} (hw : w ≤ 8) (x : BitVec w) : (x.setWidth 8).toNat = x.toNat :=
  BitVec.toNat_setWidth_of_le hw

/-- The bits of the status flags byte and of the IRQ flags byte, the unused ones zero. -/
theorem getLsbD_statusFlags (p : Ppu) : ∀ k, k < 8 → (statusFlags p).getLsbD k =
    if k = 7 then p.nmiOccurred else if k = 6 then p.spr0Hit else if k = 5 then p.sprOverflow else false := by
  have key : ∀ a b c : Bool, ∀ k, k < 8 → (bitAt 7 a ||| bitAt 6 b ||| bitAt 5 c).getLsbD k =
      if k = 7 then a else if k = 6 then b else if k = 5 then c else false := by decide
  exact key _ _ _

theorem getLsbD_irqFlags (r : Vrc2Regs) : ∀ k, k < 8 → (irqFlags r).getLsbD k =
    if k = 0 then r.irqEnableOnAck else if k = 1 then r.irqEnable else if k = 2 then r.irqCycleMode
      else if k = 3 then r.irqTriggered else false := by
  have key : ∀ a b c d : Bool, ∀ k, k < 8 → (bitAt 3 d ||| bitAt 2 c ||| bitAt 1 b ||| bitAt 0 a).getLsbD k =
      if k = 0 then a else if k = 1 then b else if k = 2 then c else if k = 3 then d else false := by decide
  exact key _ _ _ _

theorem Ppu.sprites_getElem? (p : Ppu) {k : Nat} (hk : k < 8) : p.sprites.toList[k]? = some (p.spriteAt k) := by
  rw [Ppu.spriteAt_of_lt p hk]
  simp [hk]

/-! ### The segments -/

/-- Fields 3 to 17. -/
theorem StandsAt.regs {bs : List Byte} {p : Ppu} (h : StandsAt bs 2 (saveRegs p)) :
    (numberAt bs 2 2 = p.scanline.toNat ∧ numberAt bs 4 2 = p.cycle.toNat ∧ bs.getD 6 0 = bitByte p.f ∧
      numberAt bs 7 2 = p.v.toNat ∧ numberAt bs 9 2 = p.t.toNat) ∧
    (bs.getD 11 0 = p.x.setWidth 8 ∧ bs.getD 12 0 = bitByte p.w ∧ bs.getD 13 0 = p.latch ∧ bs.getD 14 0 = p.readBuffer ∧
      bs.getD 15 0 = p.ctrl.toByte ∧ bs.getD 16 0 = p.mask.toByte ∧ bs.getD 17 0 = statusFlags p ∧
      bs.getD 18 0 = bitByte p.nmiPrevious ∧ bs.getD 19 0 = p.nmiDelay ∧ bs.getD 20 0 = p.oamAddr) := by
  obtain ⟨hpos, hrest⟩ := h.append
  obtain ⟨hl, hc⟩ := hpos.append
  obtain ⟨hf, hrest⟩ := hrest.cons
  obtain ⟨hvt, hbytes⟩ := hrest.append
  obtain ⟨hv, ht⟩ := hvt.append
  refine ⟨⟨hl.number (by decide), hc.number (by decide), hf, hv.number (by decide), ht.number (by decide)⟩, ?_⟩
  exact ⟨hbytes.item 0 rfl, hbytes.item 1 rfl, hbytes.item 2 rfl, hbytes.item 3 rfl,
    hbytes.item 4 rfl, hbytes.item 5 rfl, hbytes.item 6 rfl, hbytes.item 7 rfl,
    hbytes.item 8 rfl, hbytes.item 9 rfl⟩

/-- Fields 18 to 20. -/
theorem StandsAt.mems {bs : List Byte} {p : Ppu} (h : StandsAt bs 21 (saveMems p)) :
    (∀ k, k < 256 → bs.getD (21 + k) 0 = Memory.read p.oam k) ∧ (∀ k, k < 32 → bs.getD (277 + k) 0 = Memory.read p.pal k) ∧
      (∀ k, k < 2048 → bs.getD (309 + k) 0 = Memory.read p.nt k) := by
  obtain ⟨hoampal, hnt⟩ := h.append
  obtain ⟨hoam, hpal⟩ := hoampal.append
  rw [List.length_append, Memory.length_toBytes, Memory.length_toBytes] at hnt
  rw [Memory.length_toBytes] at hpal
  exact ⟨fun k hk => hoam.memory hk, fun k hk => hpal.memory hk, fun k hk => hnt.memory hk⟩

/-- Fields 21 to 27. -/
theorem StandsAt.pipe {bs : List Byte} {p : Ppu} (h : StandsAt bs 2357 (savePipe p)) :
    (bs.getD 2357 0 = p.ntByte ∧ bs.getD 2358 0 = p.atBits.setWidth 8 ∧ bs.getD 2359 0 = p.patLo ∧ bs.getD 2360 0 = p.patHi ∧
      numberAt bs 2361 8 = p.tileData.toNat ∧ bs.getD 2369 0 = p.sprCount.setWidth 8) ∧
    ∀ k, k < 8 → numberAt bs (2370 + 4 * k) 4 = (p.spriteAt k).pattern.toNat ∧ bs.getD (2402 + k) 0 = (p.spriteAt k).x ∧
      bs.getD (2410 + k) 0 = bitByte (p.spriteAt k).prio ∧ bs.getD (2418 + k) 0 = (p.spriteAt k).index.setWidth 8 := by
  simp only [savePipe, List.append_assoc] at h
  obtain ⟨hlatches, h⟩ := h.append
  obtain ⟨htile, h⟩ := h.append
  rw [length_leBytes] at h
  obtain ⟨hcount, h⟩ := h.append
  obtain ⟨hpatterns, h⟩ := h.append
  rw [length_flatMap_toList p.sprites _ 4 fun _ => length_leBytes 4 _] at h
  obtain ⟨hxs, h⟩ := h.append
  rw [List.length_map, Vector.length_toList] at h
  obtain ⟨hprios, hindices⟩ := h.append
  rw [List.length_map, Vector.length_toList] at hindices
  refine ⟨⟨hlatches.item 0 rfl, hlatches.item 1 rfl, hlatches.item 2 rfl,
    hlatches.item 3 rfl, htile.number (by decide), hcount.item 0 rfl⟩, fun k hk => ?_⟩
  have hget := p.sprites_getElem? hk
  exact ⟨(hpatterns.flatMap (fun _ => length_leBytes 4 _) hget).number (by decide), hxs.map hget, hprios.map hget, hindices.map hget⟩

/-- Fields 29b to 34b. -/
theorem StandsAt.vrc2 {bs : List Byte} {rev : Revision} {r : Vrc2Regs} (h : StandsAt bs 2427 (saveMapperRegs (.vrc2 rev r))) :
    bs.getD 2427 0 = r.prgBank0.setWidth 8 ∧ bs.getD 2428 0 = r.prgBank1.setWidth 8 ∧
      (∀ k : Fin 8, bs.getD (2429 + k.val) 0 = r.chrReg.get k) ∧ bs.getD 2437 0 = r.irqReload ∧ bs.getD 2438 0 = r.irqCounter ∧
      numberAt bs 2439 2 = r.irqPrescaler.toNat ∧ bs.getD 2441 0 = r.irqDiv3.setWidth 8 ∧ bs.getD 2442 0 = irqFlags r := by
  rw [saveMapperRegs_vrc2] at h
  obtain ⟨h0, h⟩ := h.cons
  obtain ⟨h1, h⟩ := h.cons
  obtain ⟨hchr, h⟩ := h.append
  rw [length_flatMap_toList r.chrReg _ 1 fun _ => rfl] at h
  obtain ⟨hreload, h⟩ := h.cons
  obtain ⟨hcounter, h⟩ := h.cons
  obtain ⟨hpre, h⟩ := h.append
  rw [length_leBytes] at h
  refine ⟨h0, h1, fun k => ?_, hreload, hcounter, hpre.number (by decide), h.item 0 rfl, h.item 1 rfl⟩
  have hget : r.chrReg.toList[k.val]? = some (r.chrReg.get k) := by simp [chrReg_get_eq_getElem]
  rw [flatMap_single] at hchr
  exact hchr.map hget

/-- Fields 35 and 36, from wherever they start. -/
theorem StandsAt.cart {bs : List Byte} {base : Nat} {p : Params} {c : Cart} (h : StandsAt bs base (saveCart p c)) :
    (∀ k, k < p.sramLen → bs.getD (base + k) 0 = Memory.read c.sram k) ∧
      (p.chrIsRam = true → ∀ k, k < p.chrLen → bs.getD (base + p.sramLen + k) 0 = Memory.read c.chrRam k) := by
  obtain ⟨hsram, hchr⟩ := h.append
  rw [Memory.length_toBytes] at hchr
  refine ⟨fun k hk => hsram.memory hk, fun hram k hk => ?_⟩
  rw [if_pos hram] at hchr
  exact hchr.memory hk

/-- Where the five segments start (46 R351). -/
theorem snapshot_segments (s : State) : StandsAt (snapshotBytes s) 0 [1, variantCode s.variant] ∧
    StandsAt (snapshotBytes s) 2 (saveRegs s.ppu) ∧ StandsAt (snapshotBytes s) 21 (saveMems s.ppu) ∧
    StandsAt (snapshotBytes s) 2357 (savePipe s.ppu) ∧ (snapshotBytes s).getD 2426 0 = s.mapper.mirror.toByte ∧
    StandsAt (snapshotBytes s) 2427 (saveMapperRegs s.mapper.regs) ∧
    StandsAt (snapshotBytes s) (if s.variant = .axrom then 2428 else 2443) (saveCart s.params s.cart) := by
  obtain ⟨hhead, h⟩ := (StandsAt.whole (snapshotBytes s)).append
  obtain ⟨hregs, h⟩ := h.append
  rw [length_saveRegs] at h
  obtain ⟨hmems, h⟩ := h.append
  rw [length_saveMems] at h
  obtain ⟨hpipe, h⟩ := h.append
  rw [length_savePipe] at h
  obtain ⟨hmirror, h⟩ := h.cons
  obtain ⟨hmapper, hcart⟩ := h.append
  refine ⟨hhead, hregs, hmems, hpipe, hmirror, hmapper, ?_⟩
  have hbase : 2427 + (saveMapperRegs s.mapper.regs).length = if s.variant = .axrom then 2428 else 2443 := by
    rw [length_saveMapperRegs, State.variant]
    rcases s.mapper.regs with _ | ⟨_ | _, _⟩ <;> rfl
  rw [← hbase]
  exact hcart

/-- Settles O20: the segments one after the other, each field read off its own. -/
theorem snapshotOffsets : Obligations.SnapshotOffsets := by
  rintro s bs rfl
  obtain ⟨hhead, hregs, hmems, hpipe, hmirror, hmapper, hcart⟩ := snapshot_segments s
  obtain ⟨⟨hl, hc, hf, hv, ht⟩, hx, hw, hlatch, hbuffer, hctrl, hmask, hflags, hprev, hdelay, hoamAddr⟩ := hregs.regs
  obtain ⟨hoam, hpal, hnt⟩ := hmems.mems
  obtain ⟨⟨hntByte, hat, hlo, hhi, htile, hcount⟩, hsprites⟩ := hpipe.pipe
  refine ⟨hhead.item 0 rfl, ?_, hl, hc, hf, hv, ht, ?_, hw, hlatch, hbuffer, ?_, ?_, ?_, hprev, hdelay, hoamAddr,
    hoam, hpal, hnt, hntByte, ?_, hlo, hhi, htile, ?_, ?_, ?_, ?_, ?_, ?_⟩
  · refine (hhead.item 1 rfl).trans ?_
    show variantCode s.variant = _
    cases s.variant <;> rfl
  · exact (congrArg BitVec.toNat hx).trans (toNat_narrow (by decide) _)
  · exact (congrArg Control.ofByte hctrl).trans (Control.ofByte_toByte _)
  · exact (congrArg Mask.ofByte hmask).trans (Mask.ofByte_toByte _)
  · intro k hk
    exact (congrArg (·.getLsbD k) hflags).trans (getLsbD_statusFlags s.ppu k hk)
  · exact (congrArg BitVec.toNat hat).trans (toNat_narrow (by decide) _)
  · exact (congrArg BitVec.toNat hcount).trans (toNat_narrow (by decide) _)
  · intro k hk
    obtain ⟨hpattern, hxs, hprio, hindex⟩ := hsprites k hk
    exact ⟨hpattern, hxs, hprio, (congrArg BitVec.toNat hindex).trans (toNat_narrow (by decide) _)⟩
  · refine hmirror.trans ?_
    cases s.mapper.mirror <;> rfl
  · intro bank hr
    rw [hr] at hmapper
    exact (congrArg BitVec.toNat (hmapper.item 0 rfl)).trans (toNat_narrow (by decide) bank)
  · intro rev r hr
    rw [hr] at hmapper
    obtain ⟨h0, h1, hchr, hreload, hcounter, hpre, hdiv, hirq⟩ := hmapper.vrc2
    exact ⟨(congrArg BitVec.toNat h0).trans (toNat_narrow (by decide) _), (congrArg BitVec.toNat h1).trans (toNat_narrow (by decide) _),
      hchr, hreload, hcounter, hpre, (congrArg BitVec.toNat hdiv).trans (toNat_narrow (by decide) _),
      fun k hk => (congrArg (·.getLsbD k) hirq).trans (getLsbD_irqFlags r k hk)⟩
  · rintro base rfl
    exact hcart.cart

end Sys2Proof.Machine
end
